-- ==== Sys2Proof/Word.lean ====
section
/-! DEFINITION. The value types of ED25519-CORE: bytes and words, the field elements mod p, the 256-bit scalars,
the affine points and the register names. Arithmetic on them stands in Machine/Arith.lean. -/

namespace Sys2Proof

/-- A byte of DMEM (R71). -/
abbrev Byte := BitVec 8

/-- An instruction word, and a host register or host access (R7, R50, R100). -/
abbrev Word := BitVec 32

/-- The field prime p = 2^255 − 19 (R10), written as the literal R10 gives. -/
abbrev p : Nat := 57896044618658097711785492504343953926634992332820282019728792003956564819949

theorem p_eq : p = 2 ^ 255 - 19 := by decide +kernel

theorem p_pos : 0 < p := by decide +kernel

/-- A field element: an integer x with 0 ≤ x < p, the canonical value (R10, R31). -/
abbrev Fe := Fin p

/-- n mod p as a field element (R15). -/
def Fe.ofNat (n : Nat) : Fe := ⟨n % p, Nat.mod_lt n p_pos⟩

/-- A raw scalar: an integer n with 0 ≤ n < 2^256, not kept reduced mod L (R32). -/
abbrev Scalar := BitVec 256

/-- The affine pair a point register holds (R33). That the pair satisfies the curve equation is not part of the
type: it is the invariant of Safety.lean, kept by every step. -/
structure Point where
  x : Fe
  y : Fe
deriving DecidableEq, Repr

/-- The identity O = (0, 1) of the group (R16). -/
def Point.identity : Point := ⟨Fe.ofNat 0, Fe.ofNat 1⟩

/-- The name of a field register F0–F15 (R31, R108). -/
abbrev FReg := Fin 16
/-- The name of a scalar register S0–S15 (R32, R108). -/
abbrev SReg := Fin 16
/-- The name of a point register P0–P15 (R33, R108). -/
abbrev PReg := Fin 16

end Sys2Proof
end

