-- ==== Sys2Proof/Config.lean ====
section
/-! DEFINITION. What one implementation fixes (the two parameters of R6) and the values the spec leaves open (R290, R291):
the contents of registers and memories after a reset. -/

namespace Sys2Proof

/-- The implementation parameters (R6). Every value of this type is a legal pair: IMEM_WORDS is a power of two from
1 to 65536 and DMEM_BYTES a power of two from 64 to 65536. -/
structure Params where
  /-- log2(IMEM_WORDS), 0 to 16. -/
  imemLog2 : Fin 17
  /-- log2(DMEM_BYTES) − 6, 0 to 10. -/
  dmemLog2Less6 : Fin 11
deriving DecidableEq, Repr

/-- IMEM_WORDS (R6). -/
def Params.imemWords (c : Params) : Nat := 2 ^ c.imemLog2.val

/-- log2(DMEM_BYTES), 6 to 16 (R65). -/
def Params.dmemLog2 (c : Params) : Nat := c.dmemLog2Less6.val + 6

/-- DMEM_BYTES (R6). -/
def Params.dmemBytes (c : Params) : Nat := 2 ^ c.dmemLog2

/-- The defaults of R6: IMEM_WORDS = 1024 and DMEM_BYTES = 4096. -/
def Params.standard : Params := ⟨10, 6⟩

/-! The free values. R290 and R291 leave the registers after a reset, and the memories after a hardware reset,
unspecified, and 93_implementation_defined.md says of them "any value". The n-th reset of a machine's life takes the n-th
draw (State.draws counts them; State.reset is the 0-th). No constant below has a body, so nothing can be proved of its value. -/

/-- The value of a field register after the n-th reset, before reduction mod p (R290; free). -/
opaque Config.drawField (n : Nat) (r : FReg) : Nat
/-- The value of a scalar register after the n-th reset (R290; free). -/
opaque Config.drawScalar (n : Nat) (r : SReg) : Scalar
/-- The coordinates of a point register after the n-th reset, where they satisfy the curve equation (R33, R290; free). -/
opaque Config.drawPoint (n : Nat) (r : PReg) : Nat × Nat
/-- What a memory cell that nothing has written since the n-th reset holds, where that is a hardware reset: w is 32 for the
words of IMEM and 8 for the bytes of DMEM (R291; free; log entry 2). -/
opaque Config.drawCell (w n a : Nat) : BitVec w

end Sys2Proof
end

