-- ==== Sys2Proof/Syntax.lean ====
section
/-! DEFINITION. The instructions: one constructor per row of spec/opcode_table.json (30_encoding.md R110), with the operands in
the assembler's order (R121). A register operand names a register of the file its opcode fixes (R108, R110), so its type is that
file's names. Addresses, immediates, offsets and codes are the integers the rules speak of: WellFormed.lean says which of them an
encoding holds. -/

namespace Sys2Proof

inductive Instr where
  /-- halt (R130), format H, opcode 0x01. -/
  | halt (code : Nat)
  /-- j (R131), format B, opcode 0x02. -/
  | j (off : Int)
  /-- bc (R132), format B, opcode 0x03. -/
  | bc (off : Int)
  /-- bnc (R133), format B, opcode 0x04. -/
  | bnc (off : Int)
  /-- fe.ld (R151), format M, opcode 0x10. -/
  | feLd (fd : FReg) (addr : Nat)
  /-- fe.st (R152), format M, opcode 0x11. -/
  | feSt (fa : FReg) (addr : Nat)
  /-- fe.ldi (R153), format I, opcode 0x12. -/
  | feLdi (fd : FReg) (imm : Nat)
  /-- fe.mov (R154), format R, opcode 0x13. -/
  | feMov (fd : FReg) (fa : FReg)
  /-- fe.add (R155), format R, opcode 0x14. -/
  | feAdd (fd : FReg) (fa : FReg) (fb : FReg)
  /-- fe.sub (R156), format R, opcode 0x15. -/
  | feSub (fd : FReg) (fa : FReg) (fb : FReg)
  /-- fe.mul (R157), format R, opcode 0x16. -/
  | feMul (fd : FReg) (fa : FReg) (fb : FReg)
  /-- fe.sqr (R158), format R, opcode 0x17. -/
  | feSqr (fd : FReg) (fa : FReg)
  /-- fe.inv (R159), format R, opcode 0x18. -/
  | feInv (fd : FReg) (fa : FReg)
  /-- fe.neg (R160), format R, opcode 0x19. -/
  | feNeg (fd : FReg) (fa : FReg)
  /-- fe.eq (R161), format R, opcode 0x1A. -/
  | feEq (fa : FReg) (fb : FReg)
  /-- sc.ld (R182), format M, opcode 0x20. -/
  | scLd (sd : SReg) (addr : Nat)
  /-- sc.st (R183), format M, opcode 0x21. -/
  | scSt (sa : SReg) (addr : Nat)
  /-- sc.ldh (R184), format M, opcode 0x22. -/
  | scLdh (sd : SReg) (addr : Nat)
  /-- sc.red (R185), format R, opcode 0x23. -/
  | scRed (sd : SReg) (sa : SReg)
  /-- sc.add (R186), format R, opcode 0x24. -/
  | scAdd (sd : SReg) (sa : SReg) (sb : SReg)
  /-- sc.mul (R187), format R, opcode 0x25. -/
  | scMul (sd : SReg) (sa : SReg) (sb : SReg)
  /-- sc.muladd (R188), format R, opcode 0x26. -/
  | scMulAdd (sd : SReg) (sa : SReg) (sb : SReg) (sc : SReg)
  /-- sc.clamp (R189), format R, opcode 0x27. -/
  | scClamp (sd : SReg) (sa : SReg)
  /-- sc.ltl (R190), format R, opcode 0x28. -/
  | scLtl (sa : SReg)
  /-- pt.dec (R211), format M, opcode 0x30. -/
  | ptDec (pd : PReg) (addr : Nat)
  /-- pt.enc (R212), format M, opcode 0x31. -/
  | ptEnc (pa : PReg) (addr : Nat)
  /-- pt.id (R213), format R, opcode 0x32. -/
  | ptId (pd : PReg)
  /-- pt.add (R214), format R, opcode 0x33. -/
  | ptAdd (pd : PReg) (pa : PReg) (pb : PReg)
  /-- pt.dbl (R215), format R, opcode 0x34. -/
  | ptDbl (pd : PReg) (pa : PReg)
  /-- pt.smulb (R216), format R, opcode 0x35. -/
  | ptSmulb (pd : PReg) (sa : SReg)
  /-- pt.smul (R217), format R, opcode 0x36. -/
  | ptSmul (pd : PReg) (sa : SReg) (pb : PReg)
  /-- pt.eq (R218), format R, opcode 0x37. -/
  | ptEq (pa : PReg) (pb : PReg)
  /-- pt.getx (R219), format R, opcode 0x38. -/
  | ptGetx (fd : FReg) (pa : PReg)
  /-- pt.gety (R220), format R, opcode 0x39. -/
  | ptGety (fd : FReg) (pa : PReg)
  /-- pt.fromxy (R221), format R, opcode 0x3A. -/
  | ptFromxy (pd : PReg) (fa : FReg) (fb : FReg)
deriving DecidableEq, Repr

/-- The instruction's mnemonic, in lower case as R120 has it and as spec/opcode_table.json spells it. -/
def Instr.mnemonic : Instr → String
  | .halt _ => "halt"
  | .j _ => "j"
  | .bc _ => "bc"
  | .bnc _ => "bnc"
  | .feLd _ _ => "fe.ld"
  | .feSt _ _ => "fe.st"
  | .feLdi _ _ => "fe.ldi"
  | .feMov _ _ => "fe.mov"
  | .feAdd _ _ _ => "fe.add"
  | .feSub _ _ _ => "fe.sub"
  | .feMul _ _ _ => "fe.mul"
  | .feSqr _ _ => "fe.sqr"
  | .feInv _ _ => "fe.inv"
  | .feNeg _ _ => "fe.neg"
  | .feEq _ _ => "fe.eq"
  | .scLd _ _ => "sc.ld"
  | .scSt _ _ => "sc.st"
  | .scLdh _ _ => "sc.ldh"
  | .scRed _ _ => "sc.red"
  | .scAdd _ _ _ => "sc.add"
  | .scMul _ _ _ => "sc.mul"
  | .scMulAdd _ _ _ _ => "sc.muladd"
  | .scClamp _ _ => "sc.clamp"
  | .scLtl _ => "sc.ltl"
  | .ptDec _ _ => "pt.dec"
  | .ptEnc _ _ => "pt.enc"
  | .ptId _ => "pt.id"
  | .ptAdd _ _ _ => "pt.add"
  | .ptDbl _ _ => "pt.dbl"
  | .ptSmulb _ _ => "pt.smulb"
  | .ptSmul _ _ _ => "pt.smul"
  | .ptEq _ _ => "pt.eq"
  | .ptGetx _ _ => "pt.getx"
  | .ptGety _ _ => "pt.gety"
  | .ptFromxy _ _ _ => "pt.fromxy"

end Sys2Proof
end

