-- ==== Sys2Proof/WellFormed.lean ====
section
/-! DEFINITION. Which instructions an encoding holds: the ranges of the operands that are integers (30_encoding.md R104–R107,
R122). A register index above 15 or of the wrong file cannot be written as an Instr at all (Syntax.lean). -/

namespace Sys2Proof

/-- A 16-bit byte address (R104) or unsigned immediate (R105): 0 to 65535 (R122). -/
def Instr.fitsUnsigned16 (n : Nat) : Bool := decide (n < 65536)

/-- A branch offset: −32768 to 32767 (R106, R122). -/
def Instr.fitsSigned16 (off : Int) : Bool := decide (-32768 ≤ off ∧ off ≤ 32767)

/-- A HALT code: 0 to 255 (R107, R122). -/
def Instr.fitsCode (n : Nat) : Bool := decide (n < 256)

/-- Every integer operand is one its field can hold (R122). -/
def Instr.wellFormed : Instr → Bool
  | .halt code => fitsCode code
  | .j off => fitsSigned16 off
  | .bc off => fitsSigned16 off
  | .bnc off => fitsSigned16 off
  | .feLd _ addr => fitsUnsigned16 addr
  | .feSt _ addr => fitsUnsigned16 addr
  | .feLdi _ imm => fitsUnsigned16 imm
  | .feMov _ _ => true
  | .feAdd _ _ _ => true
  | .feSub _ _ _ => true
  | .feMul _ _ _ => true
  | .feSqr _ _ => true
  | .feInv _ _ => true
  | .feNeg _ _ => true
  | .feEq _ _ => true
  | .scLd _ addr => fitsUnsigned16 addr
  | .scSt _ addr => fitsUnsigned16 addr
  | .scLdh _ addr => fitsUnsigned16 addr
  | .scRed _ _ => true
  | .scAdd _ _ _ => true
  | .scMul _ _ _ => true
  | .scMulAdd _ _ _ _ => true
  | .scClamp _ _ => true
  | .scLtl _ => true
  | .ptDec _ addr => fitsUnsigned16 addr
  | .ptEnc _ addr => fitsUnsigned16 addr
  | .ptId _ => true
  | .ptAdd _ _ _ => true
  | .ptDbl _ _ => true
  | .ptSmulb _ _ => true
  | .ptSmul _ _ _ => true
  | .ptEq _ _ => true
  | .ptGetx _ _ => true
  | .ptGety _ _ => true
  | .ptFromxy _ _ _ => true

/-- The well-formed instructions. -/
abbrev Instr.WellFormed (i : Instr) : Prop := i.wellFormed = true

end Sys2Proof
end

