-- ==== Sys2Proof/Decode.lean ====
section
/-! DEFINITION. The decoder, total on all 2^32 words and rejecting by name (30_encoding.md R100–R112), and after it the encoder,
written from the same formats, and the match and mask rows of the opcode table (R111). -/

namespace Sys2Proof

/-! ## Fields of an instruction word (R101–R107) -/

/-- w[31:24]. -/
def opField (w : Word) : BitVec 8 := w.extractLsb' 24 8
/-- w[23:20], rd or r. -/
def rdField (w : Word) : BitVec 4 := w.extractLsb' 20 4
/-- w[19:16]. -/
def raField (w : Word) : BitVec 4 := w.extractLsb' 16 4
/-- w[15:12]. -/
def rbField (w : Word) : BitVec 4 := w.extractLsb' 12 4
/-- w[11:8]. -/
def rcField (w : Word) : BitVec 4 := w.extractLsb' 8 4
/-- w[7:0]: the must-be-zero byte of format R, the code of format H. -/
def lowField (w : Word) : BitVec 8 := w.extractLsb' 0 8
/-- w[15:0]: addr, imm or off. -/
def immField (w : Word) : BitVec 16 := w.extractLsb' 0 16

/-- Index k of a register field names register k of the file the opcode fixes (R108). -/
def regOf (b : BitVec 4) : Fin 16 := ⟨b.toNat, b.isLt⟩

/-! ## Decoding (R110–R112) -/

/-- Why a word does not decode. Both raise E_ILLEGAL (R111, R112). -/
inductive DecodeError where
  /-- An opcode R110 does not assign (R112). -/
  | unassignedOpcode
  /-- An assigned opcode with a nonzero bit in a field that must be zero (R111). -/
  | reservedBits
deriving DecidableEq, Repr

/-- The instruction i where its must-be-zero fields are zero (R111). -/
def whenZero (zero : Bool) (i : Instr) : Except DecodeError Instr :=
  if zero then .ok i else .error .reservedBits

/-- Format B: w[23:16] must be zero and off = sext_16(w[15:0]) (R106). -/
def decodeB (w : Word) (mk : Int → Instr) : Except DecodeError Instr :=
  whenZero (rdField w == 0 && raField w == 0) (mk (immField w).toInt)

/-- Formats M and I: w[19:16] must be zero; the register r or rd and the unsigned addr or imm (R104, R105). -/
def decodeM (w : Word) (mk : Fin 16 → Nat → Instr) : Except DecodeError Instr :=
  whenZero (raField w == 0) (mk (regOf (rdField w)) (immField w).toNat)

/-- Format R with all four fields used (R103). -/
def decodeR4 (w : Word) (mk : Fin 16 → Fin 16 → Fin 16 → Fin 16 → Instr) : Except DecodeError Instr :=
  whenZero (lowField w == 0)
    (mk (regOf (rdField w)) (regOf (raField w)) (regOf (rbField w)) (regOf (rcField w)))

/-- Format R with rd, ra and rb used. -/
def decodeR3 (w : Word) (mk : Fin 16 → Fin 16 → Fin 16 → Instr) : Except DecodeError Instr :=
  whenZero (rcField w == 0 && lowField w == 0) (mk (regOf (rdField w)) (regOf (raField w)) (regOf (rbField w)))

/-- Format R with rd and ra used. -/
def decodeR2 (w : Word) (mk : Fin 16 → Fin 16 → Instr) : Except DecodeError Instr :=
  whenZero (rbField w == 0 && rcField w == 0 && lowField w == 0) (mk (regOf (rdField w)) (regOf (raField w)))

/-- Format R with ra and rb used: the compares. -/
def decodeRab (w : Word) (mk : Fin 16 → Fin 16 → Instr) : Except DecodeError Instr :=
  whenZero (rdField w == 0 && rcField w == 0 && lowField w == 0) (mk (regOf (raField w)) (regOf (rbField w)))

/-- Format R with ra used: sc.ltl. -/
def decodeRa (w : Word) (mk : Fin 16 → Instr) : Except DecodeError Instr :=
  whenZero (rdField w == 0 && rbField w == 0 && rcField w == 0 && lowField w == 0) (mk (regOf (raField w)))

/-- Format R with rd used: pt.id. -/
def decodeRd (w : Word) (mk : Fin 16 → Instr) : Except DecodeError Instr :=
  whenZero (raField w == 0 && rbField w == 0 && rcField w == 0 && lowField w == 0) (mk (regOf (rdField w)))

/-- Format H: w[23:8] must be zero and code = w[7:0] (R107). -/
def decodeH (w : Word) (mk : Nat → Instr) : Except DecodeError Instr :=
  whenZero (rdField w == 0 && raField w == 0 && rbField w == 0 && rcField w == 0) (mk (lowField w).toNat)

/-- The instruction a word holds (R110, R111). -/
def decode (w : Word) : Except DecodeError Instr :=
  match (opField w).toNat with
  | 0x01 => decodeH w .halt
  | 0x02 => decodeB w .j
  | 0x03 => decodeB w .bc
  | 0x04 => decodeB w .bnc
  | 0x10 => decodeM w .feLd
  | 0x11 => decodeM w .feSt
  | 0x12 => decodeM w .feLdi
  | 0x13 => decodeR2 w .feMov
  | 0x14 => decodeR3 w .feAdd
  | 0x15 => decodeR3 w .feSub
  | 0x16 => decodeR3 w .feMul
  | 0x17 => decodeR2 w .feSqr
  | 0x18 => decodeR2 w .feInv
  | 0x19 => decodeR2 w .feNeg
  | 0x1A => decodeRab w .feEq
  | 0x20 => decodeM w .scLd
  | 0x21 => decodeM w .scSt
  | 0x22 => decodeM w .scLdh
  | 0x23 => decodeR2 w .scRed
  | 0x24 => decodeR3 w .scAdd
  | 0x25 => decodeR3 w .scMul
  | 0x26 => decodeR4 w .scMulAdd
  | 0x27 => decodeR2 w .scClamp
  | 0x28 => decodeRa w .scLtl
  | 0x30 => decodeM w .ptDec
  | 0x31 => decodeM w .ptEnc
  | 0x32 => decodeRd w .ptId
  | 0x33 => decodeR3 w .ptAdd
  | 0x34 => decodeR2 w .ptDbl
  | 0x35 => decodeR2 w .ptSmulb
  | 0x36 => decodeR3 w .ptSmul
  | 0x37 => decodeRab w .ptEq
  | 0x38 => decodeR2 w .ptGetx
  | 0x39 => decodeR2 w .ptGety
  | 0x3A => decodeR3 w .ptFromxy
  | _ => .error .unassignedOpcode

/-! ## Encoding -/

/-- A register index as a 4-bit field. -/
def regBits (r : Fin 16) : BitVec 4 := BitVec.ofNat 4 r.val

/-- Format R: op, rd, ra, rb, rc, and a zero byte (R102, R103). -/
def encodeR (op : BitVec 8) (rd ra rb rc : BitVec 4) : Word := op ++ rd ++ ra ++ rb ++ rc ++ 0#8

/-- Formats M and I: op, r or rd, a zero nibble, 16 bits (R102, R104, R105). -/
def encodeM (op : BitVec 8) (r : BitVec 4) (n : BitVec 16) : Word := op ++ r ++ 0#4 ++ n

/-- Format B: op, a zero byte, the offset's 16 bits (R102, R106). -/
def encodeB (op : BitVec 8) (off : BitVec 16) : Word := op ++ 0#8 ++ off

/-- Format H: op, 16 zero bits, the code (R102, R107). -/
def encodeH (op : BitVec 8) (code : BitVec 8) : Word := op ++ 0#16 ++ code

/-- The word of an instruction (R102, R110); the word decodes to it where it is well-formed (R122). Of an
operand that its field cannot hold, the low bits are taken. -/
def encode : Instr → Word
  | .halt code => encodeH 0x01 (BitVec.ofNat 8 code)
  | .j off => encodeB 0x02 (BitVec.ofInt 16 off)
  | .bc off => encodeB 0x03 (BitVec.ofInt 16 off)
  | .bnc off => encodeB 0x04 (BitVec.ofInt 16 off)
  | .feLd fd addr => encodeM 0x10 (regBits fd) (BitVec.ofNat 16 addr)
  | .feSt fa addr => encodeM 0x11 (regBits fa) (BitVec.ofNat 16 addr)
  | .feLdi fd imm => encodeM 0x12 (regBits fd) (BitVec.ofNat 16 imm)
  | .feMov fd fa => encodeR 0x13 (regBits fd) (regBits fa) 0 0
  | .feAdd fd fa fb => encodeR 0x14 (regBits fd) (regBits fa) (regBits fb) 0
  | .feSub fd fa fb => encodeR 0x15 (regBits fd) (regBits fa) (regBits fb) 0
  | .feMul fd fa fb => encodeR 0x16 (regBits fd) (regBits fa) (regBits fb) 0
  | .feSqr fd fa => encodeR 0x17 (regBits fd) (regBits fa) 0 0
  | .feInv fd fa => encodeR 0x18 (regBits fd) (regBits fa) 0 0
  | .feNeg fd fa => encodeR 0x19 (regBits fd) (regBits fa) 0 0
  | .feEq fa fb => encodeR 0x1A 0 (regBits fa) (regBits fb) 0
  | .scLd sd addr => encodeM 0x20 (regBits sd) (BitVec.ofNat 16 addr)
  | .scSt sa addr => encodeM 0x21 (regBits sa) (BitVec.ofNat 16 addr)
  | .scLdh sd addr => encodeM 0x22 (regBits sd) (BitVec.ofNat 16 addr)
  | .scRed sd sa => encodeR 0x23 (regBits sd) (regBits sa) 0 0
  | .scAdd sd sa sb => encodeR 0x24 (regBits sd) (regBits sa) (regBits sb) 0
  | .scMul sd sa sb => encodeR 0x25 (regBits sd) (regBits sa) (regBits sb) 0
  | .scMulAdd sd sa sb sc => encodeR 0x26 (regBits sd) (regBits sa) (regBits sb) (regBits sc)
  | .scClamp sd sa => encodeR 0x27 (regBits sd) (regBits sa) 0 0
  | .scLtl sa => encodeR 0x28 0 (regBits sa) 0 0
  | .ptDec pd addr => encodeM 0x30 (regBits pd) (BitVec.ofNat 16 addr)
  | .ptEnc pa addr => encodeM 0x31 (regBits pa) (BitVec.ofNat 16 addr)
  | .ptId pd => encodeR 0x32 (regBits pd) 0 0 0
  | .ptAdd pd pa pb => encodeR 0x33 (regBits pd) (regBits pa) (regBits pb) 0
  | .ptDbl pd pa => encodeR 0x34 (regBits pd) (regBits pa) 0 0
  | .ptSmulb pd sa => encodeR 0x35 (regBits pd) (regBits sa) 0 0
  | .ptSmul pd sa pb => encodeR 0x36 (regBits pd) (regBits sa) (regBits pb) 0
  | .ptEq pa pb => encodeR 0x37 0 (regBits pa) (regBits pb) 0
  | .ptGetx fd pa => encodeR 0x38 (regBits fd) (regBits pa) 0 0
  | .ptGety fd pa => encodeR 0x39 (regBits fd) (regBits pa) 0 0
  | .ptFromxy pd fa fb => encodeR 0x3A (regBits pd) (regBits fa) (regBits fb) 0

/-! ## The opcode table (R111) -/

/-- A row of the opcode table: a word w is this instruction's exactly when (w AND mask) = pattern (R111). -/
structure OpcodeRow where
  mnemonic : String
  pattern : Word
  mask : Word
deriving DecidableEq, Repr

/-- The mask of each format (R111): M and I; B; H; and R by the fields an instruction leaves unused. -/
def maskM : Word := 0xFF0F0000
def maskB : Word := 0xFFFF0000
def maskH : Word := 0xFFFFFF00
def maskR4 : Word := 0xFF0000FF
def maskR3 : Word := 0xFF000FFF
def maskR2 : Word := 0xFF00FFFF
def maskRab : Word := 0xFFF00FFF
def maskRa : Word := 0xFFF0FFFF
def maskRd : Word := 0xFF0FFFFF

def controlRows : List OpcodeRow := [
  ⟨"halt", 0x01000000, maskH⟩,
  ⟨"j", 0x02000000, maskB⟩,
  ⟨"bc", 0x03000000, maskB⟩,
  ⟨"bnc", 0x04000000, maskB⟩]

def fieldRows : List OpcodeRow := [
  ⟨"fe.ld", 0x10000000, maskM⟩,
  ⟨"fe.st", 0x11000000, maskM⟩,
  ⟨"fe.ldi", 0x12000000, maskM⟩,
  ⟨"fe.mov", 0x13000000, maskR2⟩,
  ⟨"fe.add", 0x14000000, maskR3⟩,
  ⟨"fe.sub", 0x15000000, maskR3⟩,
  ⟨"fe.mul", 0x16000000, maskR3⟩,
  ⟨"fe.sqr", 0x17000000, maskR2⟩,
  ⟨"fe.inv", 0x18000000, maskR2⟩,
  ⟨"fe.neg", 0x19000000, maskR2⟩,
  ⟨"fe.eq", 0x1A000000, maskRab⟩]

def scalarRows : List OpcodeRow := [
  ⟨"sc.ld", 0x20000000, maskM⟩,
  ⟨"sc.st", 0x21000000, maskM⟩,
  ⟨"sc.ldh", 0x22000000, maskM⟩,
  ⟨"sc.red", 0x23000000, maskR2⟩,
  ⟨"sc.add", 0x24000000, maskR3⟩,
  ⟨"sc.mul", 0x25000000, maskR3⟩,
  ⟨"sc.muladd", 0x26000000, maskR4⟩,
  ⟨"sc.clamp", 0x27000000, maskR2⟩,
  ⟨"sc.ltl", 0x28000000, maskRa⟩]

def pointRows : List OpcodeRow := [
  ⟨"pt.dec", 0x30000000, maskM⟩,
  ⟨"pt.enc", 0x31000000, maskM⟩,
  ⟨"pt.id", 0x32000000, maskRd⟩,
  ⟨"pt.add", 0x33000000, maskR3⟩,
  ⟨"pt.dbl", 0x34000000, maskR2⟩,
  ⟨"pt.smulb", 0x35000000, maskR2⟩,
  ⟨"pt.smul", 0x36000000, maskR3⟩,
  ⟨"pt.eq", 0x37000000, maskRab⟩,
  ⟨"pt.getx", 0x38000000, maskR2⟩,
  ⟨"pt.gety", 0x39000000, maskR2⟩,
  ⟨"pt.fromxy", 0x3A000000, maskR3⟩]

/-- The match and mask of the 35 instructions (R110, R111, opcode_table.json). -/
def opcodeTable : List OpcodeRow := controlRows ++ fieldRows ++ scalarRows ++ pointRows

/-- A word matches a row (R111). -/
def OpcodeRow.holds (r : OpcodeRow) (w : Word) : Bool := w &&& r.mask == r.pattern

/-- The instruction the decoder reads from a table row's word. -/
def decodeTableWord (nbits w : Nat) : Option Instr :=
  match decode (BitVec.ofNat 32 (w % 2 ^ nbits)) with
  | .ok i => some i
  | .error _ => none

end Sys2Proof
end

