-- ==== Sys2Proof/Machine/State.lean ====
section
/-! DEFINITION. The state of the machine: everything 10_state.md R30 lists, the parameters of R6 and one counter of the
model's own; the state after reset (70_reset_and_hazards.md R290); and the reasons a step could stop, of which there are none. -/

namespace Sys2Proof.Machine

/-- The run state (R41). -/
inductive RunState where
  | idle
  | running
  | halted
  | faulted
deriving DecidableEq, Repr

/-- The exception causes (R251). The codes 9 to 255 are never written, so they are no values of this type. -/
inductive Cause where
  /-- No exception since the last START or reset. -/
  | noException
  | illegal
  | fetch
  | align
  | bus
  | uninit
  | decode
  | notOnCurve
  | abort
deriving DecidableEq, Repr

/-- A register: its value and its valid bit V (R34). -/
structure Reg (α : Type) where
  val : α
  valid : Bool
deriving DecidableEq, Repr

/-- A memory: the cells that have been written since the hardware reset, as pairs of an address and what it holds in the
canonical form of Mem.wf (Machine/Ops.lean), and the number of the draw that every other cell holds (R291; log entry 2). The
cells of a memory of bytes are a list of Host.Cell. -/
structure Mem (w : Nat) where
  /-- The hardware reset whose draw the unwritten cells hold. -/
  draw : Nat
  cells : List (Nat × BitVec w)
deriving DecidableEq, Repr

/-- The memory that the n-th reset leaves, where that is a hardware reset: nothing is written yet (R291). -/
abbrev Mem.drawn (w n : Nat) : Mem w := ⟨n, []⟩

/-- The state of ED25519-CORE (R30). -/
structure State where
  /-- IMEM_WORDS and DMEM_BYTES (R6): configuration that nothing changes (log entry 1). -/
  params : Params
  /-- F0–F15 with their valid bits (R31, R34). -/
  f : Vector (Reg Fe) 16
  /-- S0–S15 with their valid bits (R32, R34). -/
  s : Vector (Reg Scalar) 16
  /-- P0–P15 with their valid bits (R33, R34). -/
  p : Vector (Reg Point) 16
  /-- The program counter, a word index in IMEM (R38). -/
  pc : BitVec 16
  /-- The condition flag C (R40). -/
  c : Bool
  /-- STATE (R41). -/
  runState : RunState
  /-- ABRQ, the abort request (R42). -/
  abrq : Bool
  /-- ENTRY[15:0] (R59). -/
  entry : BitVec 16
  /-- RESULT (R57). -/
  result : BitVec 8
  /-- CAUSE (R58). -/
  cause : Cause
  /-- FINST (R61). -/
  finst : Word
  /-- FADDR[15:0] (R62). -/
  faddr : BitVec 16
  /-- HACC (R56). -/
  hacc : Bool
  /-- IRQ_EN.DONE_EN (R63). -/
  irqEn : Bool
  /-- IRQ_PEND.DONE (R64). -/
  irqPend : Bool
  /-- IMEM, by word index (R70). -/
  imem : Mem 32
  /-- DMEM, by byte address (R71). -/
  dmem : Mem 8
  /-- The model's own: how many resets there have been since State.reset (log entry 4). -/
  draws : Nat
deriving DecidableEq, Repr

/-- There is no Lean-level fault: "Every instruction word, in every state, with every register and memory content, has one
defined outcome: a result, or one exception" (93_implementation_defined.md, 1.4), and an exception is a next state (R255). -/
inductive Fault
deriving DecidableEq, Repr

/-- Why the model gives an instruction no meaning. -/
inductive Refusal where
  /-- Raised by an arm of exec whose instruction has no meaning yet; safe, since the machine stops. No arm does. -/
  | notModelled (mnemonic : String)
deriving DecidableEq, Repr

/-- The values of the 48 registers that a reset leaves. -/
structure RegDraw where
  f : FReg → Fe
  s : SReg → Scalar
  p : PReg → Point

/-- The table of R290: the state after a reset, given what R290 leaves unspecified (the register values) and what it leaves
to R291 (the memories). -/
def State.afterReset (params : Params) (regs : RegDraw) (imem : Mem 32) (dmem : Mem 8) (draws : Nat) : State where
  params := params
  f := Vector.ofFn fun r => ⟨regs.f r, false⟩
  s := Vector.ofFn fun r => ⟨regs.s r, false⟩
  p := Vector.ofFn fun r => ⟨regs.p r, false⟩
  pc := 0
  c := false
  runState := .idle
  abrq := false
  entry := 0
  result := 0
  cause := .noException
  finst := 0
  faddr := 0
  hacc := false
  irqEn := false
  irqPend := false
  imem := imem
  dmem := dmem
  draws := draws

/-- The register values of State.reset. R290 leaves them unspecified. DESIGN CHOICE (log entry 3): zero, and the identity O
for the points, since a point register holds a point of the curve (R33). -/
def RegDraw.named : RegDraw := ⟨fun _ => Fe.ofNat 0, fun _ => 0, fun _ => Point.identity⟩

/-- The machine right after reset (R290), with the default parameters (R6) and a draw in both memories (R291; log entries
1, 2, 3). -/
def State.reset : State := State.afterReset Params.standard RegDraw.named (Mem.drawn 32 0) (Mem.drawn 8 0) 0

end Sys2Proof.Machine
end

