-- ==== Sys2Proof/Machine/Arith.lean ====
section
/-! DEFINITION. The mathematical primitives of 00_scope.md: little-endian byte strings (R8), field arithmetic mod p (R15), scalar
arithmetic mod L (R19, R24), the Edwards curve group (R12–R18) and the point encoding (R20–R22). -/

namespace Sys2Proof.Machine

/-! ## Byte strings (R8) -/

/-- LEint: the little-endian value of a byte string. -/
def leInt : List Byte → Nat
  | [] => 0
  | b :: bs => b.toNat + 256 * leInt bs

/-- LEbytes_n(v): the n bytes of v, least significant first. -/
def leBytes : Nat → Nat → List Byte
  | 0, _ => []
  | n + 1, v => BitVec.ofNat 8 v :: leBytes n (v / 256)

/-! ## The field (R10, R15) -/

def fadd (a b : Fe) : Fe := Fe.ofNat (a.val + b.val)

/-- (a − b) mod p, never negative: p is added before the subtraction of naturals. -/
def fsub (a b : Fe) : Fe := Fe.ofNat (a.val + (p - b.val))

def fmul (a b : Fe) : Fe := Fe.ofNat (a.val * b.val)

def fneg (a : Fe) : Fe := Fe.ofNat (p - a.val)

/-- b^e mod m for e < 2^bits, by squaring. -/
def powMod (m b : Nat) : Nat → Nat → Nat
  | 0, _ => 1
  | bits + 1, e =>
    let h := powMod m b bits (e / 2)
    if e % 2 = 1 then h * h % m * b % m else h * h % m

/-- a^e mod p for an exponent below 2^255. -/
def fpow (a : Fe) (e : Nat) : Fe := Fe.ofNat (powMod p a.val 255 e)

/-- a^(p−2) mod p, so finv 0 = 0 (R15). -/
def finv (a : Fe) : Fe := fpow a (p - 2)

/-- sign(x): the least significant bit of the canonical value (R20). -/
def sign (x : Fe) : Nat := x.val % 2

/-! ## The scalars (R11, R19, R24) -/

/-- The group order L (R11). -/
abbrev groupOrder : Nat := 7237005577332262213973186563042994240857116359379907606001950938285454250989

/-- n mod L, the least residue (R19). -/
def sred (n : Nat) : Scalar := BitVec.ofNat 256 (n % groupOrder)

def sadd (a b : Scalar) : Scalar := sred (a.toNat + b.toNat)

def smulL (a b : Scalar) : Scalar := sred (a.toNat * b.toNat)

/-- (a·b + c) mod L (R188). -/
def smuladd (a b c : Scalar) : Scalar := sred (a.toNat * b.toNat + c.toNat)

/-- (n AND NOT 7 AND NOT 2^255) OR 2^254 (R24). -/
def clamp (n : Scalar) : Scalar := (n &&& ~~~7#256 &&& ~~~(1#256 <<< 255)) ||| (1#256 <<< 254)

/-! ## The curve (R12–R18) -/

/-- d = −121665/121666 mod p (R12). -/
def curveD : Fe := Fe.ofNat 37095705934669439343138083508754565189542113879843219016388785533085940283555

/-- A square root of −1 (R13). -/
def sqrtMinusOne : Fe := Fe.ofNat 19681161376707505956807079304988542015446066515923890162744021073123829784752

/-- The base point B (R14). -/
def basePoint : Point :=
  ⟨Fe.ofNat 15112221349535400772501151409588531511454012693041857206046113283949847762202,
   Fe.ofNat 46316835694926478169428394003475163141307993866256225615783033603165251855960⟩

/-- OnCurve(x, y) (R16). -/
abbrev OnCurve (q : Point) : Prop :=
  fadd (fmul (fneg q.x) q.x) (fmul q.y q.y) =
    fadd (Fe.ofNat 1) (fmul curveD (fmul (fmul q.x q.x) (fmul q.y q.y)))

/-- The complete addition law (R17), with t = d·x1·x2·y1·y2. -/
def padd (a b : Point) : Point :=
  let t := fmul curveD (fmul (fmul a.x b.x) (fmul a.y b.y))
  ⟨fmul (fadd (fmul a.x b.y) (fmul a.y b.x)) (finv (fadd (Fe.ofNat 1) t)),
   fmul (fadd (fmul a.y b.y) (fmul a.x b.x)) (finv (fsub (Fe.ofNat 1) t))⟩

/-- pdbl(P) = padd(P, P) (R17). -/
def pdbl (a : Point) : Point := padd a a

/-- pneg((x, y)) = (fneg(x), y) (R17). -/
def pneg (a : Point) : Point := ⟨fneg a.x, a.y⟩

/-- Double and add over the low `bits` bits of n, the most significant first. -/
def smulBits (q : Point) : Nat → Nat → Point
  | 0, _ => Point.identity
  | bits + 1, n =>
    let h := pdbl (smulBits q bits (n / 2))
    if n % 2 = 1 then padd h q else h

/-- smul(n, Q) (R18): "The result depends only on n and Q, never on the algorithm". The algorithm here is double and add
(log entry 7); that it satisfies R18's two equations on the points of the curve is a statement of Obligations.lean. -/
def smul (n : Nat) (q : Point) : Point := smulBits q (n.log2 + 1) n

/-! ## Point encoding (R21, R22) -/

/-- enc((x, y)) (R21). -/
def enc (q : Point) : List Byte := leBytes 32 (q.y.val + sign q.x * 2 ^ 255)

/-- The one point that could encode to the 32 bytes with value n: its y is n[254:0] and its x the square root of
(y² − 1)/(d·y² + 1) with sign n[255], found as R23 finds it. Where there is no such point, some pair. -/
def decCandidate (n : Nat) : Point :=
  let y := Fe.ofNat (n % 2 ^ 255)
  let yy := fmul y y
  let x2 := fmul (fsub yy (Fe.ofNat 1)) (finv (fadd (fmul curveD yy) (Fe.ofNat 1)))
  let r := fpow x2 ((p + 3) / 8)
  let x := if fmul r r = x2 then r else fmul r sqrtMinusOne
  ⟨if sign x = n / 2 ^ 255 % 2 then x else fneg x, y⟩

/-- dec(b) (R22): the point that encodes to b, and none where no point does. The candidate is accepted
exactly when it is a point of the curve and re-encodes to b (log entry 8). -/
def dec (b : List Byte) : Option Point :=
  let q := decCandidate (leInt b)
  if OnCurve q ∧ enc q = b then some q else none

end Sys2Proof.Machine
end

