-- ==== Sys2Proof/Machine/Ops.lean ====
section
/-! DEFINITION. The named operations over the state: memories (20_memory.md), registers (10_state.md R31–R34), the program counter
(R38), taking an exception and an abort (60_exceptions.md R255, R258), the accepted START that ends an exception (R53, R259), and
the two resets (70_reset_and_hazards.md R290, R291). -/

namespace Sys2Proof.Machine

/-- What one step or one instruction answers. -/
abbrev Step := Host.Outcome State Fault Refusal

/-! ## Memories -/

/-- The first entry at an address, if there is one. -/
def Mem.lookup {w : Nat} : List (Nat × BitVec w) → Nat → Option (BitVec w)
  | [], _ => none
  | (k, v) :: rest, a => if k = a then some v else Mem.lookup rest a

/-- The cells with v at address a, in rising order and with one entry an address. -/
def Mem.insert {w : Nat} : List (Nat × BitVec w) → Nat → BitVec w → List (Nat × BitVec w)
  | [], a, v => [(a, v)]
  | (k, u) :: rest, a, v =>
    if k < a then (k, u) :: Mem.insert rest a v
    else if k = a then (a, v) :: rest
    else (a, v) :: (k, u) :: rest

/-- What a memory holds at an address: what was written there, or the draw of a cell that nothing has written (R291). -/
def Mem.read {w : Nat} (m : Mem w) (a : Nat) : BitVec w :=
  match Mem.lookup m.cells a with
  | some v => v
  | none => Config.drawCell w m.draw a

/-- Store v at address a, keeping the canonical form. -/
def Mem.write {w : Nat} (m : Mem w) (a : Nat) (v : BitVec w) : Mem w := { m with cells := Mem.insert m.cells a v }

/-- Addresses strictly rising, from lo on and below size. -/
def Mem.wfFrom {w : Nat} (size : Nat) : Nat → List (Nat × BitVec w) → Bool
  | _, [] => true
  | lo, (k, _) :: rest => decide (lo ≤ k) && decide (k < size) && Mem.wfFrom size (k + 1) rest

/-- The canonical form of a memory of `size` cells: each written cell listed once, in rising order, and no cell outside. -/
def Mem.wf {w : Nat} (size : Nat) (m : Mem w) : Bool := Mem.wfFrom size 0 m.cells

/-- MemRead(a, n): the n bytes from a on (R74). -/
def Mem.readBytes (m : Mem 8) : Nat → Nat → List Byte
  | _, 0 => []
  | a, n + 1 => m.read a :: Mem.readBytes m (a + 1) n

/-- MemWrite(a, n, b): the n bytes of b from a on (R74). -/
def Mem.writeBytes (m : Mem 8) : Nat → List Byte → Mem 8
  | _, [] => m
  | a, b :: bs => Mem.writeBytes (m.write a b) (a + 1) bs

/-! ## Registers, flag and program counter -/

/-- F[r] <- v, which sets the valid bit (R9, R34). -/
def State.writeF (s : State) (r : FReg) (v : Fe) : State := { s with f := s.f.set r ⟨v, true⟩ }

/-- S[r] <- v, which sets the valid bit (R9, R34). -/
def State.writeS (s : State) (r : SReg) (v : Scalar) : State := { s with s := s.s.set r ⟨v, true⟩ }

/-- P[r] <- v, which sets the valid bit (R9, R34). -/
def State.writeP (s : State) (r : PReg) (v : Point) : State := { s with p := s.p.set r ⟨v, true⟩ }

/-- C <- b (R9, R40). -/
def State.setC (s : State) (b : Bool) : State := { s with c := b }

/-- pc <- target (R9). -/
def State.jump (s : State) (target : BitVec 16) : State := { s with pc := target }

/-- pc <- next_pc = (pc + 1) mod 2^16 (R38). -/
def State.advance (s : State) : State := s.jump (s.pc + 1)

/-- DMEM[addr .. addr+31] <- b (R74). -/
def State.storeBytes (s : State) (addr : Nat) (b : List Byte) : State := { s with dmem := s.dmem.writeBytes addr b }

/-! ## Stopping -/

/-- HALT's effect (R130): the pc stays. -/
def State.halt (s : State) (code : BitVec 8) : State :=
  { s with result := code, runState := .halted, irqPend := true }

/-- Trap entry (R255): the cause, the instruction word and the data address are recorded, the unit stops, DONE is
pending, and nothing else changes. -/
def State.raise (s : State) (c : Cause) (w : Word) (a : BitVec 16) : State :=
  { s with cause := c, finst := w, faddr := a, runState := .faulted, irqPend := true }

/-- An exception of the instruction i with data address a (R255). FINST is the word of i: the word that was
fetched, since no two words decode to one instruction (R111; log entry 6). -/
def State.trap (s : State) (c : Cause) (i : Instr) (a : Nat) : State := s.raise c (encode i) (BitVec.ofNat 16 a)

/-- Taking an abort (R258). -/
def State.takeAbort (s : State) : State := { s.raise .abort 0 0 with abrq := false }

/-! ## Starting and resetting -/

/-- An accepted START (R53), which is also how the host returns from an exception (R259). -/
def State.start (s : State) : State :=
  { s with
    pc := s.entry, c := false, result := 0, cause := .noException, finst := 0, faddr := 0, hacc := false, abrq := false,
    runState := .running }

/-- The registers the n-th reset leaves: free values (log entry 4), a point of the curve in each point register (R33). -/
def RegDraw.free (n : Nat) : RegDraw where
  f r := Fe.ofNat (Config.drawField n r)
  s r := Config.drawScalar n r
  p r :=
    let q : Point := ⟨Fe.ofNat (Config.drawPoint n r).1, Fe.ofNat (Config.drawPoint n r).2⟩
    if OnCurve q then q else Point.identity

/-- Soft reset (R290, R291): the memories are unchanged. -/
def State.softReset (s : State) : State :=
  let n := s.draws + 1
  State.afterReset s.params (RegDraw.free n) s.imem s.dmem n

/-- Hardware reset (R290, R291): the memories hold a new draw. -/
def State.hardwareReset (s : State) : State :=
  let n := s.draws + 1
  State.afterReset s.params (RegDraw.free n) (Mem.drawn 32 n) (Mem.drawn 8 n) n

/-! ## Fetching -/

/-- IMEM[pc] (R70, R134). -/
def State.fetchWord (s : State) : Word := s.imem.read s.pc.toNat

end Sys2Proof.Machine
end

