-- ==== Sys2Proof/Machine/Operands.lean ====
section
/-! DEFINITION. The operand forms (30_encoding.md R103–R109) with the checks the instruction cycle makes on them before an
instruction's rule runs (40_control.md R134, in the priority order of 60_exceptions.md R256): a source register must be valid, and a
data address aligned and in range. Each form takes the instruction, which an exception records, and what to do with
the operand. -/

namespace Sys2Proof.Machine

/-- A field source register: its value, or E_UNINIT (R34). -/
def withF (i : Instr) (r : FReg) (s : State) (k : Fe → State) : State :=
  if s.f[r].valid then k s.f[r].val else s.trap .uninit i 0

/-- A scalar source register: its value, or E_UNINIT (R34). -/
def withS (i : Instr) (r : SReg) (s : State) (k : Scalar → State) : State :=
  if s.s[r].valid then k s.s[r].val else s.trap .uninit i 0

/-- A point source register: its value, or E_UNINIT (R34). -/
def withP (i : Instr) (r : PReg) (s : State) (k : Point → State) : State :=
  if s.p[r].valid then k s.p[r].val else s.trap .uninit i 0

/-- The alignment of every data address (R76). -/
def accessAlign : Nat := 32

/-- A data address of an n-byte access: E_ALIGN where it is not a multiple of 32 (R76), then E_BUS where the access
does not end inside DMEM (R77). -/
def withAddr (i : Instr) (n addr : Nat) (s : State) (k : State) : State :=
  if addr % accessAlign ≠ 0 then s.trap .align i addr
  else if addr + n > s.params.dmemBytes then s.trap .bus i addr
  else k

/-- An n-byte operand in DMEM: its bytes (R73, R74). -/
def withBytes (i : Instr) (n addr : Nat) (s : State) (k : List Byte → State) : State :=
  withAddr i n addr s (k (s.dmem.readBytes addr n))

/-- A 32-byte store, then the next instruction (R74, R78). -/
def storeTo (i : Instr) (addr : Nat) (b : List Byte) (s : State) : State :=
  withAddr i 32 addr s (s.storeBytes addr b).advance

/-- target(off) = (pc + off) mod 2^16, from the branch's own pc (R135). -/
def branchTarget (pc : BitVec 16) (off : Int) : BitVec 16 := BitVec.ofInt 16 (pc.toNat + off)

end Sys2Proof.Machine
end

