-- ==== Sys2Proof/Machine/Flags.lean ====
section
/-! DEFINITION. The condition flag (10_state.md R40): the three comparisons that compute it and the two branches' tests. -/

namespace Sys2Proof.Machine

/-- C of fe.eq (R161): registers are canonical, so this is equality of field elements. -/
def flagFeEq (a b : Fe) : Bool := decide (a = b)

/-- C of sc.ltl (R190): the raw 256-bit value is below L. -/
def flagScLtl (a : Scalar) : Bool := decide (a.toNat < groupOrder)

/-- C of pt.eq (R218): equality of the affine pairs. -/
def flagPtEq (a b : Point) : Bool := decide (a = b)

/-- A branch: to target(off) where it is taken, else to the next instruction (R131–R133). -/
def branch (taken : Bool) (off : Int) (s : State) : State :=
  if taken then s.jump (branchTarget s.pc off) else s.advance

/-- A compare's effect: C, then the next instruction; nothing else. -/
def compare (b : Bool) (s : State) : State := (s.setC b).advance

end Sys2Proof.Machine
end

