-- ==== Sys2Proof/Machine/Control.lean ====
section
/-! DEFINITION. The control instructions (40_control.md R130–R135). -/

namespace Sys2Proof.Machine

/-- HALT (R130). -/
def execHalt (code : Nat) (s : State) : Step := .next (s.halt (BitVec.ofNat 8 code))

/-- J (R131). -/
def execJ (off : Int) (s : State) : Step := .next (branch true off s)

/-- BC (R132). -/
def execBc (off : Int) (s : State) : Step := .next (branch s.c off s)

/-- BNC (R133). -/
def execBnc (off : Int) (s : State) : Step := .next (branch (!s.c) off s)

end Sys2Proof.Machine
end

