-- ==== Sys2Proof/Machine/Field.lean ====
section
/-! DEFINITION. The field unit's instructions (41_field.md R150–R161). Each reads its sources in the order ra, rb, then writes. -/

namespace Sys2Proof.Machine

/-- F[fd] <- v, then the next instruction (R9, R38). -/
def putF (fd : FReg) (v : Fe) (s : State) : State := (s.writeF fd v).advance

/-- One source, one destination. -/
def feUnary (i : Instr) (g : Fe → Fe) (fd fa : FReg) (s : State) : State :=
  withF i fa s fun a => putF fd (g a) s

/-- Two sources, one destination. -/
def feBinary (i : Instr) (g : Fe → Fe → Fe) (fd fa fb : FReg) (s : State) : State :=
  withF i fa s fun a => withF i fb s fun b => putF fd (g a b) s

/-- FE.LD (R151): all 256 bits of the operand, reduced mod p. -/
def execFeLd (fd : FReg) (addr : Nat) (s : State) : Step :=
  .next (withBytes (.feLd fd addr) 32 addr s fun b => putF fd (Fe.ofNat (leInt b)) s)

/-- FE.ST (R152). -/
def execFeSt (fa : FReg) (addr : Nat) (s : State) : Step :=
  .next (withF (.feSt fa addr) fa s fun a => storeTo (.feSt fa addr) addr (leBytes 32 a.val) s)

/-- FE.LDI (R153). -/
def execFeLdi (fd : FReg) (imm : Nat) (s : State) : Step := .next (putF fd (Fe.ofNat imm) s)

/-- FE.MOV (R154). -/
def execFeMov (fd fa : FReg) (s : State) : Step := .next (feUnary (.feMov fd fa) (fun a => a) fd fa s)

/-- FE.ADD (R155). -/
def execFeAdd (fd fa fb : FReg) (s : State) : Step := .next (feBinary (.feAdd fd fa fb) fadd fd fa fb s)

/-- FE.SUB (R156): ra minus rb. -/
def execFeSub (fd fa fb : FReg) (s : State) : Step := .next (feBinary (.feSub fd fa fb) fsub fd fa fb s)

/-- FE.MUL (R157). -/
def execFeMul (fd fa fb : FReg) (s : State) : Step := .next (feBinary (.feMul fd fa fb) fmul fd fa fb s)

/-- FE.SQR (R158). -/
def execFeSqr (fd fa : FReg) (s : State) : Step := .next (feUnary (.feSqr fd fa) (fun a => fmul a a) fd fa s)

/-- FE.INV (R159). -/
def execFeInv (fd fa : FReg) (s : State) : Step := .next (feUnary (.feInv fd fa) finv fd fa s)

/-- FE.NEG (R160). -/
def execFeNeg (fd fa : FReg) (s : State) : Step := .next (feUnary (.feNeg fd fa) fneg fd fa s)

/-- FE.EQ (R161). -/
def execFeEq (fa fb : FReg) (s : State) : Step :=
  .next (withF (.feEq fa fb) fa s fun a => withF (.feEq fa fb) fb s fun b => compare (flagFeEq a b) s)

end Sys2Proof.Machine
end

