-- ==== Sys2Proof/Machine/PointUnit.lean ====
section
/-! DEFINITION. The point unit's instructions (43_point.md R210–R221). -/

namespace Sys2Proof.Machine

/-- P[pd] <- q, then the next instruction (R9, R38). -/
def putP (pd : PReg) (q : Point) (s : State) : State := (s.writeP pd q).advance

/-- PT.DEC (R211): E_DECODE where no point encodes to the bytes. -/
def execPtDec (pd : PReg) (addr : Nat) (s : State) : Step :=
  .next (withBytes (.ptDec pd addr) 32 addr s fun b =>
    match dec b with
    | none => s.trap .decode (.ptDec pd addr) addr
    | some q => putP pd q s)

/-- PT.ENC (R212). -/
def execPtEnc (pa : PReg) (addr : Nat) (s : State) : Step :=
  .next (withP (.ptEnc pa addr) pa s fun a => storeTo (.ptEnc pa addr) addr (enc a) s)

/-- PT.ID (R213). -/
def execPtId (pd : PReg) (s : State) : Step := .next (putP pd Point.identity s)

/-- PT.ADD (R214). -/
def execPtAdd (pd pa pb : PReg) (s : State) : Step :=
  .next (withP (.ptAdd pd pa pb) pa s fun a => withP (.ptAdd pd pa pb) pb s fun b => putP pd (padd a b) s)

/-- PT.DBL (R215). -/
def execPtDbl (pd pa : PReg) (s : State) : Step :=
  .next (withP (.ptDbl pd pa) pa s fun a => putP pd (pdbl a) s)

/-- PT.SMULB (R216): the whole 256-bit scalar, not reduced. -/
def execPtSmulb (pd : PReg) (sa : SReg) (s : State) : Step :=
  .next (withS (.ptSmulb pd sa) sa s fun a => putP pd (smul a.toNat basePoint) s)

/-- PT.SMUL (R217): ra names a scalar register and rb a point register. -/
def execPtSmul (pd : PReg) (sa : SReg) (pb : PReg) (s : State) : Step :=
  .next (withS (.ptSmul pd sa pb) sa s fun a =>
    withP (.ptSmul pd sa pb) pb s fun b => putP pd (smul a.toNat b) s)

/-- PT.EQ (R218). -/
def execPtEq (pa pb : PReg) (s : State) : Step :=
  .next (withP (.ptEq pa pb) pa s fun a => withP (.ptEq pa pb) pb s fun b => compare (flagPtEq a b) s)

/-- PT.GETX (R219). -/
def execPtGetx (fd : FReg) (pa : PReg) (s : State) : Step :=
  .next (withP (.ptGetx fd pa) pa s fun a => putF fd a.x s)

/-- PT.GETY (R220). -/
def execPtGety (fd : FReg) (pa : PReg) (s : State) : Step :=
  .next (withP (.ptGety fd pa) pa s fun a => putF fd a.y s)

/-- PT.FROMXY (R221): E_NOTONCURVE where the pair does not satisfy the curve equation. -/
def execPtFromxy (pd : PReg) (fa fb : FReg) (s : State) : Step :=
  .next (withF (.ptFromxy pd fa fb) fa s fun x => withF (.ptFromxy pd fa fb) fb s fun y =>
    if OnCurve ⟨x, y⟩ then putP pd ⟨x, y⟩ s else s.trap .notOnCurve (.ptFromxy pd fa fb) 0)

end Sys2Proof.Machine
end

