-- ==== Sys2Proof/Machine/ScalarUnit.lean ====
section
/-! DEFINITION. The scalar unit's instructions (42_scalar.md R180–R190). -/

namespace Sys2Proof.Machine

/-- S[sd] <- v, then the next instruction (R9, R38). -/
def putS (sd : SReg) (v : Scalar) (s : State) : State := (s.writeS sd v).advance

/-- One source, one destination. -/
def scUnary (i : Instr) (g : Scalar → Scalar) (sd sa : SReg) (s : State) : State :=
  withS i sa s fun a => putS sd (g a) s

/-- Two sources, one destination. -/
def scBinary (i : Instr) (g : Scalar → Scalar → Scalar) (sd sa sb : SReg) (s : State) : State :=
  withS i sa s fun a => withS i sb s fun b => putS sd (g a b) s

/-- SC.LD (R182): the raw value, not reduced. -/
def execScLd (sd : SReg) (addr : Nat) (s : State) : Step :=
  .next (withBytes (.scLd sd addr) 32 addr s fun b => putS sd (BitVec.ofNat 256 (leInt b)) s)

/-- SC.ST (R183): all 256 bits as held. -/
def execScSt (sa : SReg) (addr : Nat) (s : State) : Step :=
  .next (withS (.scSt sa addr) sa s fun a => storeTo (.scSt sa addr) addr (leBytes 32 a.toNat) s)

/-- SC.LDH (R184): 64 bytes, reduced mod L. -/
def execScLdh (sd : SReg) (addr : Nat) (s : State) : Step :=
  .next (withBytes (.scLdh sd addr) 64 addr s fun b => putS sd (sred (leInt b)) s)

/-- SC.RED (R185). -/
def execScRed (sd sa : SReg) (s : State) : Step :=
  .next (scUnary (.scRed sd sa) (fun a => sred a.toNat) sd sa s)

/-- SC.ADD (R186). -/
def execScAdd (sd sa sb : SReg) (s : State) : Step := .next (scBinary (.scAdd sd sa sb) sadd sd sa sb s)

/-- SC.MUL (R187). -/
def execScMul (sd sa sb : SReg) (s : State) : Step := .next (scBinary (.scMul sd sa sb) smulL sd sa sb s)

/-- SC.MULADD (R188): the sources are checked in the order ra, rb, rc. -/
def execScMulAdd (sd sa sb sc : SReg) (s : State) : Step :=
  .next (withS (.scMulAdd sd sa sb sc) sa s fun a =>
    withS (.scMulAdd sd sa sb sc) sb s fun b =>
    withS (.scMulAdd sd sa sb sc) sc s fun c => putS sd (smuladd a b c) s)

/-- SC.CLAMP (R189). -/
def execScClamp (sd sa : SReg) (s : State) : Step := .next (scUnary (.scClamp sd sa) clamp sd sa s)

/-- SC.LTL (R190). -/
def execScLtl (sa : SReg) (s : State) : Step :=
  .next (withS (.scLtl sa) sa s fun a => compare (flagScLtl a) s)

end Sys2Proof.Machine
end

