-- ==== Sys2Proof/Machine/Dispatch.lean ====
section
/-! DEFINITION. The dispatch: the meaning of every instruction, one arm per constructor. -/

namespace Sys2Proof.Machine

def exec (i : Instr) (s : State) : Host.Outcome State Fault Refusal :=
  match i with
  | .halt code => Sys2Proof.Machine.execHalt code s
  | .j off => Sys2Proof.Machine.execJ off s
  | .bc off => Sys2Proof.Machine.execBc off s
  | .bnc off => Sys2Proof.Machine.execBnc off s
  | .feLd fd addr => Sys2Proof.Machine.execFeLd fd addr s
  | .feSt fa addr => Sys2Proof.Machine.execFeSt fa addr s
  | .feLdi fd imm => Sys2Proof.Machine.execFeLdi fd imm s
  | .feMov fd fa => Sys2Proof.Machine.execFeMov fd fa s
  | .feAdd fd fa fb => Sys2Proof.Machine.execFeAdd fd fa fb s
  | .feSub fd fa fb => Sys2Proof.Machine.execFeSub fd fa fb s
  | .feMul fd fa fb => Sys2Proof.Machine.execFeMul fd fa fb s
  | .feSqr fd fa => Sys2Proof.Machine.execFeSqr fd fa s
  | .feInv fd fa => Sys2Proof.Machine.execFeInv fd fa s
  | .feNeg fd fa => Sys2Proof.Machine.execFeNeg fd fa s
  | .feEq fa fb => Sys2Proof.Machine.execFeEq fa fb s
  | .scLd sd addr => Sys2Proof.Machine.execScLd sd addr s
  | .scSt sa addr => Sys2Proof.Machine.execScSt sa addr s
  | .scLdh sd addr => Sys2Proof.Machine.execScLdh sd addr s
  | .scRed sd sa => Sys2Proof.Machine.execScRed sd sa s
  | .scAdd sd sa sb => Sys2Proof.Machine.execScAdd sd sa sb s
  | .scMul sd sa sb => Sys2Proof.Machine.execScMul sd sa sb s
  | .scMulAdd sd sa sb sc => Sys2Proof.Machine.execScMulAdd sd sa sb sc s
  | .scClamp sd sa => Sys2Proof.Machine.execScClamp sd sa s
  | .scLtl sa => Sys2Proof.Machine.execScLtl sa s
  | .ptDec pd addr => Sys2Proof.Machine.execPtDec pd addr s
  | .ptEnc pa addr => Sys2Proof.Machine.execPtEnc pa addr s
  | .ptId pd => Sys2Proof.Machine.execPtId pd s
  | .ptAdd pd pa pb => Sys2Proof.Machine.execPtAdd pd pa pb s
  | .ptDbl pd pa => Sys2Proof.Machine.execPtDbl pd pa s
  | .ptSmulb pd sa => Sys2Proof.Machine.execPtSmulb pd sa s
  | .ptSmul pd sa pb => Sys2Proof.Machine.execPtSmul pd sa pb s
  | .ptEq pa pb => Sys2Proof.Machine.execPtEq pa pb s
  | .ptGetx fd pa => Sys2Proof.Machine.execPtGetx fd pa s
  | .ptGety fd pa => Sys2Proof.Machine.execPtGety fd pa s
  | .ptFromxy pd fa fb => Sys2Proof.Machine.execPtFromxy pd fa fb s

end Sys2Proof.Machine
end

