-- ==== Sys2Proof/Machine/Step.lean ====
section
/-! DEFINITION. The instruction cycle (40_control.md R134) and the placing of an instruction for the next step. -/

namespace Sys2Proof.Machine

/-- One step of R134. The unit does nothing while STATE ≠ RUNNING. Otherwise, in the priority order of R256: a pending abort
is taken (R258); a pc outside IMEM raises E_FETCH (R79); a word that does not decode raises E_ILLEGAL (R111, R112); and the
decoded instruction makes its own checks and runs. -/
def step (s : State) : Host.Outcome State Fault Refusal :=
  if s.runState ≠ .running then .next s
  else if s.abrq then .next s.takeAbort
  else if s.params.imemWords ≤ s.pc.toNat then .next (s.raise .fetch 0 0)
  else
    match decode s.fetchWord with
    | .error _ => .next (s.raise .illegal s.fetchWord 0)
    | .ok i => exec i s

/-- s with the instruction word w at IMEM[pc] and the unit RUNNING with no abort requested, so that the next step
runs it. A pc outside IMEM becomes 0. This stands for the host's load and START (R295; log entry 5). -/
def State.withFetchWord (s : State) (nbits w : Nat) : State :=
  let pc : BitVec 16 := if s.params.imemWords ≤ s.pc.toNat then 0 else s.pc
  { s with
    pc := pc, runState := .running, abrq := false,
    imem := s.imem.write pc.toNat (BitVec.ofNat 32 (w % 2 ^ nbits)) }

end Sys2Proof.Machine
end

