-- ==== Sys2Proof/Machine/Assembler.lean ====
section
/-! DEFINITION. The assembler and the disassembler (30_encoding.md R120–R123): source text to instruction words, with the refusals of
R122 and the three pseudo-instructions of R123, and an instruction back to its base form. They are no part of the machine's step. -/

namespace Sys2Proof.Machine

/-! ## Operands and lines (R120, R121) -/

/-- An operand as written: a register with its file and index, a number (hex says it had the prefix 0x), or a label. -/
inductive AsmOperand where
  | freg (n : Nat)
  | sreg (n : Nat)
  | preg (n : Nat)
  | num (v : Int) (hex : Bool)
  | label (name : List Char)
deriving DecidableEq, Repr

/-- The three register files (R31–R33). -/
inductive RegFile where
  | f
  | s
  | p
deriving DecidableEq, Repr

/-- The register file an operand names; a number or a label names none. -/
def AsmOperand.file : AsmOperand → Option RegFile
  | .freg _ => some .f
  | .sreg _ => some .s
  | .preg _ => some .p
  | .num _ _ | .label _ => none

/-- A line: the label that stands at its start, and its instruction. -/
structure AsmLine where
  label : Option (List Char)
  instr : Option (List Char × List AsmOperand)
deriving DecidableEq, Repr

/-- Where the labels are: a name and the index of the next instruction (R120). -/
abbrev Labels := List (List Char × Nat)

/-! ## From operands to an instruction (R121–R123) -/

/-- A register index up to 15 (R122). -/
def regIndex (n : Nat) : Option (Fin 16) := if h : n < 16 then some ⟨n, h⟩ else none

/-- An operand of the F file; a register of another file is refused (R122). -/
def asF : AsmOperand → Option FReg
  | .freg n => regIndex n
  | _ => none

/-- An operand of the S file. -/
def asS : AsmOperand → Option SReg
  | .sreg n => regIndex n
  | _ => none

/-- An operand of the P file. -/
def asP : AsmOperand → Option PReg
  | .preg n => regIndex n
  | _ => none

/-- An address, immediate or code: a number that is not negative. Its upper bound is WellFormed's (R122). -/
def asNat : AsmOperand → Option Nat
  | .num v _ => if 0 ≤ v then some v.toNat else none
  | _ => none

/-- A branch operand at the instruction with this index (R121): a label gives index(label) − index(branch), a number is
off itself. A hexadecimal number from 0x8000 to 0xFFFF is the offset's 16-bit field, as in R131's example
`j 0xFFFD` (off = −3) (log entry 12). -/
def asOff (labels : Labels) (index : Nat) : AsmOperand → Option Int
  | .num v hex => some (if hex ∧ 0x8000 ≤ v ∧ v ≤ 0xFFFF then v - 0x10000 else v)
  | .label name => (labels.lookup name).map fun target => (target : Int) - (index : Int)
  | _ => none

/-- What reads an instruction's operands. -/
abbrev OperandReader := List AsmOperand → Option Instr

/-- The readers of a fixed number of operands, each operand by its own reader; any other number is refused (R122). -/
def ops0 (i : Instr) : OperandReader
  | [] => some i
  | _ => none

def ops1 {α : Type} (a : AsmOperand → Option α) (mk : α → Instr) : OperandReader
  | [x] => (a x).map mk
  | _ => none

def ops2 {α β : Type} (a : AsmOperand → Option α) (b : AsmOperand → Option β) (mk : α → β → Instr) : OperandReader
  | [x, y] => (a x).bind fun u => (b y).map (mk u)
  | _ => none

def ops3 {α β γ : Type} (a : AsmOperand → Option α) (b : AsmOperand → Option β) (c : AsmOperand → Option γ)
    (mk : α → β → γ → Instr) : OperandReader
  | [x, y, z] => (a x).bind fun u => (b y).bind fun v => (c z).map (mk u v)
  | _ => none

def ops4 {α β γ δ : Type} (a : AsmOperand → Option α) (b : AsmOperand → Option β) (c : AsmOperand → Option γ)
    (d : AsmOperand → Option δ) (mk : α → β → γ → δ → Instr) : OperandReader
  | [x, y, z, t] => (a x).bind fun u => (b y).bind fun v => (c z).bind fun w => (d t).map (mk u v w)
  | _ => none

/-- The mnemonics with their operands in the order of R121. -/
def asmControl (labels : Labels) (index : Nat) : List (String × OperandReader) :=
  [("halt", ops1 asNat .halt), ("j", ops1 (asOff labels index) .j), ("bc", ops1 (asOff labels index) .bc),
   ("bnc", ops1 (asOff labels index) .bnc)]

def asmField : List (String × OperandReader) :=
  [("fe.ld", ops2 asF asNat .feLd), ("fe.st", ops2 asF asNat .feSt), ("fe.ldi", ops2 asF asNat .feLdi),
   ("fe.mov", ops2 asF asF .feMov), ("fe.add", ops3 asF asF asF .feAdd), ("fe.sub", ops3 asF asF asF .feSub),
   ("fe.mul", ops3 asF asF asF .feMul), ("fe.sqr", ops2 asF asF .feSqr), ("fe.inv", ops2 asF asF .feInv),
   ("fe.neg", ops2 asF asF .feNeg), ("fe.eq", ops2 asF asF .feEq)]

def asmScalar : List (String × OperandReader) :=
  [("sc.ld", ops2 asS asNat .scLd), ("sc.st", ops2 asS asNat .scSt), ("sc.ldh", ops2 asS asNat .scLdh),
   ("sc.red", ops2 asS asS .scRed), ("sc.add", ops3 asS asS asS .scAdd), ("sc.mul", ops3 asS asS asS .scMul),
   ("sc.muladd", ops4 asS asS asS asS .scMulAdd), ("sc.clamp", ops2 asS asS .scClamp), ("sc.ltl", ops1 asS .scLtl)]

def asmPoint : List (String × OperandReader) :=
  [("pt.dec", ops2 asP asNat .ptDec), ("pt.enc", ops2 asP asNat .ptEnc), ("pt.id", ops1 asP .ptId),
   ("pt.add", ops3 asP asP asP .ptAdd), ("pt.dbl", ops2 asP asP .ptDbl), ("pt.smulb", ops2 asP asS .ptSmulb),
   ("pt.smul", ops3 asP asS asP .ptSmul), ("pt.eq", ops2 asP asP .ptEq), ("pt.getx", ops2 asF asP .ptGetx),
   ("pt.gety", ops2 asF asP .ptGety), ("pt.fromxy", ops3 asP asF asF .ptFromxy)]

/-- The pseudo-instructions and their expansions (R123). -/
def asmPseudo : List (String × OperandReader) :=
  [("nop", ops0 (.j 1)), ("fe.dbl", ops2 asF asF fun fd fa => .feAdd fd fa fa), ("fe.clr", ops1 asF fun fd => .feLdi fd 0)]

/-- Every mnemonic the assembler knows, each once. -/
def asmTable (labels : Labels) (index : Nat) : List (String × OperandReader) :=
  asmControl labels index ++ asmField ++ asmScalar ++ asmPoint ++ asmPseudo

/-- The instruction of a mnemonic and its operands in the order of R121, or what a pseudo-instruction stands for. -/
def instrOf (labels : Labels) (index : Nat) (mnemonic : String) (ops : List AsmOperand) : Option Instr :=
  ((asmTable labels index).lookup mnemonic).bind fun read => read ops

/-- The word of a line's instruction; a number that its field cannot hold is refused (R122). -/
def assembleInstr (labels : Labels) (index : Nat) (mnemonic : List Char) (ops : List AsmOperand) : Option Word :=
  match instrOf labels index (String.ofList mnemonic) ops with
  | some i => if i.wellFormed then some (encode i) else none
  | none => none

/-! ## Reading source text (R120; log entry 12) -/

def isBlank (c : Char) : Bool := c == ' ' || c == '\t' || c == '\r'

def trim (t : List Char) : List Char := ((t.dropWhile isBlank).reverse.dropWhile isBlank).reverse

/-- The parts of a text between the separators, at least one. -/
def splitAt (sep : Char) : List Char → List (List Char)
  | [] => [[]]
  | c :: cs =>
    match splitAt sep cs with
    | [] => [[]]
    | part :: parts => if c == sep then [] :: part :: parts else (c :: part) :: parts

def digitVal (base : Nat) (c : Char) : Option Nat :=
  let n := c.toNat
  let d := if 48 ≤ n ∧ n ≤ 57 then n - 48
    else if 97 ≤ n ∧ n ≤ 102 then n - 87
    else if 65 ≤ n ∧ n ≤ 70 then n - 55
    else base
  if d < base then some d else none

/-- The value of a nonempty digit string. -/
def digitsVal (base : Nat) : Nat → List Char → Option Nat
  | acc, [] => some acc
  | acc, c :: cs => (digitVal base c).bind fun d => digitsVal base (acc * base + d) cs

def numberOf (base : Nat) (t : List Char) : Option Nat := if t.isEmpty then none else digitsVal base 0 t

/-- A name: a letter or underscore, then letters, digits, underscores and dots. -/
def isName : List Char → Bool
  | [] => false
  | c :: cs => (c.isAlpha || c == '_') && cs.all fun d => d.isAlphanum || d == '_' || d == '.'

def labelOperand (t : List Char) : Option AsmOperand := if isName t then some (.label t) else none

/-- A register operand where the letter is followed by digits only, and a label otherwise. -/
def regOrLabel (mk : Nat → AsmOperand) (t digits : List Char) : Option AsmOperand :=
  match numberOf 10 digits with
  | some n => some (mk n)
  | none => labelOperand t

/-- One operand's text. R120 writes a number in decimal, or in hexadecimal with the prefix 0x, and names no sign. DESIGN CHOICE (log
entry 12): a minus sign may stand before a decimal number, so that a negative branch offset can be written; before a hexadecimal
number it is refused, and a plus sign is refused everywhere. -/
def operandOf (t : List Char) : Option AsmOperand :=
  match t with
  | '0' :: 'x' :: ds => (numberOf 16 ds).map fun n => .num n true
  | '-' :: ds => (numberOf 10 ds).map fun n => .num (-(n : Int)) false
  | 'f' :: ds => regOrLabel .freg t ds
  | 's' :: ds => regOrLabel .sreg t ds
  | 'p' :: ds => regOrLabel .preg t ds
  | _ =>
    match numberOf 10 t with
    | some n => some (.num n false)
    | none => labelOperand t

/-- Operands separated by commas; none where the text is empty. -/
def operandsOf (t : List Char) : Option (List AsmOperand) :=
  if t.isEmpty then some [] else (splitAt ',' t).mapM fun o => operandOf (trim o)

/-- A line without its comment and label: a mnemonic and its operands, or nothing. -/
def bodyOf (t : List Char) : Option (Option (List Char × List AsmOperand)) :=
  if t.isEmpty then some none
  else
    let mnemonic := t.takeWhile fun c => !isBlank c
    (operandsOf (trim (t.dropWhile fun c => !isBlank c))).map fun ops => some (mnemonic, ops)

/-- One line of source (R120). -/
def parseLine (line : List Char) : Option AsmLine :=
  let code := trim (line.takeWhile fun c => c != ';')
  match splitAt ':' code with
  | [body] => (bodyOf (trim body)).map fun b => ⟨none, b⟩
  | [name, body] => if isName (trim name) then (bodyOf (trim body)).map fun b => ⟨some (trim name), b⟩ else none
  | _ => none

/-- The labels of a program: each names the index of the next instruction (R120). DESIGN CHOICE (log entry 12): one name twice is
refused, and a label that no instruction follows, on which R120 is silent, gets the index one past the last instruction. -/
def labelsOf : Nat → List AsmLine → Option Labels
  | _, [] => some []
  | index, l :: ls =>
    (labelsOf (if l.instr.isSome then index + 1 else index) ls).bind fun rest =>
      match l.label with
      | none => some rest
      | some name => if (rest.lookup name).isSome then none else some ((name, index) :: rest)

/-- The words of a program's lines. -/
def assembleLines (labels : Labels) : Nat → List AsmLine → Option (List Word)
  | _, [] => some []
  | index, ⟨_, none⟩ :: ls => assembleLines labels index ls
  | index, ⟨_, some (mnemonic, ops)⟩ :: ls =>
    (assembleInstr labels index mnemonic ops).bind fun w =>
      (assembleLines labels (index + 1) ls).map fun ws => w :: ws

/-- Source text to words, from index 0 on. -/
def assemble (source : List Char) : Option (List Word) :=
  ((splitAt '\n' source).mapM parseLine).bind fun lines =>
    (labelsOf 0 lines).bind fun labels => assembleLines labels 0 lines

/-! ## Disassembly (R120, R121, R123: the base instruction, not a pseudo form) -/

/-- The operands of an instruction in the order of R121. -/
def asmOperands : Instr → List AsmOperand
  | .halt code => [.num code false]
  | .j off => [.num off false]
  | .bc off => [.num off false]
  | .bnc off => [.num off false]
  | .feLd fd addr => [.freg fd, .num addr false]
  | .feSt fa addr => [.freg fa, .num addr false]
  | .feLdi fd imm => [.freg fd, .num imm false]
  | .feMov fd fa => [.freg fd, .freg fa]
  | .feAdd fd fa fb => [.freg fd, .freg fa, .freg fb]
  | .feSub fd fa fb => [.freg fd, .freg fa, .freg fb]
  | .feMul fd fa fb => [.freg fd, .freg fa, .freg fb]
  | .feSqr fd fa => [.freg fd, .freg fa]
  | .feInv fd fa => [.freg fd, .freg fa]
  | .feNeg fd fa => [.freg fd, .freg fa]
  | .feEq fa fb => [.freg fa, .freg fb]
  | .scLd sd addr => [.sreg sd, .num addr false]
  | .scSt sa addr => [.sreg sa, .num addr false]
  | .scLdh sd addr => [.sreg sd, .num addr false]
  | .scRed sd sa => [.sreg sd, .sreg sa]
  | .scAdd sd sa sb => [.sreg sd, .sreg sa, .sreg sb]
  | .scMul sd sa sb => [.sreg sd, .sreg sa, .sreg sb]
  | .scMulAdd sd sa sb sc => [.sreg sd, .sreg sa, .sreg sb, .sreg sc]
  | .scClamp sd sa => [.sreg sd, .sreg sa]
  | .scLtl sa => [.sreg sa]
  | .ptDec pd addr => [.preg pd, .num addr false]
  | .ptEnc pa addr => [.preg pa, .num addr false]
  | .ptId pd => [.preg pd]
  | .ptAdd pd pa pb => [.preg pd, .preg pa, .preg pb]
  | .ptDbl pd pa => [.preg pd, .preg pa]
  | .ptSmulb pd sa => [.preg pd, .sreg sa]
  | .ptSmul pd sa pb => [.preg pd, .sreg sa, .preg pb]
  | .ptEq pa pb => [.preg pa, .preg pb]
  | .ptGetx fd pa => [.freg fd, .preg pa]
  | .ptGety fd pa => [.freg fd, .preg pa]
  | .ptFromxy pd fa fb => [.preg pd, .freg fa, .freg fb]

/-- An operand's source text: a number is written in decimal. -/
def AsmOperand.text : AsmOperand → String
  | .freg n => "f" ++ toString n
  | .sreg n => "s" ++ toString n
  | .preg n => "p" ++ toString n
  | .num v _ => toString v
  | .label name => String.ofList name

/-- The source line of an instruction. -/
def disassemble (i : Instr) : String :=
  let ops := (asmOperands i).map AsmOperand.text
  i.mnemonic ++ (if ops.isEmpty then "" else " ") ++ String.intercalate ", " ops

end Sys2Proof.Machine
end

