-- ==== Sys2Proof/Machine/Window.lean ====
section
/-! DEFINITION. The host's side: the register window (10_state.md R50–R66, 20_memory.md R75, R85–R87), the interrupt output
(60_exceptions.md R265), and the machine's events, in which the host's accesses and the resets fall between two steps (40_control.md
R134, 70_reset_and_hazards.md R293, R297). -/

namespace Sys2Proof.Machine

/-! ## The host registers -/

/-- STATE's two bits (R41). -/
def RunState.code : RunState → BitVec 2
  | .idle => 0
  | .running => 1
  | .halted => 2
  | .faulted => 3

/-- CAUSE's code (R251). -/
def Cause.code : Cause → BitVec 8
  | .noException => 0
  | .illegal => 1
  | .fetch => 2
  | .align => 3
  | .bus => 4
  | .uninit => 5
  | .decode => 6
  | .notOnCurve => 7
  | .abort => 8

/-- ID (R52). -/
def idWord : Word := 0xED250100

/-- STATUS (R55): [31:24] 0, [23:16] CAUSE, [15:8] RESULT, [7:4] 0, [3] HACC, [2] C, [1:0] STATE. -/
def State.statusWord (s : State) : Word :=
  0#8 ++ s.cause.code ++ s.result ++ 0#4 ++ BitVec.ofBool s.hacc ++ BitVec.ofBool s.c ++ s.runState.code

/-- CONFIG (R65): [12:8] log2(DMEM_BYTES), [4:0] log2(IMEM_WORDS), the rest 0. -/
def configWord (c : Params) : Word :=
  0#19 ++ BitVec.ofNat 5 c.dmemLog2 ++ 0#3 ++ BitVec.ofNat 5 c.imemLog2.val

/-- A 32-bit read of the host register at a word-aligned offset (R51). CTRL and every reserved offset read 0 (R53, R66). -/
def State.readHostReg (s : State) (off : Nat) : Word :=
  match off with
  | 0x00 => idWord
  | 0x08 => s.statusWord
  | 0x0C => s.entry.setWidth 32
  | 0x10 => s.pc.setWidth 32
  | 0x14 => s.finst
  | 0x18 => s.faddr.setWidth 32
  | 0x1C => (BitVec.ofBool s.irqEn).setWidth 32
  | 0x20 => (BitVec.ofBool s.irqPend).setWidth 32
  | 0x24 => configWord s.params
  | _ => 0

/-- A write of CTRL (R53): of SRESET (bit 2), ABORT (bit 1) and START (bit 0) only the first that is 1 acts. -/
def State.writeCtrl (s : State) (v : Word) : State :=
  if v.getLsbD 2 then s.softReset
  else if v.getLsbD 1 then (if s.runState = .running then { s with abrq := true } else s)
  else if v.getLsbD 0 then (if s.runState = .running then { s with hacc := true } else s.start)
  else s

/-- A 32-bit write of the host register at a word-aligned offset (R51). Read-only and reserved offsets ignore it (R66). -/
def State.writeHostReg (s : State) (off : Nat) (v : Word) : State :=
  match off with
  | 0x04 => s.writeCtrl v
  | 0x0C => { s with entry := v.setWidth 16 }
  | 0x1C => { s with irqEn := v.getLsbD 0 }
  | 0x20 => if v.getLsbD 0 then { s with irqPend := false } else s
  | _ => s

/-! ## The window -/

/-- The regions of the window (R85). -/
inductive Region where
  /-- The host registers, by offset. -/
  | hostReg (off : Nat)
  /-- The DMEM window, by DMEM byte address; an address at or above DMEM_BYTES is reserved. -/
  | dmem (a : Nat)
  /-- The IMEM window, by word index; an index at or above IMEM_WORDS is reserved. -/
  | imem (i : Nat)
  /-- Every other offset: reads 0, writes ignored. -/
  | reserved
deriving DecidableEq, Repr

/-- The map of R85, for a word-aligned offset. -/
def regionOf (off : BitVec 20) : Region :=
  let o := off.toNat
  if o < 0x100 then .hostReg o
  else if o < 0x10000 then .reserved
  else if o < 0x20000 then .dmem (o - 0x10000)
  else if o < 0x40000 then .reserved
  else if o < 0x80000 then .imem ((o - 0x40000) / 4)
  else .reserved

/-- A host access that acts: 32 bits wide (4 bytes) and naturally aligned (R86). Any other has no effect in any STATE: while RUNNING
it is not refused with HACC either, though R87 names every access to the two memory windows (log entry 14). -/
def accessActs (off : BitVec 20) (bytes : Nat) : Bool := bytes == 4 && off.toNat % 4 == 0

/-- The host's view of the DMEM bytes a to a+3 (R75). -/
def State.dmemWord (s : State) (a : Nat) : Word := BitVec.ofNat 32 (leInt (s.dmem.readBytes a 4))

/-- A host access to the DMEM or IMEM window while RUNNING is refused: HACC <- 1, nothing else (R87). -/
def State.refuseAccess (s : State) : State := { s with hacc := true }

/-- A host read at a window offset, of the given width in bytes: the value and the state after (R82, R85–R87). -/
def hostRead (off : BitVec 20) (bytes : Nat) (s : State) : Word × State :=
  if accessActs off bytes then
    match regionOf off with
    | .hostReg r => (s.readHostReg r, s)
    | .dmem a =>
      if s.runState = .running then (0, s.refuseAccess)
      else if a < s.params.dmemBytes then (s.dmemWord a, s)
      else (0, s)
    | .imem i =>
      if s.runState = .running then (0, s.refuseAccess)
      else if i < s.params.imemWords then (s.imem.read i, s)
      else (0, s)
    | .reserved => (0, s)
  else (0, s)

/-- A host write at a window offset, of the given width in bytes (R85–R87). Only a write of 4 bytes acts, so v has 32 bits. -/
def hostWrite (off : BitVec 20) (bytes : Nat) (v : Word) (s : State) : State :=
  if accessActs off bytes then
    match regionOf off with
    | .hostReg r => s.writeHostReg r v
    | .dmem a =>
      if s.runState = .running then s.refuseAccess
      else if a < s.params.dmemBytes then s.storeBytes a (leBytes 4 v.toNat)
      else s
    | .imem i =>
      if s.runState = .running then s.refuseAccess
      else if i < s.params.imemWords then { s with imem := s.imem.write i v }
      else s
    | .reserved => s
  else s

/-- The level of the interrupt output (R265). -/
def State.irq (s : State) : Bool := s.irqEn && s.irqPend

/-! ## Events -/

/-- What can happen to the machine, one at a time (R134, R293, R297): the unit's step, a host access, a hardware reset. -/
inductive Event where
  | unitStep
  | read (off : BitVec 20) (bytes : Nat)
  | write (off : BitVec 20) (bytes : Nat) (v : Word)
  | hardwareReset
deriving DecidableEq, Repr

/-- The state after one event. -/
def event (e : Event) (s : State) : Step :=
  match e with
  | .unitStep => step s
  | .read off bytes => .next (hostRead off bytes s).2
  | .write off bytes v => .next (hostWrite off bytes v s)
  | .hardwareReset => .next s.hardwareReset

/-- The state after a list of events, the first one first. Every interleaving of steps and host accesses is such a list (R310). -/
def runEvents : List Event → State → Step
  | [], s => .next s
  | e :: es, s =>
    match event e s with
    | .next t => runEvents es t
    | .fault r => .fault r
    | .refused r => .refused r

/-! ## Endless runs and weak fairness (R310) -/

/-- What happens when, in a run without end: any interleaving of steps, host accesses and resets. -/
abbrev Schedule := Nat → Event

/-- The state after the first n events of a schedule. -/
def stateAt (sched : Schedule) (s : State) : Nat → Step
  | 0 => .next s
  | n + 1 =>
    match stateAt sched s n with
    | .next t => event (sched n) t
    | .fault r => .fault r
    | .refused r => .refused r

/-- STATE = RUNNING after the first n events. -/
def RunningAt (sched : Schedule) (s : State) (n : Nat) : Prop :=
  ∃ t, stateAt sched s n = .next t ∧ t.runState = .running

/-- Weak fairness, which R310 has a model assume: while STATE = RUNNING a step eventually happens. Host accesses fall between the
steps in any order. A claim that something happens in the end takes this as its premise; a claim about one event, or about
what never happens, needs none. -/
def WeaklyFair (sched : Schedule) (s : State) : Prop :=
  ∀ n, (∀ m, n ≤ m → RunningAt sched s m) → ∃ m, n ≤ m ∧ sched m = .unitStep

end Sys2Proof.Machine
end

