-- ==== Sys2Proof/Safety.lean ====
section
/-! DEFINITION. What the statements say of states and runs: the invariant of the machine, when two states differ only where no
instruction can look, and which DMEM bytes an instruction names. -/

namespace Sys2Proof.Machine

/-! ## The invariant -/

/-- Both memories have the canonical form and list no cell outside IMEM_WORDS and DMEM_BYTES (R70, R71). -/
abbrev State.MemoriesWf (s : State) : Prop :=
  s.imem.wf s.params.imemWords = true ∧ s.dmem.wf s.params.dmemBytes = true

/-- Every point register holds a point of the curve (R33). -/
abbrev State.PointsOnCurve (s : State) : Prop := ∀ r : PReg, OnCurve s.p[r].val

/-- The invariant: what holds in every state a run reaches. -/
structure State.Inv (s : State) : Prop where
  memories : s.MemoriesWf
  points : s.PointsOnCurve

/-! ## What can be observed of the registers (R34) -/

/-- Two register files that agree in every valid bit and in the value of every valid register. -/
def SameWhereValid {α : Type} (a b : Vector (Reg α) 16) : Prop :=
  ∀ r : Fin 16, a[r].valid = b[r].valid ∧ (a[r].valid = true → a[r].val = b[r].val)

/-- Two states that differ at most in the values of registers whose valid bit is 0. -/
def State.SameObservable (s t : State) : Prop :=
  SameWhereValid s.f t.f ∧ SameWhereValid s.s t.s ∧ SameWhereValid s.p t.p ∧
    t = { s with f := t.f, s := t.s, p := t.p }

/-! ## The DMEM operand of an instruction (R72, R78) -/

/-- Address and size of the DMEM operand an instruction reads. It is fixed by the instruction word (R311). -/
def reads : Instr → Option (Nat × Nat)
  | .feLd _ addr | .scLd _ addr | .ptDec _ addr => some (addr, 32)
  | .scLdh _ addr => some (addr, 64)
  | .halt _ | .j _ | .bc _ | .bnc _ | .feSt _ _ | .feLdi _ _ | .feMov _ _ | .feAdd _ _ _ | .feSub _ _ _ | .feMul _ _ _
  | .feSqr _ _ | .feInv _ _ | .feNeg _ _ | .feEq _ _ | .scSt _ _ | .scRed _ _ | .scAdd _ _ _ | .scMul _ _ _
  | .scMulAdd _ _ _ _ | .scClamp _ _ | .scLtl _ | .ptEnc _ _ | .ptId _ | .ptAdd _ _ _ | .ptDbl _ _ | .ptSmulb _ _
  | .ptSmul _ _ _ | .ptEq _ _ | .ptGetx _ _ | .ptGety _ _ | .ptFromxy _ _ _ => none

/-- Address and size of the DMEM operand an instruction stores to. It is fixed by the instruction word (R311). -/
def stores : Instr → Option (Nat × Nat)
  | .feSt _ addr | .scSt _ addr | .ptEnc _ addr => some (addr, 32)
  | .halt _ | .j _ | .bc _ | .bnc _ | .feLd _ _ | .feLdi _ _ | .feMov _ _ | .feAdd _ _ _ | .feSub _ _ _ | .feMul _ _ _
  | .feSqr _ _ | .feInv _ _ | .feNeg _ _ | .feEq _ _ | .scLd _ _ | .scLdh _ _ | .scRed _ _ | .scAdd _ _ _ | .scMul _ _ _
  | .scMulAdd _ _ _ _ | .scClamp _ _ | .scLtl _ | .ptDec _ _ | .ptId _ | .ptAdd _ _ _ | .ptDbl _ _ | .ptSmulb _ _
  | .ptSmul _ _ _ | .ptEq _ _ | .ptGetx _ _ | .ptGety _ _ | .ptFromxy _ _ _ => none

/-- An n-byte access at addr passes the checks of R76 and R77. -/
abbrev State.accessOk (s : State) (addr n : Nat) : Prop := addr % 32 = 0 ∧ addr + n ≤ s.params.dmemBytes

/-! ## The destination register of an instruction (R102, R103, R110) -/

/-- The field register an instruction writes. -/
def destF : Instr → Option FReg
  | .feLd fd _ => some fd
  | .feLdi fd _ => some fd
  | .feMov fd _ => some fd
  | .feAdd fd _ _ => some fd
  | .feSub fd _ _ => some fd
  | .feMul fd _ _ => some fd
  | .feSqr fd _ => some fd
  | .feInv fd _ => some fd
  | .feNeg fd _ => some fd
  | .ptGetx fd _ => some fd
  | .ptGety fd _ => some fd
  | .halt _ | .j _ | .bc _ | .bnc _ | .feSt _ _ | .feEq _ _ | .scLd _ _ | .scSt _ _ | .scLdh _ _ | .scRed _ _
  | .scAdd _ _ _ | .scMul _ _ _ | .scMulAdd _ _ _ _ | .scClamp _ _ | .scLtl _ | .ptDec _ _ | .ptEnc _ _ | .ptId _
  | .ptAdd _ _ _ | .ptDbl _ _ | .ptSmulb _ _ | .ptSmul _ _ _ | .ptEq _ _ | .ptFromxy _ _ _ => none

/-- The scalar register an instruction writes. -/
def destS : Instr → Option SReg
  | .scLd sd _ => some sd
  | .scLdh sd _ => some sd
  | .scRed sd _ => some sd
  | .scAdd sd _ _ => some sd
  | .scMul sd _ _ => some sd
  | .scMulAdd sd _ _ _ => some sd
  | .scClamp sd _ => some sd
  | .halt _ | .j _ | .bc _ | .bnc _ | .feLd _ _ | .feSt _ _ | .feLdi _ _ | .feMov _ _ | .feAdd _ _ _ | .feSub _ _ _
  | .feMul _ _ _ | .feSqr _ _ | .feInv _ _ | .feNeg _ _ | .feEq _ _ | .scSt _ _ | .scLtl _ | .ptDec _ _ | .ptEnc _ _
  | .ptId _ | .ptAdd _ _ _ | .ptDbl _ _ | .ptSmulb _ _ | .ptSmul _ _ _ | .ptEq _ _ | .ptGetx _ _ | .ptGety _ _
  | .ptFromxy _ _ _ => none

/-- The point register an instruction writes. -/
def destP : Instr → Option PReg
  | .ptDec pd _ => some pd
  | .ptId pd => some pd
  | .ptAdd pd _ _ => some pd
  | .ptDbl pd _ => some pd
  | .ptSmulb pd _ => some pd
  | .ptSmul pd _ _ => some pd
  | .ptFromxy pd _ _ => some pd
  | .halt _ | .j _ | .bc _ | .bnc _ | .feLd _ _ | .feSt _ _ | .feLdi _ _ | .feMov _ _ | .feAdd _ _ _ | .feSub _ _ _
  | .feMul _ _ _ | .feSqr _ _ | .feInv _ _ | .feNeg _ _ | .feEq _ _ | .scLd _ _ | .scSt _ _ | .scLdh _ _ | .scRed _ _
  | .scAdd _ _ _ | .scMul _ _ _ | .scMulAdd _ _ _ _ | .scClamp _ _ | .scLtl _ | .ptEnc _ _ | .ptEq _ _ | .ptGetx _ _
  | .ptGety _ _ => none

/-! ## What the statements compare with -/

/-- The state an exception leaves (R255), written out: the cause, the word of the instruction and the data address are
recorded, the unit is FAULTED and DONE is pending. Everything else is as before, the pc too. -/
def State.afterTrap (s : State) (c : Cause) (i : Instr) (addr : Nat) : State :=
  { s with cause := c, finst := encode i, faddr := BitVec.ofNat 16 addr, runState := .faulted, irqPend := true }

/-- The little-endian value of the n bytes of DMEM from a on, as the sum of R8 and R73. -/
def State.dmemValue (s : State) (a n : Nat) : Nat := ∑ k ∈ Finset.range n, (s.dmem.read (a + k)).toNat * 2 ^ (8 * k)

/-- The word with these fields in format R, as a number (R102, R103). -/
def wordR (op : Nat) (rd ra rb rc : Fin 16) : Nat :=
  op * 2 ^ 24 + rd.val * 2 ^ 20 + ra.val * 2 ^ 16 + rb.val * 2 ^ 12 + rc.val * 2 ^ 8

/-- The word with these fields in formats M and I, as a number (R102, R104, R105). -/
def wordM (op : Nat) (r : Fin 16) (n : Nat) : Nat := op * 2 ^ 24 + r.val * 2 ^ 20 + n

/-- How a data access stops its instruction: E_ALIGN, else E_BUS (R76, R77). -/
def AccessTraps (i : Instr) (addr n : Nat) (s : State) : Prop :=
  (addr % 32 ≠ 0 → exec i s = .next (s.afterTrap .align i addr)) ∧
  (addr % 32 = 0 → s.params.dmemBytes < addr + n → exec i s = .next (s.afterTrap .bus i addr))

/-- The table of R290 for a reset that takes s to t, but for the memories (R291): every valid bit 0, and each other piece of
state at its reset value. Nothing is said of the register values, which R290 leaves unspecified. -/
def ResetTable (s t : State) : Prop :=
  t.params = s.params ∧
  (∀ r : Fin 16, t.f[r].valid = false ∧ t.s[r].valid = false ∧ t.p[r].valid = false) ∧
  t.pc = 0 ∧ t.c = false ∧ t.runState = .idle ∧ t.abrq = false ∧ t.entry = 0 ∧ t.result = 0 ∧ t.cause = .noException ∧
  t.finst = 0 ∧ t.faddr = 0 ∧ t.hacc = false ∧ t.irqEn = false ∧ t.irqPend = false

/-- The state an accepted START leaves (R53, R299), written out. -/
def State.afterStart (s : State) : State :=
  { s with
    pc := s.entry, c := false, result := 0, cause := .noException, finst := 0, faddr := 0, hacc := false, abrq := false,
    runState := .running }

end Sys2Proof.Machine
end

