-- ==== Sys2Proof/Certificates/Slice0/Obligations.lean ====
section
/-! DEFINITION. The statements for the provers. Each docstring names the rule of spec/ that the statement formalises. Where a statement
says `exec i s = .next { s with … }`, everything that the record does not name is unchanged: every register, flag and host register, and
every byte of both memories. -/

open Sys2Proof Sys2Proof.Machine

/-! ## Encoding (30_encoding.md) -/

/-- Decoding the word of a well-formed instruction gives the instruction, with every operand (R111, R122). -/
def Obligations.DecodeOfEncodeIsTheInstruction : Prop :=
  ∀ i : Instr, i.WellFormed → decode (encode i) = .ok i

/-- A word that decodes is the word of the instruction it decodes to, and that instruction is well-formed: each instruction has one
word, so no bit of a word is ignored (R111). -/
def Obligations.EncodeOfDecodeIsTheWord : Prop :=
  ∀ (w : Word) (i : Instr), decode w = .ok i → encode i = w ∧ i.WellFormed

/-- R111: a word decodes exactly when (w AND mask) = match for a row of the table, which is the row of the instruction it decodes to;
no two rows match one word; a word with an assigned opcode that matches no row has a nonzero must-be-zero bit and is rejected
for it. -/
def Obligations.WordDecodesExactlyWhenARowMatches : Prop :=
  opcodeTable.length = 35 ∧
  (∀ w : Word, (∃ i, decode w = .ok i) ↔ ∃ row ∈ opcodeTable, w &&& row.mask = row.pattern) ∧
  (∀ (w : Word) (i : Instr), decode w = .ok i →
    ∃ row ∈ opcodeTable, row.mnemonic = i.mnemonic ∧ w &&& row.mask = row.pattern) ∧
  (∀ w : Word, ∀ row ∈ opcodeTable, ∀ row' ∈ opcodeTable,
    w &&& row.mask = row.pattern → w &&& row'.mask = row'.pattern → row = row') ∧
  (∀ w : Word, (decode w = .error .reservedBits ↔
    (∃ row ∈ opcodeTable, opField w = opField row.pattern) ∧ ¬∃ row ∈ opcodeTable, w &&& row.mask = row.pattern))

/-- R112: the opcodes 0x00, 0x05–0x0F, 0x1B–0x1F, 0x29–0x2F and 0x3B–0xFF are unassigned, and a step that fetches a word with one of
them, or any other word that does not decode, raises E_ILLEGAL with the word in FINST. -/
def Obligations.WordsThatDoNotDecodeRaiseIllegal : Prop :=
  (∀ w : Word,
    let op := w.toNat / 2 ^ 24
    (op = 0 ∨ (0x05 ≤ op ∧ op ≤ 0x0F) ∨ (0x1B ≤ op ∧ op ≤ 0x1F) ∨ (0x29 ≤ op ∧ op ≤ 0x2F) ∨ 0x3B ≤ op) ↔
      decode w = .error .unassignedOpcode) ∧
  (∀ (s : State) (e : DecodeError), s.runState = .running → s.abrq = false → s.pc.toNat < s.params.imemWords →
    decode (s.imem.read s.pc.toNat) = .error e →
    step s = .next { s with
      cause := .illegal, finst := s.imem.read s.pc.toNat, faddr := 0, runState := .faulted, irqPend := true })

/-- Words written out in 40_control.md to 43_point.md and 95_test_vectors.md decode to the instructions they stand for (a sanity
statement). -/
def Obligations.SpecWordsDecodeAsWritten : Prop :=
  decode 0x01000001 = .ok (.halt 1) ∧ decode 0x0200FFFD = .ok (.j (-3)) ∧ decode 0x03000004 = .ok (.bc 4) ∧
  decode 0x14123000 = .ok (.feAdd 1 2 3) ∧ decode 0x1A012000 = .ok (.feEq 1 2) ∧ decode 0x11100021 = .ok (.feSt 1 0x21) ∧
  decode 0x26423100 = .ok (.scMulAdd 4 2 3 1) ∧ decode 0x28050000 = .ok (.scLtl 5) ∧
  decode 0x32300000 = .ok (.ptId 3) ∧ decode 0x36211000 = .ok (.ptSmul 2 1 1) ∧
  decode 0x14123001 = .error .reservedBits ∧ decode 0x00000000 = .error .unassignedOpcode ∧
  decode 0xFFFFFFFF = .error .unassignedOpcode

/-! ## Control instructions (40_control.md) -/

/-- HALT (R130): RESULT is the code, the unit is HALTED, DONE is pending, the pc stays, nothing else changes. -/
def Obligations.HaltStopsWithItsCode : Prop :=
  ∀ (code : Nat) (s : State),
    (code < 256 → (encode (.halt code)).toNat = 0x01 * 2 ^ 24 + code) ∧
    exec (.halt code) s = .next { s with result := BitVec.ofNat 8 code, runState := .halted, irqPend := true }

/-- J, BC and BNC (R131, R132, R133, R135): the pc becomes (pc + off) mod 2^16 where the branch is taken and (pc + 1) mod 2^16
where it is not; nothing else changes. -/
def Obligations.BranchesSetOnlyThePc : Prop :=
  ∀ (off : Int) (s : State),
    (-32768 ≤ off → off ≤ 32767 →
      (encode (.j off)).toNat = 0x02 * 2 ^ 24 + (off % 65536).toNat ∧
      (encode (.bc off)).toNat = 0x03 * 2 ^ 24 + (off % 65536).toNat ∧
      (encode (.bnc off)).toNat = 0x04 * 2 ^ 24 + (off % 65536).toNat) ∧
    ∃ target : BitVec 16, (target.toNat : Int) = ((s.pc.toNat : Int) + off) % 65536 ∧
      exec (.j off) s = .next { s with pc := target } ∧
      exec (.bc off) s = .next { s with pc := if s.c = true then target else s.pc + 1 } ∧
      exec (.bnc off) s = .next { s with pc := if s.c = false then target else s.pc + 1 }

/-! ## Field instructions (41_field.md) -/

/-- FE.LD (R151): the 32-byte little-endian value, all 256 bits, mod p; E_ALIGN and E_BUS. -/
def Obligations.FeLdReducesTheLoadedValue : Prop :=
  ∀ (fd : FReg) (addr : Nat) (s : State),
    (addr < 65536 → (encode (.feLd fd addr)).toNat = wordM 0x10 fd addr) ∧
    (s.accessOk addr 32 → ∃ v : Fe, v.val = s.dmemValue addr 32 % p ∧
      exec (.feLd fd addr) s = .next { s with f := s.f.set fd ⟨v, true⟩, pc := s.pc + 1 }) ∧
    AccessTraps (.feLd fd addr) addr 32 s

/-- FE.ST (R152): E_UNINIT, E_ALIGN, E_BUS in that order; else exactly the 32 bytes from addr on hold the canonical value,
little-endian, with bit 7 of byte 31 zero. -/
def Obligations.FeStStoresTheCanonicalBytes : Prop :=
  ∀ (fa : FReg) (addr : Nat) (s : State),
    (addr < 65536 → (encode (.feSt fa addr)).toNat = wordM 0x11 fa addr) ∧
    (s.f[fa].valid = false → exec (.feSt fa addr) s = .next (s.afterTrap .uninit (.feSt fa addr) 0)) ∧
    (s.f[fa].valid = true → AccessTraps (.feSt fa addr) addr 32 s) ∧
    (s.f[fa].valid = true → s.accessOk addr 32 → ∃ m : Mem 8,
      exec (.feSt fa addr) s = .next { s with dmem := m, pc := s.pc + 1 } ∧
      (∀ k < 32, (m.read (addr + k)).toNat = s.f[fa].val.val / 2 ^ (8 * k) % 256) ∧
      (m.read (addr + 31)).getLsbD 7 = false ∧
      ∀ a, (a < addr ∨ addr + 32 ≤ a) → m.read a = s.dmem.read a)

/-- FE.LDI and FE.MOV (R153, R154). -/
def Obligations.FeLdiAndMovWriteTheirSource : Prop :=
  (∀ (fd : FReg) (imm : Nat) (s : State), imm < 65536 →
    (encode (.feLdi fd imm)).toNat = wordM 0x12 fd imm ∧
    ∃ v : Fe, v.val = imm ∧ exec (.feLdi fd imm) s = .next { s with f := s.f.set fd ⟨v, true⟩, pc := s.pc + 1 }) ∧
  (∀ (fd fa : FReg) (s : State),
    (encode (.feMov fd fa)).toNat = wordR 0x13 fd fa 0 0 ∧
    (s.f[fa].valid = true →
      exec (.feMov fd fa) s = .next { s with f := s.f.set fd ⟨s.f[fa].val, true⟩, pc := s.pc + 1 }) ∧
    (s.f[fa].valid = false → exec (.feMov fd fa) s = .next (s.afterTrap .uninit (.feMov fd fa) 0)))

/-- A field instruction with two sources computes g of their values, as an integer in [0, p). -/
def FeBinaryMeans (mk : FReg → FReg → FReg → Instr) (op : Nat) (g : Int → Int → Int) : Prop :=
  ∀ (fd fa fb : FReg) (s : State),
    (encode (mk fd fa fb)).toNat = wordR op fd fa fb 0 ∧
    (s.f[fa].valid = true → s.f[fb].valid = true → ∃ v : Fe, (v.val : Int) = g s.f[fa].val.val s.f[fb].val.val ∧
      exec (mk fd fa fb) s = .next { s with f := s.f.set fd ⟨v, true⟩, pc := s.pc + 1 }) ∧
    (s.f[fa].valid = false ∨ s.f[fb].valid = false →
      exec (mk fd fa fb) s = .next (s.afterTrap .uninit (mk fd fa fb) 0))

/-- FE.ADD, FE.SUB and FE.MUL (R155, R156, R157): the exact result mod p; the sources are read before the destination is written;
E_UNINIT where a source is not valid. -/
def Obligations.FeAddSubMulAreExactModP : Prop :=
  FeBinaryMeans .feAdd 0x14 (fun a b => (a + b) % p) ∧
  FeBinaryMeans .feSub 0x15 (fun a b => (a - b) % p) ∧
  FeBinaryMeans .feMul 0x16 (fun a b => a * b % p)

/-- A field instruction with one source computes g of its value, as an integer in [0, p). -/
def FeUnaryMeans (mk : FReg → FReg → Instr) (op : Nat) (g : Int → Int) : Prop :=
  ∀ (fd fa : FReg) (s : State),
    (encode (mk fd fa)).toNat = wordR op fd fa 0 0 ∧
    (s.f[fa].valid = true → ∃ v : Fe, (v.val : Int) = g s.f[fa].val.val ∧
      exec (mk fd fa) s = .next { s with f := s.f.set fd ⟨v, true⟩, pc := s.pc + 1 }) ∧
    (s.f[fa].valid = false → exec (mk fd fa) s = .next (s.afterTrap .uninit (mk fd fa) 0))

/-- FE.SQR, FE.INV and FE.NEG (R158, R159, R160). FE.INV computes a^(p−2) mod p, so 0 gives 0, and there is no exception for 0. -/
def Obligations.FeSqrInvNegAreExactModP : Prop :=
  FeUnaryMeans .feSqr 0x17 (fun a => a * a % p) ∧
  FeUnaryMeans .feInv 0x18 (fun a => a ^ (p - 2) % p) ∧
  FeUnaryMeans .feNeg 0x19 (fun a => (0 - a) % p)

/-- FE.EQ (R161): C is 1 exactly when the two values are equal; where it raises E_UNINIT, C is unchanged. -/
def Obligations.FeEqSetsCToEquality : Prop :=
  ∀ (fa fb : FReg) (s : State),
    (encode (.feEq fa fb)).toNat = wordR 0x1A 0 fa fb 0 ∧
    (s.f[fa].valid = true → s.f[fb].valid = true → ∃ b : Bool, (b = true ↔ s.f[fa].val.val = s.f[fb].val.val) ∧
      exec (.feEq fa fb) s = .next { s with c := b, pc := s.pc + 1 }) ∧
    (s.f[fa].valid = false ∨ s.f[fb].valid = false →
      exec (.feEq fa fb) s = .next (s.afterTrap .uninit (.feEq fa fb) 0))

/-! ## Scalar instructions (42_scalar.md) -/

/-- SC.LD and SC.LDH (R182, R184): 32 bytes raw, 64 bytes mod L; E_ALIGN and E_BUS, with 32-byte alignment for both. -/
def Obligations.ScLoadsReadRawOrReducedValues : Prop :=
  ∀ (sd : SReg) (addr : Nat) (s : State),
    (addr < 65536 → (encode (.scLd sd addr)).toNat = wordM 0x20 sd addr ∧
      (encode (.scLdh sd addr)).toNat = wordM 0x22 sd addr) ∧
    (s.accessOk addr 32 → ∃ v : Scalar, v.toNat = s.dmemValue addr 32 ∧
      exec (.scLd sd addr) s = .next { s with s := s.s.set sd ⟨v, true⟩, pc := s.pc + 1 }) ∧
    (s.accessOk addr 64 → ∃ v : Scalar, v.toNat = s.dmemValue addr 64 % groupOrder ∧
      exec (.scLdh sd addr) s = .next { s with s := s.s.set sd ⟨v, true⟩, pc := s.pc + 1 }) ∧
    AccessTraps (.scLd sd addr) addr 32 s ∧ AccessTraps (.scLdh sd addr) addr 64 s

/-- SC.ST (R183): E_UNINIT, E_ALIGN, E_BUS in that order; else exactly the 32 bytes from addr on hold all 256 bits. -/
def Obligations.ScStStoresTheRawBytes : Prop :=
  ∀ (sa : SReg) (addr : Nat) (s : State),
    (addr < 65536 → (encode (.scSt sa addr)).toNat = wordM 0x21 sa addr) ∧
    (s.s[sa].valid = false → exec (.scSt sa addr) s = .next (s.afterTrap .uninit (.scSt sa addr) 0)) ∧
    (s.s[sa].valid = true → AccessTraps (.scSt sa addr) addr 32 s) ∧
    (s.s[sa].valid = true → s.accessOk addr 32 → ∃ m : Mem 8,
      exec (.scSt sa addr) s = .next { s with dmem := m, pc := s.pc + 1 } ∧
      (∀ k < 32, (m.read (addr + k)).toNat = s.s[sa].val.toNat / 2 ^ (8 * k) % 256) ∧
      ∀ a, (a < addr ∨ addr + 32 ≤ a) → m.read a = s.dmem.read a)

/-- A scalar instruction with two sources computes g of their values, mod L. -/
def ScBinaryMeans (mk : SReg → SReg → SReg → Instr) (op : Nat) (g : Nat → Nat → Nat) : Prop :=
  ∀ (sd sa sb : SReg) (s : State),
    (encode (mk sd sa sb)).toNat = wordR op sd sa sb 0 ∧
    (s.s[sa].valid = true → s.s[sb].valid = true →
      ∃ v : Scalar, v.toNat = g s.s[sa].val.toNat s.s[sb].val.toNat % groupOrder ∧
      exec (mk sd sa sb) s = .next { s with s := s.s.set sd ⟨v, true⟩, pc := s.pc + 1 }) ∧
    (s.s[sa].valid = false ∨ s.s[sb].valid = false →
      exec (mk sd sa sb) s = .next (s.afterTrap .uninit (mk sd sa sb) 0))

/-- SC.RED, SC.ADD, SC.MUL and SC.MULADD (R185–R188): the least residue mod L of the exact result, for any 256-bit inputs; E_UNINIT
where a source is not valid. -/
def Obligations.ScArithmeticIsExactModL : Prop :=
  ScBinaryMeans .scAdd 0x24 (fun a b => a + b) ∧
  ScBinaryMeans .scMul 0x25 (fun a b => a * b) ∧
  (∀ (sd sa : SReg) (s : State),
    (encode (.scRed sd sa)).toNat = wordR 0x23 sd sa 0 0 ∧
    (s.s[sa].valid = true → ∃ v : Scalar, v.toNat = s.s[sa].val.toNat % groupOrder ∧
      exec (.scRed sd sa) s = .next { s with s := s.s.set sd ⟨v, true⟩, pc := s.pc + 1 }) ∧
    (s.s[sa].valid = false → exec (.scRed sd sa) s = .next (s.afterTrap .uninit (.scRed sd sa) 0))) ∧
  (∀ (sd sa sb sc : SReg) (s : State),
    (encode (.scMulAdd sd sa sb sc)).toNat = wordR 0x26 sd sa sb sc ∧
    (s.s[sa].valid = true → s.s[sb].valid = true → s.s[sc].valid = true → ∃ v : Scalar,
      v.toNat = (s.s[sa].val.toNat * s.s[sb].val.toNat + s.s[sc].val.toNat) % groupOrder ∧
      exec (.scMulAdd sd sa sb sc) s = .next { s with s := s.s.set sd ⟨v, true⟩, pc := s.pc + 1 }) ∧
    (s.s[sa].valid = false ∨ s.s[sb].valid = false ∨ s.s[sc].valid = false →
      exec (.scMulAdd sd sa sb sc) s = .next (s.afterTrap .uninit (.scMulAdd sd sa sb sc) 0)))

/-- SC.CLAMP (R189, R24): bits 0, 1, 2 and 255 are cleared, bit 254 is set, every other bit is the source's; so the result lies in
[2^254, 2^255) and is a multiple of 8. -/
def Obligations.ScClampSetsTheFiveBits : Prop :=
  ∀ (sd sa : SReg) (s : State),
    (encode (.scClamp sd sa)).toNat = wordR 0x27 sd sa 0 0 ∧
    (s.s[sa].valid = true → ∃ v : Scalar,
      (∀ k < 256, v.getLsbD k = if k < 3 ∨ k = 255 then false else if k = 254 then true else s.s[sa].val.getLsbD k) ∧
      2 ^ 254 ≤ v.toNat ∧ v.toNat < 2 ^ 255 ∧ v.toNat % 8 = 0 ∧ clamp v = v ∧
      exec (.scClamp sd sa) s = .next { s with s := s.s.set sd ⟨v, true⟩, pc := s.pc + 1 }) ∧
    (s.s[sa].valid = false → exec (.scClamp sd sa) s = .next (s.afterTrap .uninit (.scClamp sd sa) 0))

/-- SC.LTL (R190): C is 1 exactly when the raw value is below L; where it raises E_UNINIT, C is unchanged. -/
def Obligations.ScLtlTestsCanonicity : Prop :=
  ∀ (sa : SReg) (s : State),
    (encode (.scLtl sa)).toNat = wordR 0x28 0 sa 0 0 ∧
    (s.s[sa].valid = true → ∃ b : Bool, (b = true ↔ s.s[sa].val.toNat < groupOrder) ∧
      exec (.scLtl sa) s = .next { s with c := b, pc := s.pc + 1 }) ∧
    (s.s[sa].valid = false → exec (.scLtl sa) s = .next (s.afterTrap .uninit (.scLtl sa) 0))

/-! ## Point instructions (43_point.md) -/

/-- PT.DEC (R211): the decoded point, or E_DECODE with the address where no point encodes to the bytes, and then nothing is written;
E_ALIGN and E_BUS first. What dec is, DecodingInvertsEncoding says. -/
def Obligations.PtDecWritesTheDecodedPointOrTraps : Prop :=
  ∀ (pd : PReg) (addr : Nat) (s : State),
    (addr < 65536 → (encode (.ptDec pd addr)).toNat = wordM 0x30 pd addr) ∧
    (s.accessOk addr 32 → ∀ b : List Byte, b.length = 32 → leInt b = s.dmemValue addr 32 →
      (∀ q, dec b = some q →
        exec (.ptDec pd addr) s = .next { s with p := s.p.set pd ⟨q, true⟩, pc := s.pc + 1 }) ∧
      (dec b = none → exec (.ptDec pd addr) s = .next (s.afterTrap .decode (.ptDec pd addr) addr))) ∧
    AccessTraps (.ptDec pd addr) addr 32 s

/-- PT.ENC (R212): E_UNINIT, E_ALIGN, E_BUS in that order; else exactly the 32 bytes from addr on hold y + sign(x)·2^255,
little-endian. -/
def Obligations.PtEncStoresTheEncoding : Prop :=
  ∀ (pa : PReg) (addr : Nat) (s : State),
    (addr < 65536 → (encode (.ptEnc pa addr)).toNat = wordM 0x31 pa addr) ∧
    (s.p[pa].valid = false → exec (.ptEnc pa addr) s = .next (s.afterTrap .uninit (.ptEnc pa addr) 0)) ∧
    (s.p[pa].valid = true → AccessTraps (.ptEnc pa addr) addr 32 s) ∧
    (s.p[pa].valid = true → s.accessOk addr 32 → ∃ m : Mem 8,
      exec (.ptEnc pa addr) s = .next { s with dmem := m, pc := s.pc + 1 } ∧
      (∀ k < 32, (m.read (addr + k)).toNat =
        (s.p[pa].val.y.val + s.p[pa].val.x.val % 2 * 2 ^ 255) / 2 ^ (8 * k) % 256) ∧
      ∀ a, (a < addr ∨ addr + 32 ≤ a) → m.read a = s.dmem.read a)

/-- PT.ID, PT.ADD and PT.DBL (R213, R214, R215). What padd is, AdditionLawIsComplete says. -/
def Obligations.PtIdAddDblWriteTheSum : Prop :=
  (∀ (pd : PReg) (s : State),
    (encode (.ptId pd)).toNat = wordR 0x32 pd 0 0 0 ∧
    ∃ o : Point, o.x.val = 0 ∧ o.y.val = 1 ∧
      exec (.ptId pd) s = .next { s with p := s.p.set pd ⟨o, true⟩, pc := s.pc + 1 }) ∧
  (∀ (pd pa pb : PReg) (s : State),
    (encode (.ptAdd pd pa pb)).toNat = wordR 0x33 pd pa pb 0 ∧
    (s.p[pa].valid = true → s.p[pb].valid = true →
      exec (.ptAdd pd pa pb) s =
        .next { s with p := s.p.set pd ⟨padd s.p[pa].val s.p[pb].val, true⟩, pc := s.pc + 1 }) ∧
    (s.p[pa].valid = false ∨ s.p[pb].valid = false →
      exec (.ptAdd pd pa pb) s = .next (s.afterTrap .uninit (.ptAdd pd pa pb) 0))) ∧
  (∀ (pd pa : PReg) (s : State),
    (encode (.ptDbl pd pa)).toNat = wordR 0x34 pd pa 0 0 ∧
    (s.p[pa].valid = true →
      exec (.ptDbl pd pa) s =
        .next { s with p := s.p.set pd ⟨padd s.p[pa].val s.p[pa].val, true⟩, pc := s.pc + 1 }) ∧
    (s.p[pa].valid = false → exec (.ptDbl pd pa) s = .next (s.afterTrap .uninit (.ptDbl pd pa) 0)))

/-- PT.SMULB and PT.SMUL (R216, R217): the whole 256-bit scalar, not reduced, times B or a point register. What smul is,
ScalarMultiplicationIsRepeatedAddition says. -/
def Obligations.PtSmulUsesTheWholeScalar : Prop :=
  (∀ (pd : PReg) (sa : SReg) (s : State),
    (encode (.ptSmulb pd sa)).toNat = wordR 0x35 pd sa 0 0 ∧
    (s.s[sa].valid = true →
      exec (.ptSmulb pd sa) s =
        .next { s with p := s.p.set pd ⟨smul s.s[sa].val.toNat basePoint, true⟩, pc := s.pc + 1 }) ∧
    (s.s[sa].valid = false → exec (.ptSmulb pd sa) s = .next (s.afterTrap .uninit (.ptSmulb pd sa) 0))) ∧
  (∀ (pd : PReg) (sa : SReg) (pb : PReg) (s : State),
    (encode (.ptSmul pd sa pb)).toNat = wordR 0x36 pd sa pb 0 ∧
    (s.s[sa].valid = true → s.p[pb].valid = true →
      exec (.ptSmul pd sa pb) s =
        .next { s with p := s.p.set pd ⟨smul s.s[sa].val.toNat s.p[pb].val, true⟩, pc := s.pc + 1 }) ∧
    (s.s[sa].valid = false ∨ s.p[pb].valid = false →
      exec (.ptSmul pd sa pb) s = .next (s.afterTrap .uninit (.ptSmul pd sa pb) 0)))

/-- PT.EQ (R218): C is 1 exactly when the affine pairs are equal; where it raises E_UNINIT, C is unchanged. -/
def Obligations.PtEqSetsCToEquality : Prop :=
  ∀ (pa pb : PReg) (s : State),
    (encode (.ptEq pa pb)).toNat = wordR 0x37 0 pa pb 0 ∧
    (s.p[pa].valid = true → s.p[pb].valid = true → ∃ b : Bool,
      (b = true ↔ s.p[pa].val.x.val = s.p[pb].val.x.val ∧ s.p[pa].val.y.val = s.p[pb].val.y.val) ∧
      exec (.ptEq pa pb) s = .next { s with c := b, pc := s.pc + 1 }) ∧
    (s.p[pa].valid = false ∨ s.p[pb].valid = false →
      exec (.ptEq pa pb) s = .next (s.afterTrap .uninit (.ptEq pa pb) 0))

/-- PT.GETX and PT.GETY (R219, R220): an affine coordinate into a field register. -/
def Obligations.PtGetWritesACoordinate : Prop :=
  ∀ (fd : FReg) (pa : PReg) (s : State),
    (encode (.ptGetx fd pa)).toNat = wordR 0x38 fd pa 0 0 ∧ (encode (.ptGety fd pa)).toNat = wordR 0x39 fd pa 0 0 ∧
    (s.p[pa].valid = true →
      exec (.ptGetx fd pa) s = .next { s with f := s.f.set fd ⟨s.p[pa].val.x, true⟩, pc := s.pc + 1 } ∧
      exec (.ptGety fd pa) s = .next { s with f := s.f.set fd ⟨s.p[pa].val.y, true⟩, pc := s.pc + 1 }) ∧
    (s.p[pa].valid = false →
      exec (.ptGetx fd pa) s = .next (s.afterTrap .uninit (.ptGetx fd pa) 0) ∧
      exec (.ptGety fd pa) s = .next (s.afterTrap .uninit (.ptGety fd pa) 0))

/-- PT.FROMXY (R221): the pair of two field registers where it satisfies the curve equation, else E_NOTONCURVE with FADDR = 0 and
nothing written. -/
def Obligations.PtFromxyChecksTheCurveEquation : Prop :=
  ∀ (pd : PReg) (fa fb : FReg) (s : State),
    (encode (.ptFromxy pd fa fb)).toNat = wordR 0x3A pd fa fb 0 ∧
    (s.f[fa].valid = true → s.f[fb].valid = true →
      (OnCurve ⟨s.f[fa].val, s.f[fb].val⟩ → exec (.ptFromxy pd fa fb) s =
        .next { s with p := s.p.set pd ⟨⟨s.f[fa].val, s.f[fb].val⟩, true⟩, pc := s.pc + 1 }) ∧
      (¬OnCurve ⟨s.f[fa].val, s.f[fb].val⟩ → exec (.ptFromxy pd fa fb) s =
        .next (s.afterTrap .notOnCurve (.ptFromxy pd fa fb) 0))) ∧
    (s.f[fa].valid = false ∨ s.f[fb].valid = false →
      exec (.ptFromxy pd fa fb) s = .next (s.afterTrap .uninit (.ptFromxy pd fa fb) 0))

/-! ## The arithmetic (00_scope.md) -/

/-- The constants of R10–R14: p = 2^255 − 19 and L = 2^252 + … are prime; 121666·d = −121665; d is no square and −1 is one, I² = −1;
B is on the curve, 5·By = 4 and Bx is even. -/
def Obligations.ConstantsAreThoseOfTheCurve : Prop :=
  p = 2 ^ 255 - 19 ∧ Nat.Prime p ∧
  groupOrder = 2 ^ 252 + 27742317777372353535851937790883648493 ∧ Nat.Prime groupOrder ∧
  (121666 * curveD.val + 121665) % p = 0 ∧ (¬∃ a : Fe, fmul a a = curveD) ∧
  (sqrtMinusOne.val * sqrtMinusOne.val + 1) % p = 0 ∧
  OnCurve basePoint ∧ 5 * basePoint.y.val % p = 4 ∧ basePoint.x.val % 2 = 0

/-- R15: the field operations are the integer operations mod p, finv(0) = 0, and a·finv(a) = 1 for a ≠ 0. -/
def Obligations.FieldPrimitivesAreIntegerOperationsModP : Prop :=
  ∀ a b : Fe,
    (fadd a b).val = (a.val + b.val) % p ∧ ((fsub a b).val : Int) = ((a.val : Int) - b.val) % p ∧
    (fmul a b).val = a.val * b.val % p ∧ ((fneg a).val : Int) = (-(a.val : Int)) % p ∧
    (finv a).val = a.val ^ (p - 2) % p ∧
    (a.val = 0 → (finv a).val = 0) ∧ (a.val ≠ 0 → (fmul a (finv a)).val = 1)

/-- R162: addition and multiplication are commutative and associative, subtraction is addition of the negation, and
a·finv(a) = 1 exactly when a ≠ 0. -/
def Obligations.FieldLaws : Prop :=
  (∀ a b : Fe, fadd a b = fadd b a ∧ fmul a b = fmul b a ∧ fsub a b = fadd a (fneg b)) ∧
  (∀ a b c : Fe, fadd (fadd a b) c = fadd a (fadd b c) ∧ fmul (fmul a b) c = fmul a (fmul b c)) ∧
  (∀ a : Fe, (fmul a (finv a)).val = 1 ↔ a.val ≠ 0)

/-- R191: the scalar operations give the least residue in [0, L), are commutative and associative, and SC.MULADD is SC.MUL
followed by SC.ADD (R188). -/
def Obligations.ScalarLaws : Prop :=
  (∀ n : Nat, (sred n).toNat = n % groupOrder) ∧
  (∀ a b : Scalar, (sadd a b).toNat = (a.toNat + b.toNat) % groupOrder ∧ (smulL a b).toNat = a.toNat * b.toNat % groupOrder ∧
    sadd a b = sadd b a ∧ smulL a b = smulL b a) ∧
  (∀ a b c : Scalar, sadd (sadd a b) c = sadd a (sadd b c) ∧ smulL (smulL a b) c = smulL a (smulL b c) ∧
    smuladd a b c = sadd (smulL a b) c)

/-- R21: enc((x, y)) is 32 bytes with the little-endian value y + sign(x)·2^255, and it is injective on the points of the curve,
which R21 derives from R16 and R20. -/
def Obligations.EncodingIsInjectiveOnPoints : Prop :=
  (∀ q : Point, (enc q).length = 32 ∧ leInt (enc q) = q.y.val + q.x.val % 2 * 2 ^ 255) ∧
  (∀ q r : Point, OnCurve q → OnCurve r → enc q = enc r → q = r)

/-- R22: dec(b) is the unique point that encodes to b where there is one, and fail otherwise. So PT.DEC rejects every encoding that
does not round-trip; that it fails where the y field is p or more, R22 derives from R21. -/
def Obligations.DecodingInvertsEncoding : Prop :=
  ∀ b : List Byte, b.length = 32 →
    (∀ q : Point, dec b = some q ↔ OnCurve q ∧ enc q = b) ∧
    (dec b = none ↔ ¬∃ q : Point, OnCurve q ∧ enc q = b) ∧
    (p ≤ leInt b % 2 ^ 255 → dec b = none)

/-- R16, R17: for points of the curve neither denominator of the addition law is 0, the sum satisfies the law's equations and is
on the curve. -/
def Obligations.AdditionLawIsComplete : Prop :=
  ∀ a b : Point, OnCurve a → OnCurve b →
    let t := fmul curveD (fmul (fmul a.x b.x) (fmul a.y b.y))
    (fadd (Fe.ofNat 1) t).val ≠ 0 ∧ (fsub (Fe.ofNat 1) t).val ≠ 0 ∧
    fmul (padd a b).x (fadd (Fe.ofNat 1) t) = fadd (fmul a.x b.y) (fmul a.y b.x) ∧
    fmul (padd a b).y (fsub (Fe.ofNat 1) t) = fadd (fmul a.y b.y) (fmul a.x b.x) ∧
    OnCurve (padd a b) ∧ OnCurve Point.identity ∧ OnCurve (pneg a)

/-- R16, R222, R214: the points of the curve are an abelian group under PT.ADD's operation: O is a point of the curve, sums and
negations stay on it, the operation is commutative and associative with identity O, and P + (−P) = O. -/
def Obligations.PointsFormAGroup : Prop :=
  ∀ a b c : Point, OnCurve a → OnCurve b → OnCurve c →
    OnCurve Point.identity ∧ OnCurve (padd a b) ∧ OnCurve (pneg a) ∧
    padd a b = padd b a ∧ padd (padd a b) c = padd a (padd b c) ∧
    padd a Point.identity = a ∧ padd a (pneg a) = Point.identity

/-- R18: smul(0, Q) = O and smul(n + 1, Q) = padd(smul(n, Q), Q), for every n and every point Q of the curve. The model computes
smul by double and add (log entry 7); this statement says that it is the spec's. -/
def Obligations.ScalarMultiplicationIsRepeatedAddition : Prop :=
  ∀ q : Point, OnCurve q → smul 0 q = Point.identity ∧ ∀ n : Nat, smul (n + 1) q = padd (smul n q) q

/-- R222: smul(a, smul(b, Q)) = smul(a·b, Q), smul(a, Q) + smul(b, Q) = smul(a + b, Q), smul(L, B) = O, and smul(n, B) depends only
on n mod L. -/
def Obligations.ScalarMultiplicationLaws : Prop :=
  (∀ (a b : Nat) (q : Point), OnCurve q →
    smul a (smul b q) = smul (a * b) q ∧ padd (smul a q) (smul b q) = smul (a + b) q) ∧
  smul groupOrder basePoint = Point.identity ∧
  ∀ n : Nat, smul n basePoint = smul (n % groupOrder) basePoint

/-! ## The instruction cycle (40_control.md R134) -/

/-- Where the word at the pc decodes to i, the step is i's meaning, and nothing is added around it. -/
def Obligations.StepRunsTheDecodedInstruction : Prop :=
  ∀ (s : State) (i : Instr), s.runState = .running → s.abrq = false → s.pc.toNat < s.params.imemWords →
    decode (s.imem.read s.pc.toNat) = .ok i → step s = exec i s

/-- The unit does nothing while STATE ≠ RUNNING; a pending abort is taken before anything else (R258), and a pc outside IMEM
raises E_FETCH before anything is decoded (R79, R256). -/
def Obligations.StepChecksComeInPriorityOrder : Prop :=
  ∀ s : State,
    (s.runState ≠ .running → step s = .next s) ∧
    (s.runState = .running → s.abrq = true → step s = .next { s with
      abrq := false, cause := .abort, finst := 0, faddr := 0, runState := .faulted, irqPend := true }) ∧
    (s.runState = .running → s.abrq = false → s.params.imemWords ≤ s.pc.toNat → step s = .next { s with
      cause := .fetch, finst := 0, faddr := 0, runState := .faulted, irqPend := true })

/-- "Every instruction word, in every state, with every register and memory content, has one defined outcome": no instruction, no
step and no event ever stops with a Lean-level fault or refusal. -/
def Obligations.EveryEventAnswersANextState : Prop :=
  (∀ (i : Instr) (s : State), ∃ t, exec i s = .next t) ∧ (∀ (e : Event) (s : State), ∃ t, event e s = .next t) ∧
  ∀ (es : List Event) (s : State), ∃ t, runEvents es s = .next t

/-- R254, R255, R251, R258: a step that ends FAULTED changes nothing but CAUSE, FINST, FADDR, STATE, DONE and, for an abort, ABRQ; FINST
is the fetched word, 0 for E_FETCH and E_ABORT; FADDR is the address field for E_ALIGN, E_BUS and E_DECODE, else 0. -/
def Obligations.ExceptionsArePrecise : Prop :=
  ∀ s t : State, s.runState = .running → step s = .next t → t.runState = .faulted →
    t = { s with
      abrq := false, cause := t.cause, finst := t.finst, faddr := t.faddr, runState := .faulted, irqPend := true } ∧
    ((s.abrq = true ∧ t.cause = .abort ∧ t.finst = 0 ∧ t.faddr = 0) ∨
      (s.abrq = false ∧ s.params.imemWords ≤ s.pc.toNat ∧ t.cause = .fetch ∧ t.finst = 0 ∧ t.faddr = 0) ∨
      (s.abrq = false ∧ s.pc.toNat < s.params.imemWords ∧ t.finst = s.imem.read s.pc.toNat ∧
        (((t.cause = .illegal ∨ t.cause = .uninit ∨ t.cause = .notOnCurve) ∧ t.faddr = 0) ∨
          ((t.cause = .align ∨ t.cause = .bus ∨ t.cause = .decode) ∧ t.faddr = immField (s.imem.read s.pc.toNat)))))

/-- R40: FE.EQ, SC.LTL and PT.EQ write C and no other instruction does; an instruction that raises an exception does not; only BC
and BNC read it; START clears it, reset too; the host reads it in STATUS[2]. -/
def Obligations.OnlyComparesWriteCAndOnlyBranchesReadIt : Prop :=
  (∀ (i : Instr) (s t : State), exec i s = .next t → t.c ≠ s.c →
    (∃ fa fb, i = .feEq fa fb) ∨ (∃ sa, i = .scLtl sa) ∨ ∃ pa pb, i = .ptEq pa pb) ∧
  (∀ (a b : Fin 16) (s : State), s.f[a].valid = true → s.f[b].valid = true → s.s[a].valid = true →
    s.p[a].valid = true → s.p[b].valid = true →
    exec (.feEq a b) s = .next { s with c := decide (s.f[a].val = s.f[b].val), pc := s.pc + 1 } ∧
    exec (.scLtl a) s = .next { s with c := decide (s.s[a].val.toNat < groupOrder), pc := s.pc + 1 } ∧
    exec (.ptEq a b) s = .next { s with c := decide (s.p[a].val = s.p[b].val), pc := s.pc + 1 }) ∧
  (∀ (i : Instr) (s t : State), s.runState = .running → exec i s = .next t → t.runState = .faulted → t.c = s.c) ∧
  (∀ (i : Instr) (s t t' : State) (b : Bool), (∀ off, i ≠ .bc off ∧ i ≠ .bnc off) → exec i s = .next t →
    exec i { s with c := b } = .next t' → { t' with c := t.c } = t) ∧
  (∀ s : State, s.runState ≠ .running → (hostWrite 0x04 4 1 s).c = false) ∧ State.reset.c = false ∧
  ∀ s : State, (hostRead 0x08 4 s).1.getLsbD 2 = s.c

/-- R34, R103: an instruction changes at most the register its destination field names, and a register it writes is valid afterwards;
so no instruction clears a valid bit. -/
def Obligations.OnlyTheDestinationRegisterChanges : Prop :=
  ∀ (i : Instr) (s t : State), exec i s = .next t → ∀ r : Fin 16,
    (t.f[r] ≠ s.f[r] → destF i = some r ∧ t.f[r].valid = true) ∧
    (t.s[r] ≠ s.s[r] → destS i = some r ∧ t.s[r].valid = true) ∧
    (t.p[r] ≠ s.p[r] → destP i = some r ∧ t.p[r].valid = true)

/-- R70, R72, R50, R270: no instruction reaches IMEM, ENTRY, IRQ_EN, HACC or ABRQ, so a program cannot modify its own code, and HALT
alone writes RESULT (R57). Two clauses are about fields that are the model's own beside the state R30 lists: the parameters (R6, R30;
log entry 1) and the counter of resets, draws (log entry 4). -/
def Obligations.ProgramsCannotReachTheHostsState : Prop :=
  ∀ (i : Instr) (s t : State), exec i s = .next t →
    t.imem = s.imem ∧ t.entry = s.entry ∧ t.irqEn = s.irqEn ∧ t.hacc = s.hacc ∧ t.abrq = s.abrq ∧
    t.params = s.params ∧ t.draws = s.draws ∧ (t.result ≠ s.result → ∃ code, i = .halt code)

/-- R41: the transitions of STATE and no others: reset to IDLE, an accepted START to RUNNING, HALT to HALTED, an exception or abort
to FAULTED. In particular RUNNING is never left without one of these. -/
def Obligations.RunStateHasOnlyTheNamedTransitions : Prop :=
  ∀ (e : Event) (s t : State), event e s = .next t → t.runState ≠ s.runState →
    (t.runState = .idle ∧ (e = .hardwareReset ∨ ∃ v : Word, e = .write 0x04 4 v ∧ v.getLsbD 2 = true)) ∨
    (t.runState = .running ∧ s.runState ≠ .running ∧ ∃ v : Word, e = .write 0x04 4 v ∧ v.getLsbD 0 = true) ∨
    (t.runState = .halted ∧ s.runState = .running ∧ e = .unitStep ∧
      ∃ code, decode (s.imem.read s.pc.toNat) = .ok (.halt code) ∧ t.result = BitVec.ofNat 8 code) ∨
    (t.runState = .faulted ∧ s.runState = .running ∧ e = .unitStep ∧ t.cause ≠ .noException)

/-- R64: DONE becomes 1 exactly in the step in which STATE becomes HALTED or FAULTED; a host write of IRQ_PEND with bit 0 = 1 clears it
and with bit 0 = 0 leaves it; an accepted START does not clear it; the other bits read 0; reset clears it. R265: the interrupt
output is IRQ_EN.DONE_EN AND IRQ_PEND.DONE, so that it rises in the step that stops an unmasked unit; a write of IRQ_EN with bit 0 = 0
masks it and leaves DONE pending. -/
def Obligations.DoneIsSetWhenTheUnitStops : Prop :=
  (∀ s t : State, step s = .next t → t.irqPend = (s.irqPend || decide (t.runState ≠ s.runState))) ∧
  (∀ (s : State) (v : Word), hostWrite 0x20 4 v s = if v.getLsbD 0 = true then { s with irqPend := false } else s) ∧
  (∀ s : State, s.runState ≠ .running → (hostWrite 0x04 4 1 s).irqPend = s.irqPend) ∧
  (∀ s : State, hostRead 0x20 4 s = (if s.irqPend = true then 1 else 0, s)) ∧
  State.reset.irqPend = false ∧
  (∀ s : State, s.irq = true ↔ s.irqEn = true ∧ s.irqPend = true) ∧
  (∀ s t : State, step s = .next t → s.irqEn = true → t.runState ≠ s.runState → t.irq = true) ∧
  (∀ (s : State) (v : Word), v.getLsbD 0 = true → (hostWrite 0x20 4 v s).irq = false) ∧
  (∀ (s : State) (v : Word), v.getLsbD 0 = false →
    (hostWrite 0x1C 4 v s).irq = false ∧ (hostWrite 0x1C 4 v s).irqPend = s.irqPend) ∧
  State.reset.irq = false

/-- R38, R39, R135: a step that leaves the unit RUNNING sets pc to pc + 1 mod 2^16, or is a taken branch and sets it to the branch's
target; a step that stops the unit leaves the pc. -/
def Obligations.PcAdvancesByOneOrByATakenBranch : Prop :=
  ∀ s t : State, s.runState = .running → step s = .next t →
    (t.runState ≠ .running → t.pc = s.pc) ∧
    (t.runState = .running → ∃ i, decode (s.imem.read s.pc.toNat) = .ok i ∧
      (t.pc = s.pc + 1 ∨ ∃ off : Int, (i = .j off ∨ (i = .bc off ∧ s.c = true) ∨ (i = .bnc off ∧ s.c = false)) ∧
        (t.pc.toNat : Int) = ((s.pc.toNat : Int) + off) % 65536))

/-- R71, R72, R74, R78, R311: an instruction sees of DMEM only the operand its word names, and changes no byte outside the operand its
word names; an instruction that stores nothing changes no byte. -/
def Obligations.DmemIsReachedOnlyThroughTheNamedOperand : Prop :=
  (∀ (i : Instr) (s t s' t' : State), t = { s with dmem := t.dmem } →
    (∀ a n, reads i = some (a, n) → ∀ x, a ≤ x → x < a + n → t.dmem.read x = s.dmem.read x) →
    exec i s = .next s' → exec i t = .next t' → t' = { s' with dmem := t'.dmem }) ∧
  (∀ (i : Instr) (s t : State), exec i s = .next t → stores i = none → t.dmem = s.dmem) ∧
  (∀ (i : Instr) (s t : State), exec i s = .next t → ∀ a n, stores i = some (a, n) →
    ∀ x, (x < a ∨ a + n ≤ x) → t.dmem.read x = s.dmem.read x)

/-- R34, R35: the value of a register whose valid bit is 0 cannot be observed. Two states that differ only in such values stay so under
every event, and the host reads the same from both. -/
def Obligations.InvalidRegistersAreUnobservable : Prop :=
  ∀ s t : State, s.SameObservable t →
    (∀ (e : Event) (s' t' : State), event e s = .next s' → event e t = .next t' → s'.SameObservable t') ∧
    ∀ (off : BitVec 20) (bytes : Nat), (hostRead off bytes s).1 = (hostRead off bytes t).1

/-! ## Invariants -/

/-- The state after reset meets the invariant, and reads as R290 says: STATUS 0, PC 0, the interrupt output low, and the constants.
The invariant's part on the point registers is R33's; that they hold O is the model's choice (log entry 3), and so are which
parameters the machine has (log entry 1) and the form of the memories, which list nothing (log entry 2). -/
def Obligations.ResetMeetsTheInvariantAndReadsAsStated : Prop :=
  State.reset.Inv ∧ ResetTable State.reset State.reset ∧
  (hostRead 0x00 4 State.reset).1 = 0xED250100 ∧ (hostRead 0x08 4 State.reset).1 = 0 ∧
  (hostRead 0x10 4 State.reset).1 = 0 ∧ (hostRead 0x24 4 State.reset).1 = 0x00000C0A ∧ State.reset.irq = false

/-- Every event keeps both memories inside IMEM_WORDS and DMEM_BYTES (R70, R71, R77) and in their canonical form. The form, each
written cell listed once and in rising order, is the model's choice (log entry 2); the rules give the sizes alone. -/
def Obligations.EveryEventKeepsTheMemoriesWellFormed : Prop :=
  ∀ (e : Event) (s t : State), s.MemoriesWf → event e s = .next t → t.MemoriesWf

/-- Every event keeps every point register on the curve (R33, R210): no instruction can put an off-curve pair into one. -/
def Obligations.EveryEventKeepsPointRegistersOnTheCurve : Prop :=
  ∀ (e : Event) (s t : State), s.PointsOnCurve → event e s = .next t → t.PointsOnCurve

/-! ## The host's side (10_state.md, 20_memory.md, 70_reset_and_hazards.md) -/

/-- R53: of SRESET, ABORT and START only the first that is 1 acts. SRESET resets in every STATE and leaves the memories (R290, R291);
ABORT sets ABRQ while RUNNING and does nothing otherwise; START starts a run, or while RUNNING only sets HACC. CTRL reads 0. -/
def Obligations.CtrlWritesActByPriority : Prop :=
  ∀ (s : State) (v : Word),
    (v.getLsbD 2 = true → ResetTable s (hostWrite 0x04 4 v s) ∧
      (hostWrite 0x04 4 v s).imem = s.imem ∧ (hostWrite 0x04 4 v s).dmem = s.dmem) ∧
    (v.getLsbD 2 = false → v.getLsbD 1 = true →
      hostWrite 0x04 4 v s = if s.runState = .running then { s with abrq := true } else s) ∧
    (v.getLsbD 2 = false → v.getLsbD 1 = false → v.getLsbD 0 = true →
      hostWrite 0x04 4 v s = if s.runState = .running then { s with hacc := true } else s.afterStart) ∧
    (v.getLsbD 2 = false → v.getLsbD 1 = false → v.getLsbD 0 = false → hostWrite 0x04 4 v s = s) ∧
    hostRead 0x04 4 s = (0, s)

/-- R290, R293: a hardware reset in any state leaves the table of R290. Nothing is said of the memories, which it leaves unspecified
(R291), nor of the register values. -/
def Obligations.HardwareResetLeavesTheTable : Prop :=
  ∀ s : State, ∃ t, event .hardwareReset s = .next t ∧ ResetTable s t ∧
    (hostRead 0x08 4 t).1 = 0 ∧ (hostRead 0x10 4 t).1 = 0 ∧ t.irq = false

/-- R51–R53, R55, R59–R66: what each of the ten host registers and each reserved offset reads, by its fields, with the codes of STATE
(R41) and CAUSE (R251) as numbers, and that a read changes nothing (R82). -/
def Obligations.HostRegistersReadTheirFields : Prop :=
  ∀ s : State,
    hostRead 0x00 4 s = (0xED250100, s) ∧
    (hostRead 0x08 4 s).2 = s ∧ (hostRead 0x08 4 s).1.toNat =
      (match s.runState with
        | .idle => 0
        | .running => 1
        | .halted => 2
        | .faulted => 3) +
      (if s.c then 1 else 0) * 2 ^ 2 + (if s.hacc then 1 else 0) * 2 ^ 3 + s.result.toNat * 2 ^ 8 +
      (match s.cause with
        | .noException => 0
        | .illegal => 1
        | .fetch => 2
        | .align => 3
        | .bus => 4
        | .uninit => 5
        | .decode => 6
        | .notOnCurve => 7
        | .abort => 8) * 2 ^ 16 ∧
    hostRead 0x04 4 s = (0, s) ∧
    (hostRead 0x0C 4 s).2 = s ∧ (hostRead 0x0C 4 s).1.toNat = s.entry.toNat ∧
    (hostRead 0x10 4 s).2 = s ∧ (hostRead 0x10 4 s).1.toNat = s.pc.toNat ∧
    hostRead 0x14 4 s = (s.finst, s) ∧
    (hostRead 0x18 4 s).2 = s ∧ (hostRead 0x18 4 s).1.toNat = s.faddr.toNat ∧
    hostRead 0x1C 4 s = (if s.irqEn then 1 else 0, s) ∧
    hostRead 0x20 4 s = (if s.irqPend then 1 else 0, s) ∧
    (hostRead 0x24 4 s).2 = s ∧
      2 ^ ((hostRead 0x24 4 s).1.toNat % 32) = s.params.imemWords ∧
      2 ^ ((hostRead 0x24 4 s).1.toNat / 2 ^ 8 % 32) = s.params.dmemBytes ∧
      (hostRead 0x24 4 s).1.toNat = (hostRead 0x24 4 s).1.toNat % 32 + (hostRead 0x24 4 s).1.toNat / 2 ^ 8 % 32 * 2 ^ 8 ∧
    ∀ off : BitVec 20, 0x28 ≤ off.toNat → off.toNat < 0x100 → hostRead off 4 s = (0, s)

/-- R59, R63, R66: a write of ENTRY stores its low 16 bits and a write of IRQ_EN its bit 0, in every STATE; every read-only or
reserved host register ignores writes. -/
def Obligations.HostRegisterWritesStoreOrAreIgnored : Prop :=
  ∀ (s : State) (v : Word),
    (∃ e : BitVec 16, e.toNat = v.toNat % 65536 ∧ hostWrite 0x0C 4 v s = { s with entry := e }) ∧
    hostWrite 0x1C 4 v s = { s with irqEn := v.getLsbD 0 } ∧
    ∀ off : BitVec 20, (off.toNat = 0x00 ∨ off.toNat = 0x08 ∨ off.toNat = 0x10 ∨ off.toNat = 0x14 ∨ off.toNat = 0x18 ∨
      off.toNat = 0x24 ∨ (0x28 ≤ off.toNat ∧ off.toNat < 0x100)) → hostWrite off 4 v s = s

/-- R75, R85: while not RUNNING, the host word at DMEM address a (a multiple of 4) is the bytes a to a + 3, least significant first, and
the host word at IMEM index i is that instruction word unchanged; a write changes exactly that word. The window offsets at or past the
configured sizes are reserved: an access there, of any width and alignment, reads 0 and changes nothing. -/
def Obligations.HostWindowsReachTheMemories : Prop :=
  ∀ s : State, s.runState ≠ .running →
    (∀ a : Nat, a % 4 = 0 → a < s.params.dmemBytes →
      ((hostRead (BitVec.ofNat 20 (0x10000 + a)) 4 s).2 = s ∧
        (hostRead (BitVec.ofNat 20 (0x10000 + a)) 4 s).1.toNat = s.dmemValue a 4) ∧
      ∀ v : Word, ∃ m : Mem 8, hostWrite (BitVec.ofNat 20 (0x10000 + a)) 4 v s = { s with dmem := m } ∧
        (∀ k < 4, (m.read (a + k)).toNat = v.toNat / 2 ^ (8 * k) % 256) ∧
        ∀ x, (x < a ∨ a + 4 ≤ x) → m.read x = s.dmem.read x) ∧
    (∀ i : Nat, i < s.params.imemWords →
      hostRead (BitVec.ofNat 20 (0x40000 + 4 * i)) 4 s = (s.imem.read i, s) ∧
      ∀ v : Word, ∃ m : Mem 32, hostWrite (BitVec.ofNat 20 (0x40000 + 4 * i)) 4 v s = { s with imem := m } ∧
        m.read i = v ∧ ∀ x, x ≠ i → m.read x = s.imem.read x) ∧
    (∀ (off : BitVec 20) (bytes : Nat),
      (0x10000 + s.params.dmemBytes ≤ off.toNat ∧ off.toNat < 0x20000) ∨
        (0x40000 + 4 * s.params.imemWords ≤ off.toNat ∧ off.toNat < 0x80000) →
      hostRead off bytes s = (0, s) ∧ ∀ v : Word, hostWrite off bytes v s = s)

/-- R86: a host access of another width than 32 bits, or one that is not aligned, is ignored if it is a write, returns 0 if it is a
read, and has no other effect. So is an access to the reserved regions of the window (R85). That this holds of the DMEM and IMEM
windows while RUNNING too, where R87 sets HACC on an access, is the model's reading (log entry 14). -/
def Obligations.OtherHostAccessesDoNothing : Prop :=
  ∀ (off : BitVec 20) (bytes : Nat) (v : Word) (s : State),
    (bytes ≠ 4 ∨ off.toNat % 4 ≠ 0 ∨ (0x100 ≤ off.toNat ∧ off.toNat < 0x10000) ∨
      (0x20000 ≤ off.toNat ∧ off.toNat < 0x40000) ∨ 0x80000 ≤ off.toNat) →
    hostRead off bytes s = (0, s) ∧ hostWrite off bytes v s = s

/-- R87: while RUNNING, a host access to the DMEM window or the IMEM window is refused: a write is dropped, a read returns 0, and HACC
is set. That this holds for the offsets of the two windows past the configured sizes too is the model's reading (log entry 9). -/
def Obligations.WindowAccessWhileRunningIsRefused : Prop :=
  ∀ (off : BitVec 20) (v : Word) (s : State), s.runState = .running → off.toNat % 4 = 0 →
    ((0x10000 ≤ off.toNat ∧ off.toNat < 0x20000) ∨ (0x40000 ≤ off.toNat ∧ off.toNat < 0x80000)) →
    hostRead off 4 s = (0, { s with hacc := true }) ∧ hostWrite off 4 v s = { s with hacc := true }

/-- R84, R89, R295, R299: the instruction word the host loads at an index and starts at is the one the run executes, from the state of
the launch premises. -/
def Obligations.TheLoadedWordIsTheOneThatRuns : Prop :=
  ∀ (s : State) (e : BitVec 16) (w : Word) (i : Instr), s.runState ≠ .running →
    e.toNat < s.params.imemWords → decode w = .ok i → ∃ m : Mem 32, m.read e.toNat = w ∧
      runEvents [.write (BitVec.ofNat 20 (0x40000 + 4 * e.toNat)) 4 w, .write 0x0C 4 (e.setWidth 32),
        .write 0x04 4 1, .unitStep] s =
      exec i { s with imem := m, entry := e }.afterStart

/-- R259: after an exception the host that writes ENTRY = PC and START re-executes the faulting instruction with every register,
valid bit and memory as it was, and ENTRY = PC + 1 skips it; CAUSE, FINST, FADDR, RESULT, HACC and C are cleared. -/
def Obligations.AFaultedRunResumesWhereTheHostSays : Prop :=
  ∀ (s : State) (e : BitVec 16), s.runState = .faulted →
    runEvents [.write 0x0C 4 (e.setWidth 32), .write 0x04 4 1] s = .next { s with
      entry := e, pc := e, c := false, result := 0, cause := .noException, finst := 0, faddr := 0, hacc := false,
      abrq := false, runState := .running }

/-- R121–R123: every instruction's mnemonic with its operands in R121's order assembles to its word, and a label stands for its distance
from the branch; the three pseudo-instructions expand as R123 says; the assembler refuses another operand count, a register of the
wrong file, a register index above 15, a number outside its field's range and a label that is too far or not defined (R122); and
every word it gives decodes to the instruction its source names. That a hexadecimal branch operand from 0x8000 to 0xFFFF is taken as the
offset's 16-bit field is the model's reading (log entry 12). -/
def Obligations.AssembledWordsDecodeBack : Prop :=
  (∀ (labels : Labels) (index : Nat) (mnemonic : List Char) (ops : List AsmOperand) (w : Word),
    assembleInstr labels index mnemonic ops = some w →
      ∃ i, instrOf labels index (String.ofList mnemonic) ops = some i ∧ decode w = .ok i) ∧
  (∀ (labels : Labels) (index : Nat) (i : Instr), i.WellFormed →
    assembleInstr labels index i.mnemonic.toList (asmOperands i) = some (encode i)) ∧
  (∀ (labels : Labels) (index : Nat) (i : Instr) (ops : List AsmOperand), ops.length ≠ (asmOperands i).length →
    assembleInstr labels index i.mnemonic.toList ops = none) ∧
  (∀ (labels : Labels) (index : Nat) (i : Instr) (ops : List AsmOperand) (k : Nat) (want got : AsmOperand),
    (asmOperands i)[k]? = some want → ops[k]? = some got → got.file ≠ want.file →
    assembleInstr labels index i.mnemonic.toList ops = none) ∧
  (∀ (labels : Labels) (index : Nat) (mnemonic : List Char) (ops : List AsmOperand) (n : Nat), 15 < n →
    (.freg n ∈ ops ∨ .sreg n ∈ ops ∨ .preg n ∈ ops) → assembleInstr labels index mnemonic ops = none) ∧
  (∀ (labels : Labels) (index : Nat) (mnemonic : String) (ops : List AsmOperand) (v : Int) (hex : Bool), .num v hex ∈ ops →
    (if mnemonic = "halt" then v < 0 ∨ 255 < v
      else if mnemonic = "j" ∨ mnemonic = "bc" ∨ mnemonic = "bnc" then v < -32768 ∨ (hex = false ∧ 32767 < v) ∨ 65535 < v
      else v < 0 ∨ 65535 < v) →
    assembleInstr labels index mnemonic.toList ops = none) ∧
  (∀ (labels : Labels) (index : Nat) (name : List Char),
    (∀ target : Nat, labels.lookup name = some target →
      let off : Int := target - index
      (-32768 ≤ off ∧ off ≤ 32767 →
        assembleInstr labels index "j".toList [.label name] = some (encode (.j off)) ∧
        assembleInstr labels index "bc".toList [.label name] = some (encode (.bc off)) ∧
        assembleInstr labels index "bnc".toList [.label name] = some (encode (.bnc off))) ∧
      (off < -32768 ∨ 32767 < off → ∀ mnemonic, assembleInstr labels index mnemonic [.label name] = none)) ∧
    (labels.lookup name = none → ∀ mnemonic, assembleInstr labels index mnemonic [.label name] = none)) ∧
  ∀ (labels : Labels) (index : Nat) (fd fa : FReg),
    assembleInstr labels index "nop".toList [] = some 0x02000001 ∧
    assembleInstr labels index "fe.dbl".toList [.freg fd, .freg fa] = some (encode (.feAdd fd fa fa)) ∧
    assembleInstr labels index "fe.clr".toList [.freg fd] = some (encode (.feLdi fd 0))
end

