-- ==== Sys2Proof/Laws/Assembler.lean ====
section
/-! SUPPORT. The assembler's operand readers: what each reads back, what it refuses, and how a mnemonic is looked up. -/

namespace Sys2Proof.Machine

/-! ## One operand -/

@[simp] theorem asF_freg (r : FReg) : asF (.freg r.val) = some r := by simp [asF, regIndex]
@[simp] theorem asS_sreg (r : SReg) : asS (.sreg r.val) = some r := by simp [asS, regIndex]
@[simp] theorem asP_preg (r : PReg) : asP (.preg r.val) = some r := by simp [asP, regIndex]
@[simp] theorem asNat_num (n : Nat) (hex : Bool) : asNat (.num n hex) = some n := by simp [asNat]
@[simp] theorem asOff_num (labels : Labels) (index : Nat) (off : Int) : asOff labels index (.num off false) = some off := by
  simp [asOff]

/-- A reader refuses an operand of another register file (R122). -/
theorem asF_of_file {a : AsmOperand} (h : a.file ≠ some .f) : asF a = none := by
  cases a <;> first | rfl | exact absurd rfl h
theorem asS_of_file {a : AsmOperand} (h : a.file ≠ some .s) : asS a = none := by
  cases a <;> first | rfl | exact absurd rfl h
theorem asP_of_file {a : AsmOperand} (h : a.file ≠ some .p) : asP a = none := by
  cases a <;> first | rfl | exact absurd rfl h
theorem asNat_of_file {a : AsmOperand} (h : a.file ≠ none) : asNat a = none := by
  cases a <;> first | rfl | exact absurd rfl h
theorem asOff_of_file {labels : Labels} {index : Nat} {a : AsmOperand} (h : a.file ≠ none) : asOff labels index a = none := by
  cases a <;> first | rfl | exact absurd rfl h

/-- A register operand that a reader takes has an index up to 15 (R122). -/
theorem lt_of_regIndex {n : Nat} {r : Fin 16} (h : regIndex n = some r) : n < 16 := by
  unfold regIndex at h
  split at h
  · assumption
  · cases h

/-! ## All operands -/

section
variable {α β γ δ : Type} {a : AsmOperand → Option α} {b : AsmOperand → Option β} {c : AsmOperand → Option γ}
  {d : AsmOperand → Option δ} {ops : List AsmOperand} {i : Instr}

theorem ops0_eq_some {j : Instr} : ops0 j ops = some i ↔ ops = [] ∧ j = i := by
  cases ops <;> simp [ops0]

theorem ops1_eq_some {mk : α → Instr} : ops1 a mk ops = some i ↔ ∃ x, ops = [x] ∧ ∃ u, a x = some u ∧ mk u = i := by
  rcases ops with _ | ⟨x, _ | ⟨_, _⟩⟩ <;> simp [ops1]

theorem ops2_eq_some {mk : α → β → Instr} : ops2 a b mk ops = some i ↔
    ∃ x y, ops = [x, y] ∧ ∃ u v, a x = some u ∧ b y = some v ∧ mk u v = i := by
  rcases ops with _ | ⟨x, _ | ⟨y, _ | ⟨_, _⟩⟩⟩ <;> simp [ops2, Option.bind_eq_some_iff]

theorem ops3_eq_some {mk : α → β → γ → Instr} : ops3 a b c mk ops = some i ↔
    ∃ x y z, ops = [x, y, z] ∧ ∃ u v w, a x = some u ∧ b y = some v ∧ c z = some w ∧ mk u v w = i := by
  rcases ops with _ | ⟨x, _ | ⟨y, _ | ⟨z, _ | ⟨_, _⟩⟩⟩⟩ <;> simp [ops3, Option.bind_eq_some_iff]

theorem ops4_eq_some {mk : α → β → γ → δ → Instr} : ops4 a b c d mk ops = some i ↔
    ∃ x y z t, ops = [x, y, z, t] ∧ ∃ u v w q, a x = some u ∧ b y = some v ∧ c z = some w ∧ d t = some q ∧ mk u v w q = i := by
  rcases ops with _ | ⟨x, _ | ⟨y, _ | ⟨z, _ | ⟨t, _ | ⟨_, _⟩⟩⟩⟩⟩ <;> simp [ops4, Option.bind_eq_some_iff]

end

/-! ## The mnemonic -/

theorem mem_of_lookup {α : Type} {table : List (String × α)} {k : String} {v : α} (h : table.lookup k = some v) :
    (k, v) ∈ table := by
  induction table with
  | nil => cases h
  | cons row table ih =>
    obtain ⟨k', v'⟩ := row
    rw [List.lookup_cons] at h
    split at h
    · rename_i e
      cases h
      rw [beq_iff_eq.mp e]
      exact List.mem_cons_self
    · exact List.mem_cons_of_mem _ (ih h)

/-- An instruction comes from a row of the table whose reader takes the operands. -/
theorem instrOf_eq_some {labels : Labels} {index : Nat} {mnemonic : String} {ops : List AsmOperand} {i : Instr}
    (h : instrOf labels index mnemonic ops = some i) :
    ∃ read, (mnemonic, read) ∈ asmTable labels index ∧ read ops = some i := by
  obtain ⟨read, hl, hr⟩ := Option.bind_eq_some_iff.mp h
  exact ⟨read, mem_of_lookup hl, hr⟩

/-- A word is the encoding of the well-formed instruction that the line names. -/
theorem assembleInstr_eq_some {labels : Labels} {index : Nat} {mnemonic : List Char} {ops : List AsmOperand} {w : Word} :
    assembleInstr labels index mnemonic ops = some w ↔
      ∃ i, instrOf labels index (String.ofList mnemonic) ops = some i ∧ i.wellFormed = true ∧ encode i = w := by
  unfold assembleInstr
  split <;> simp_all

end Sys2Proof.Machine
end

