-- ==== Sys2Proof/Laws/Primes.lean ====
section
/-! SUPPORT. The two primes of the spec, p (R10) and the group order L (R11), by Lucas's test: each number below is prime because
a power of order n − 1 exists mod n, checked at the prime factors of n − 1. -/

/- Each `decide +kernel` below would take a thread of its own, and their stacks together more memory than the check allows. -/
set_option Elab.async false

namespace Sys2Proof.Machine

/-- powMod is the power mod m, for an exponent of at most the given number of bits. -/
theorem powMod_eq (m b bits e : Nat) (hm : 1 < m) (he : e < 2 ^ bits) : powMod m b bits e = b ^ e % m := by
  induction bits generalizing e with
  | zero =>
    rw [pow_zero, Nat.lt_one_iff] at he
    subst he
    exact (Nat.mod_eq_of_lt hm).symm
  | succ n ih =>
    have hh := ih (e / 2) (by rw [pow_succ] at he; omega)
    simp only [powMod, hh]
    have hsq : b ^ (e / 2) % m * (b ^ (e / 2) % m) % m = b ^ (2 * (e / 2)) % m := by
      rw [← Nat.mul_mod, ← pow_add, two_mul]
    split
    · rw [hsq, Nat.mul_mod, Nat.mod_mod, ← Nat.mul_mod, ← pow_succ]
      congr 2; omega
    · rw [hsq]
      congr 2; omega

/-- Lucas's test, with the prime factors of n − 1 listed with their multiplicity. -/
theorem prime_of_lucas {n : Nat} (a bits : Nat) (factors : List Nat)
    (h : 1 < n ∧ n ≤ 2 ^ bits ∧ factors.prod = n - 1) (hp : factors.Forall Nat.Prime)
    (ho : powMod n a bits (n - 1) = 1 ∧ ∀ q ∈ factors, powMod n a bits ((n - 1) / q) ≠ 1) : Nat.Prime n := by
  obtain ⟨h1, hb, hf⟩ := h
  have cast : ∀ e, e < 2 ^ bits → ((a : ZMod n) ^ e = 1 ↔ powMod n a bits e = 1) := by
    intro e he
    rw [powMod_eq n a bits e h1 he, ← Nat.cast_one (R := ZMod n), ← Nat.cast_pow, ZMod.natCast_eq_natCast_iff,
      Nat.ModEq, Nat.mod_eq_of_lt h1]
  refine lucas_primality n a ((cast _ (by omega)).mpr ho.1) fun q hq hd hone => ?_
  obtain ⟨r, hr, hqr⟩ := (Prime.dvd_prod_iff (Nat.prime_iff.mp hq)).mp (hf ▸ hd)
  have : q = r := (Nat.prime_dvd_prime_iff_eq hq (List.forall_iff_forall_mem.mp hp r hr)).mp hqr
  subst this
  exact ho.2 q hr ((cast _ (lt_of_le_of_lt (Nat.div_le_self _ _) (by omega))).mp hone)

theorem prime_1923133 : Nat.Prime 1923133 :=
  prime_of_lucas 2 21 [2, 2, 3, 43, 3727] (by norm_num)
    ⟨by norm_num, by norm_num, by norm_num, by norm_num, by norm_num⟩ (by decide +kernel)

theorem prime_31757755568855353 : Nat.Prime 31757755568855353 :=
  prime_of_lucas 10 55 [2, 2, 2, 3, 31, 107, 223, 4153, 430751] (by norm_num)
    ⟨by norm_num, by norm_num, by norm_num, by norm_num, by norm_num, by norm_num, by norm_num, by norm_num, by norm_num⟩ (by decide +kernel)

theorem prime_2773320623 : Nat.Prime 2773320623 :=
  prime_of_lucas 5 32 [2, 2437, 569003] (by norm_num)
    ⟨by norm_num, by norm_num, by norm_num⟩ (by decide +kernel)

theorem prime_72106336199 : Nat.Prime 72106336199 :=
  prime_of_lucas 7 37 [2, 13, 2773320623] (by norm_num)
    ⟨by norm_num, by norm_num, prime_2773320623⟩ (by decide +kernel)

theorem prime_8574133 : Nat.Prime 8574133 :=
  prime_of_lucas 2 24 [2, 2, 3, 7, 103, 991] (by norm_num)
    ⟨by norm_num, by norm_num, by norm_num, by norm_num, by norm_num, by norm_num⟩ (by decide +kernel)

theorem prime_1919519569386763 : Nat.Prime 1919519569386763 :=
  prime_of_lucas 2 51 [2, 3, 7, 19, 47, 47, 127, 8574133] (by norm_num)
    ⟨by norm_num, by norm_num, by norm_num, by norm_num, by norm_num, by norm_num, by norm_num, prime_8574133⟩ (by decide +kernel)

theorem prime_75445702479781427272750846543864801 : Nat.Prime 75445702479781427272750846543864801 :=
  prime_of_lucas 7 116 [2, 2, 2, 2, 2, 3, 3, 5, 5, 75707, 72106336199, 1919519569386763] (by norm_num)
    ⟨by norm_num, by norm_num, by norm_num, by norm_num, by norm_num, by norm_num, by norm_num, by norm_num, by norm_num, by norm_num, prime_72106336199, prime_1919519569386763⟩ (by decide +kernel)

theorem prime_74058212732561358302231226437062788676166966415465897661863160754340907 : Nat.Prime 74058212732561358302231226437062788676166966415465897661863160754340907 :=
  prime_of_lucas 2 236 [2, 3, 353, 57467, 132049, 1923133, 31757755568855353, 75445702479781427272750846543864801] (by norm_num)
    ⟨by norm_num, by norm_num, by norm_num, by norm_num, by norm_num, prime_1923133, prime_31757755568855353, prime_75445702479781427272750846543864801⟩ (by decide +kernel)

theorem prime_p : Nat.Prime p :=
  prime_of_lucas 2 255 [2, 2, 3, 65147, 74058212732561358302231226437062788676166966415465897661863160754340907] (by norm_num)
    ⟨by norm_num, by norm_num, by norm_num, by norm_num, prime_74058212732561358302231226437062788676166966415465897661863160754340907⟩ (by decide +kernel)

theorem prime_14741173 : Nat.Prime 14741173 :=
  prime_of_lucas 2 24 [2, 2, 3, 3, 409477] (by norm_num)
    ⟨by norm_num, by norm_num, by norm_num, by norm_num, by norm_num⟩ (by decide +kernel)

theorem prime_58964693 : Nat.Prime 58964693 :=
  prime_of_lucas 2 26 [2, 2, 14741173] (by norm_num)
    ⟨by norm_num, by norm_num, prime_14741173⟩ (by decide +kernel)

theorem prime_3044861653679985063343 : Nat.Prime 3044861653679985063343 :=
  prime_of_lucas 5 72 [2, 3, 11, 30703, 82163, 132667, 137849] (by norm_num)
    ⟨by norm_num, by norm_num, by norm_num, by norm_num, by norm_num, by norm_num, by norm_num⟩ (by decide +kernel)

theorem prime_198211423230930754013084525763697 : Nat.Prime 198211423230930754013084525763697 :=
  prime_of_lucas 5 108 [2, 2, 2, 2, 3, 23, 58964693, 3044861653679985063343] (by norm_num)
    ⟨by norm_num, by norm_num, by norm_num, by norm_num, by norm_num, by norm_num, prime_58964693, prime_3044861653679985063343⟩ (by decide +kernel)

theorem prime_292386187 : Nat.Prime 292386187 :=
  prime_of_lucas 2 29 [2, 3, 3, 3, 3, 307, 5879] (by norm_num)
    ⟨by norm_num, by norm_num, by norm_num, by norm_num, by norm_num, by norm_num, by norm_num⟩ (by decide +kernel)

theorem prime_213441916511 : Nat.Prime 213441916511 :=
  prime_of_lucas 13 38 [2, 5, 73, 292386187] (by norm_num)
    ⟨by norm_num, by norm_num, by norm_num, prime_292386187⟩ (by decide +kernel)

theorem prime_1224481 : Nat.Prime 1224481 :=
  prime_of_lucas 13 21 [2, 2, 2, 2, 2, 3, 5, 2551] (by norm_num)
    ⟨by norm_num, by norm_num, by norm_num, by norm_num, by norm_num, by norm_num, by norm_num, by norm_num⟩ (by decide +kernel)

theorem prime_1257559732178653 : Nat.Prime 1257559732178653 :=
  prime_of_lucas 2 51 [2, 2, 3, 7, 23, 531581, 1224481] (by norm_num)
    ⟨by norm_num, by norm_num, by norm_num, by norm_num, by norm_num, by norm_num, prime_1224481⟩ (by decide +kernel)

theorem prime_4434155615661930479 : Nat.Prime 4434155615661930479 :=
  prime_of_lucas 17 62 [2, 41, 43, 1257559732178653] (by norm_num)
    ⟨by norm_num, by norm_num, by norm_num, prime_1257559732178653⟩ (by decide +kernel)

theorem prime_172054593956031949258510691 : Nat.Prime 172054593956031949258510691 :=
  prime_of_lucas 2 88 [2, 5, 1361, 2851, 4434155615661930479] (by norm_num)
    ⟨by norm_num, by norm_num, by norm_num, by norm_num, prime_4434155615661930479⟩ (by decide +kernel)

theorem prime_19757330305831588566944191468367130476339 : Nat.Prime 19757330305831588566944191468367130476339 :=
  prime_of_lucas 2 134 [2, 269, 213441916511, 172054593956031949258510691] (by norm_num)
    ⟨by norm_num, by norm_num, prime_213441916511, prime_172054593956031949258510691⟩ (by decide +kernel)

theorem prime_276602624281642239937218680557139826668747 : Nat.Prime 276602624281642239937218680557139826668747 :=
  prime_of_lucas 2 138 [2, 7, 19757330305831588566944191468367130476339] (by norm_num)
    ⟨by norm_num, by norm_num, prime_19757330305831588566944191468367130476339⟩ (by decide +kernel)

theorem prime_groupOrder : Nat.Prime groupOrder :=
  prime_of_lucas 2 253 [2, 2, 3, 11, 198211423230930754013084525763697, 276602624281642239937218680557139826668747] (by norm_num)
    ⟨by norm_num, by norm_num, by norm_num, by norm_num, prime_198211423230930754013084525763697, prime_276602624281642239937218680557139826668747⟩ (by decide +kernel)

end Sys2Proof.Machine
end

