-- ==== Sys2Proof/Laws/Curve.lean ====
section
/-! SUPPORT. The field primitives as the operations of ZMod p, and the polynomial facts about the Edwards addition law, over any field,
that its laws rest on. -/

/- Each `decide +kernel` below would take a thread of its own, and their stacks together more memory than the check allows. -/
set_option Elab.async false

namespace Sys2Proof.Machine

/-! ## Field elements in ZMod p -/

theorem fact_prime_p : Fact (Nat.Prime p) := ⟨prime_p⟩

/-- A field element in ZMod p. -/
def zmod (a : Fe) : ZMod p := (a.val : ZMod p)

theorem zmod_injective {a b : Fe} (h : zmod a = zmod b) : a = b := by
  rw [zmod, zmod, ZMod.natCast_eq_natCast_iff, Nat.ModEq, Nat.mod_eq_of_lt a.isLt, Nat.mod_eq_of_lt b.isLt] at h
  exact Fin.ext h

@[simp] theorem zmod_ofNat (n : Nat) : zmod (Fe.ofNat n) = (n : ZMod p) := ZMod.natCast_mod n p

@[simp] theorem zmod_fadd (a b : Fe) : zmod (fadd a b) = zmod a + zmod b := by
  rw [fadd, zmod_ofNat, Nat.cast_add, zmod, zmod]

@[simp] theorem zmod_fmul (a b : Fe) : zmod (fmul a b) = zmod a * zmod b := by
  rw [fmul, zmod_ofNat, Nat.cast_mul, zmod, zmod]

@[simp] theorem zmod_fneg (a : Fe) : zmod (fneg a) = -zmod a := by
  rw [fneg, zmod_ofNat, Nat.cast_sub a.isLt.le, ZMod.natCast_self, zero_sub, zmod]

@[simp] theorem zmod_fsub (a b : Fe) : zmod (fsub a b) = zmod a - zmod b := by
  rw [fsub, zmod_ofNat, Nat.cast_add, Nat.cast_sub b.isLt.le, ZMod.natCast_self, zero_sub, zmod, zmod, sub_eq_add_neg]

theorem zmod_fpow (a : Fe) (e : Nat) (h : e < 2 ^ 255) : zmod (fpow a e) = zmod a ^ e := by
  rw [fpow, zmod_ofNat, powMod_eq p a.val 255 e (by decide) h, ZMod.natCast_mod, Nat.cast_pow, zmod]

theorem zmod_finv (a : Fe) : zmod (finv a) = (zmod a)⁻¹ := by
  have := fact_prime_p
  rw [finv, zmod_fpow a _ (by decide +kernel)]
  by_cases h : zmod a = 0
  · rw [h, inv_zero, zero_pow (by decide +kernel)]
  · apply eq_inv_of_mul_eq_one_left
    rw [← pow_succ, show p - 2 + 1 = p - 1 by decide +kernel]
    exact ZMod.pow_card_sub_one_eq_one h

theorem zmod_two_ne_zero : (2 : ZMod p) ≠ 0 := by
  intro h
  have h' : ((2 : Nat) : ZMod p) = 0 := h
  rw [ZMod.natCast_eq_zero_iff] at h'
  exact absurd (Nat.le_of_dvd (by decide) h') (by decide +kernel)

/-- I² = −1 (R13). -/
theorem zmod_sqrtMinusOne_sq : zmod sqrtMinusOne * zmod sqrtMinusOne = -1 := by
  rw [← zmod_fmul, show fmul sqrtMinusOne sqrtMinusOne = fneg (Fe.ofNat 1) by decide +kernel]
  simp

/-- d is no square (R12), by Euler's criterion. -/
theorem zmod_curveD_not_square : ¬∃ a : ZMod p, a * a = zmod curveD := by
  have := fact_prime_p
  rintro ⟨a, ha⟩
  have minus : zmod curveD ^ ((p - 1) / 2) = -1 := by
    rw [← zmod_fpow _ _ (by decide +kernel), show fpow curveD ((p - 1) / 2) = fneg (Fe.ofNat 1) by decide +kernel]
    simp
  have hne : a ≠ 0 := by
    rintro rfl
    rw [mul_zero] at ha
    rw [← ha, zero_pow (by decide +kernel)] at minus
    simp at minus
  have plus : zmod curveD ^ ((p - 1) / 2) = 1 := by
    rw [← ha, ← pow_two, ← pow_mul, show 2 * ((p - 1) / 2) = p - 1 by decide +kernel]
    exact ZMod.pow_card_sub_one_eq_one hne
  exact zmod_two_ne_zero (by linear_combination minus - plus)

theorem Point.eq_of_zmod {a b : Point} (hx : zmod a.x = zmod b.x) (hy : zmod a.y = zmod b.y) : a = b := by
  cases a; cases b
  simp only [Point.mk.injEq]
  exact ⟨zmod_injective hx, zmod_injective hy⟩

/-- t = d·x1·x2·y1·y2 of the addition law (R17). -/
def lawT (a b : Point) : ZMod p := zmod curveD * zmod a.x * zmod b.x * zmod a.y * zmod b.y

theorem zmod_padd_x (a b : Point) :
    zmod (padd a b).x = (zmod a.x * zmod b.y + zmod a.y * zmod b.x) * (1 + lawT a b)⁻¹ := by
  simp only [padd, lawT, zmod_finv, zmod_fmul, zmod_fadd, zmod_ofNat, Nat.cast_one]
  ring_nf

theorem zmod_padd_y (a b : Point) :
    zmod (padd a b).y = (zmod a.y * zmod b.y + zmod a.x * zmod b.x) * (1 - lawT a b)⁻¹ := by
  simp only [padd, lawT, zmod_finv, zmod_fmul, zmod_fadd, zmod_fsub, zmod_ofNat, Nat.cast_one]
  ring_nf

/-- The curve equation (R12, R16). -/
theorem onCurve_iff (q : Point) :
    OnCurve q ↔ zmod q.y ^ 2 - zmod q.x ^ 2 = 1 + zmod curveD * zmod q.x ^ 2 * zmod q.y ^ 2 := by
  constructor
  · intro h
    have := congrArg zmod h
    simp only [zmod_fadd, zmod_fmul, zmod_fneg, zmod_ofNat, Nat.cast_one] at this
    linear_combination this
  · intro h
    apply zmod_injective
    simp only [zmod_fadd, zmod_fmul, zmod_fneg, zmod_ofNat, Nat.cast_one]
    linear_combination h

/-! ## The addition law over a commutative ring, with the denominators cleared

Each identity lies in the ideal of the curve equations; the coefficients come from dividing by them. Two points have coordinates x1 y1 and x2 y2, and t = d·x1·x2·y1·y2. -/

section

variable {K : Type} [CommRing K] {d x1 y1 x2 y2 x3 y3 : K}

/-- The sum satisfies the curve equation. -/
theorem edwards_closed (h1 : y1 ^ 2 - x1 ^ 2 = 1 + d * x1 ^ 2 * y1 ^ 2) (h2 : y2 ^ 2 - x2 ^ 2 = 1 + d * x2 ^ 2 * y2 ^ 2) :
    ((y1 * y2 + x1 * x2) * (1 + d * x1 * x2 * y1 * y2)) ^ 2 - ((x1 * y2 + y1 * x2) * (1 - d * x1 * x2 * y1 * y2)) ^ 2 =
      (1 - (d * x1 * x2 * y1 * y2) ^ 2) ^ 2 + d * (x1 * y2 + y1 * x2) ^ 2 * (y1 * y2 + x1 * x2) ^ 2 := by
  linear_combination (x1 ^ 2 * y1 ^ 2 * x2 ^ 4 * y2 ^ 4 * d ^ 3 - x1 ^ 2 * x2 ^ 4 * y2 ^ 4 * d ^ 2 - x1 ^ 2 * x2 ^ 4 * y2 ^ 2 *
    d + x1 ^ 2 * x2 ^ 2 * y2 ^ 4 * d + y1 ^ 2 * x2 ^ 4 * y2 ^ 4 * d ^ 2 + y1 ^ 2 * x2 ^ 4 * y2 ^ 2 * d - y1 ^ 2 * x2 ^ 2 * y2 ^
    4 * d - x2 ^ 4 * y2 ^ 4 * d ^ 2 - 2 * x2 ^ 4 * y2 ^ 4 * d - 2 * x2 ^ 4 * y2 ^ 2 + x2 ^ 4 + 2 * x2 ^ 2 * y2 ^ 4 - 2 * x2 ^ 2
    * y2 ^ 2 * d - 4 * x2 ^ 2 * y2 ^ 2 + y2 ^ 4) * h1 + (x1 ^ 4 * x2 ^ 2 * y2 ^ 2 * d + 2 * x1 ^ 2 * x2 ^ 2 * y2 ^ 2 * d + 2 *
    x1 ^ 2 * x2 ^ 2 * y2 ^ 2 - x1 ^ 2 * x2 ^ 2 + x1 ^ 2 * y2 ^ 2 + y1 ^ 4 * x2 ^ 2 * y2 ^ 2 * d - 2 * y1 ^ 2 * x2 ^ 2 * y2 ^ 2 *
    d - 2 * y1 ^ 2 * x2 ^ 2 * y2 ^ 2 + y1 ^ 2 * x2 ^ 2 - y1 ^ 2 * y2 ^ 2 + x2 ^ 2 * y2 ^ 2 * d + 2 * x2 ^ 2 * y2 ^ 2 - x2 ^ 2 +
    y2 ^ 2 + 1) * h2

/-- The x coordinates of (P1 + P2) + P3 and P1 + (P2 + P3). -/
theorem edwards_assoc_x (h1 : y1 ^ 2 - x1 ^ 2 = 1 + d * x1 ^ 2 * y1 ^ 2) (h2 : y2 ^ 2 - x2 ^ 2 = 1 + d * x2 ^ 2 * y2 ^ 2)
    (h3 : y3 ^ 2 - x3 ^ 2 = 1 + d * x3 ^ 2 * y3 ^ 2) :
    ((x1 * y2 + y1 * x2) * (1 - d * x1 * x2 * y1 * y2) * y3 + (y1 * y2 + x1 * x2) * (1 + d * x1 * x2 * y1 * y2) * x3) *
        (1 - (d * x2 * x3 * y2 * y3) ^ 2 + d * x1 * y1 * (x2 * y3 + y2 * x3) * (y2 * y3 + x2 * x3)) =
      (x1 * (y2 * y3 + x2 * x3) * (1 + d * x2 * x3 * y2 * y3) + y1 * (x2 * y3 + y2 * x3) * (1 - d * x2 * x3 * y2 * y3)) *
        (1 - (d * x1 * x2 * y1 * y2) ^ 2 + d * (x1 * y2 + y1 * x2) * (y1 * y2 + x1 * x2) * x3 * y3) := by
  linear_combination (-x1 * x2 ^ 4 * y2 ^ 3 * x3 ^ 2 * y3 * d ^ 2 - x1 * x2 ^ 4 * y2 * x3 ^ 2 * y3 * d - x1 * x2 ^ 3 * y2 ^ 4 *
    x3 * y3 ^ 2 * d ^ 2 - x1 * x2 ^ 3 * y2 ^ 2 * x3 ^ 3 * d - x1 * x2 ^ 3 * y2 ^ 2 * x3 * d + x1 * x2 ^ 2 * y2 ^ 3 * y3 ^ 3 * d
    - x1 * x2 ^ 2 * y2 ^ 3 * y3 * d + x1 * x2 * y2 ^ 4 * x3 * y3 ^ 2 * d + y1 * x2 ^ 4 * y2 ^ 3 * x3 * y3 ^ 2 * d ^ 2 + y1 * x2
    ^ 4 * y2 * x3 * y3 ^ 2 * d + y1 * x2 ^ 3 * y2 ^ 4 * x3 ^ 2 * y3 * d ^ 2 + y1 * x2 ^ 3 * y2 ^ 2 * y3 ^ 3 * d - y1 * x2 ^ 3 *
    y2 ^ 2 * y3 * d - y1 * x2 ^ 2 * y2 ^ 3 * x3 ^ 3 * d - y1 * x2 ^ 2 * y2 ^ 3 * x3 * d - y1 * x2 * y2 ^ 4 * x3 ^ 2 * y3 * d) *
    h1 + (x1 ^ 3 * x2 ^ 2 * y2 * x3 ^ 2 * y3 * d + x1 ^ 3 * x2 * y2 ^ 2 * x3 * y3 ^ 2 * d + x1 ^ 3 * x2 * x3 ^ 3 * y3 ^ 2 * d +
    x1 ^ 3 * x2 * x3 ^ 3 - x1 ^ 3 * x2 * x3 * y3 ^ 2 + x1 ^ 3 * x2 * x3 + x1 ^ 3 * y2 * x3 ^ 2 * y3 ^ 3 * d + x1 ^ 3 * y2 * x3 ^
    2 * y3 - x1 ^ 3 * y2 * y3 ^ 3 + x1 ^ 3 * y2 * y3 + x1 ^ 2 * y1 * x2 ^ 2 * y2 * x3 ^ 3 * y3 ^ 2 * d ^ 2 - x1 ^ 2 * y1 * x2 ^
    2 * y2 * x3 * y3 ^ 2 * d - x1 ^ 2 * y1 * x2 * y2 ^ 2 * x3 ^ 2 * y3 ^ 3 * d ^ 2 - x1 ^ 2 * y1 * x2 * y2 ^ 2 * x3 ^ 2 * y3 * d
    + x1 ^ 2 * y1 * x2 * x3 ^ 2 * y3 ^ 3 * d + x1 ^ 2 * y1 * x2 * x3 ^ 2 * y3 - x1 ^ 2 * y1 * x2 * y3 ^ 3 + x1 ^ 2 * y1 * x2 *
    y3 + x1 ^ 2 * y1 * y2 * x3 ^ 3 * y3 ^ 2 * d + x1 ^ 2 * y1 * y2 * x3 ^ 3 - x1 ^ 2 * y1 * y2 * x3 * y3 ^ 2 + x1 ^ 2 * y1 * y2
    * x3 - x1 * y1 ^ 2 * x2 ^ 2 * y2 * x3 ^ 2 * y3 ^ 3 * d ^ 2 - x1 * y1 ^ 2 * x2 ^ 2 * y2 * x3 ^ 2 * y3 * d + x1 * y1 ^ 2 * x2
    * y2 ^ 2 * x3 ^ 3 * y3 ^ 2 * d ^ 2 - x1 * y1 ^ 2 * x2 * y2 ^ 2 * x3 * y3 ^ 2 * d - x1 * y1 ^ 2 * x2 * x3 ^ 3 * y3 ^ 2 * d -
    x1 * y1 ^ 2 * x2 * x3 ^ 3 + x1 * y1 ^ 2 * x2 * x3 * y3 ^ 2 - x1 * y1 ^ 2 * x2 * x3 - x1 * y1 ^ 2 * y2 * x3 ^ 2 * y3 ^ 3 * d
    - x1 * y1 ^ 2 * y2 * x3 ^ 2 * y3 + x1 * y1 ^ 2 * y2 * y3 ^ 3 - x1 * y1 ^ 2 * y2 * y3 + x1 * x2 ^ 2 * y2 * x3 ^ 2 * y3 * d +
    x1 * x2 * y2 ^ 2 * x3 * y3 ^ 2 * d + x1 * x2 * x3 ^ 3 * y3 ^ 2 * d + x1 * x2 * x3 ^ 3 - x1 * x2 * x3 * y3 ^ 2 + x1 * x2 * x3
    + x1 * y2 * x3 ^ 2 * y3 ^ 3 * d + x1 * y2 * x3 ^ 2 * y3 - x1 * y2 * y3 ^ 3 + x1 * y2 * y3 + y1 ^ 3 * x2 ^ 2 * y2 * x3 * y3 ^
    2 * d + y1 ^ 3 * x2 * y2 ^ 2 * x3 ^ 2 * y3 * d - y1 ^ 3 * x2 * x3 ^ 2 * y3 ^ 3 * d - y1 ^ 3 * x2 * x3 ^ 2 * y3 + y1 ^ 3 * x2
    * y3 ^ 3 - y1 ^ 3 * x2 * y3 - y1 ^ 3 * y2 * x3 ^ 3 * y3 ^ 2 * d - y1 ^ 3 * y2 * x3 ^ 3 + y1 ^ 3 * y2 * x3 * y3 ^ 2 - y1 ^ 3
    * y2 * x3 - y1 * x2 ^ 2 * y2 * x3 * y3 ^ 2 * d - y1 * x2 * y2 ^ 2 * x3 ^ 2 * y3 * d + y1 * x2 * x3 ^ 2 * y3 ^ 3 * d + y1 *
    x2 * x3 ^ 2 * y3 - y1 * x2 * y3 ^ 3 + y1 * x2 * y3 + y1 * y2 * x3 ^ 3 * y3 ^ 2 * d + y1 * y2 * x3 ^ 3 - y1 * y2 * x3 * y3 ^
    2 + y1 * y2 * x3) * h2 + (-x1 ^ 3 * x2 ^ 3 * x3 - x1 ^ 3 * x2 ^ 2 * y2 * y3 + x1 ^ 3 * x2 * y2 ^ 2 * x3 - x1 ^ 3 * x2 * x3 +
    x1 ^ 3 * y2 ^ 3 * y3 - x1 ^ 3 * y2 * y3 - x1 ^ 2 * y1 * x2 ^ 3 * y3 - x1 ^ 2 * y1 * x2 ^ 2 * y2 * x3 * d - x1 ^ 2 * y1 * x2
    ^ 2 * y2 * x3 + x1 ^ 2 * y1 * x2 * y2 ^ 2 * y3 * d + x1 ^ 2 * y1 * x2 * y2 ^ 2 * y3 - x1 ^ 2 * y1 * x2 * y3 + x1 ^ 2 * y1 *
    y2 ^ 3 * x3 - x1 ^ 2 * y1 * y2 * x3 + x1 * y1 ^ 2 * x2 ^ 3 * x3 + x1 * y1 ^ 2 * x2 ^ 2 * y2 * y3 * d + x1 * y1 ^ 2 * x2 ^ 2
    * y2 * y3 - x1 * y1 ^ 2 * x2 * y2 ^ 2 * x3 * d - x1 * y1 ^ 2 * x2 * y2 ^ 2 * x3 + x1 * y1 ^ 2 * x2 * x3 - x1 * y1 ^ 2 * y2 ^
    3 * y3 + x1 * y1 ^ 2 * y2 * y3 - x1 * x2 ^ 3 * x3 - x1 * x2 ^ 2 * y2 * y3 + x1 * x2 * y2 ^ 2 * x3 - x1 * x2 * x3 + x1 * y2 ^
    3 * y3 - x1 * y2 * y3 + y1 ^ 3 * x2 ^ 3 * y3 + y1 ^ 3 * x2 ^ 2 * y2 * x3 - y1 ^ 3 * x2 * y2 ^ 2 * y3 + y1 ^ 3 * x2 * y3 - y1
    ^ 3 * y2 ^ 3 * x3 + y1 ^ 3 * y2 * x3 - y1 * x2 ^ 3 * y3 - y1 * x2 ^ 2 * y2 * x3 + y1 * x2 * y2 ^ 2 * y3 - y1 * x2 * y3 + y1
    * y2 ^ 3 * x3 - y1 * y2 * x3) * h3

/-- The y coordinates of (P1 + P2) + P3 and P1 + (P2 + P3). -/
theorem edwards_assoc_y (h1 : y1 ^ 2 - x1 ^ 2 = 1 + d * x1 ^ 2 * y1 ^ 2) (h2 : y2 ^ 2 - x2 ^ 2 = 1 + d * x2 ^ 2 * y2 ^ 2)
    (h3 : y3 ^ 2 - x3 ^ 2 = 1 + d * x3 ^ 2 * y3 ^ 2) :
    ((y1 * y2 + x1 * x2) * (1 + d * x1 * x2 * y1 * y2) * y3 + (x1 * y2 + y1 * x2) * (1 - d * x1 * x2 * y1 * y2) * x3) *
        (1 - (d * x2 * x3 * y2 * y3) ^ 2 - d * x1 * y1 * (x2 * y3 + y2 * x3) * (y2 * y3 + x2 * x3)) =
      (y1 * (y2 * y3 + x2 * x3) * (1 + d * x2 * x3 * y2 * y3) + x1 * (x2 * y3 + y2 * x3) * (1 - d * x2 * x3 * y2 * y3)) *
        (1 - (d * x1 * x2 * y1 * y2) ^ 2 - d * (x1 * y2 + y1 * x2) * (y1 * y2 + x1 * x2) * x3 * y3) := by
  linear_combination (x1 * x2 ^ 4 * y2 ^ 3 * x3 * y3 ^ 2 * d ^ 2 + x1 * x2 ^ 4 * y2 * x3 * y3 ^ 2 * d + x1 * x2 ^ 3 * y2 ^ 4 *
    x3 ^ 2 * y3 * d ^ 2 + x1 * x2 ^ 3 * y2 ^ 2 * y3 ^ 3 * d - x1 * x2 ^ 3 * y2 ^ 2 * y3 * d - x1 * x2 ^ 2 * y2 ^ 3 * x3 ^ 3 * d
    - x1 * x2 ^ 2 * y2 ^ 3 * x3 * d - x1 * x2 * y2 ^ 4 * x3 ^ 2 * y3 * d - y1 * x2 ^ 4 * y2 ^ 3 * x3 ^ 2 * y3 * d ^ 2 - y1 * x2
    ^ 4 * y2 * x3 ^ 2 * y3 * d - y1 * x2 ^ 3 * y2 ^ 4 * x3 * y3 ^ 2 * d ^ 2 - y1 * x2 ^ 3 * y2 ^ 2 * x3 ^ 3 * d - y1 * x2 ^ 3 *
    y2 ^ 2 * x3 * d + y1 * x2 ^ 2 * y2 ^ 3 * y3 ^ 3 * d - y1 * x2 ^ 2 * y2 ^ 3 * y3 * d + y1 * x2 * y2 ^ 4 * x3 * y3 ^ 2 * d) *
    h1 + (-x1 ^ 3 * x2 ^ 2 * y2 * x3 * y3 ^ 2 * d - x1 ^ 3 * x2 * y2 ^ 2 * x3 ^ 2 * y3 * d + x1 ^ 3 * x2 * x3 ^ 2 * y3 ^ 3 * d +
    x1 ^ 3 * x2 * x3 ^ 2 * y3 - x1 ^ 3 * x2 * y3 ^ 3 + x1 ^ 3 * x2 * y3 + x1 ^ 3 * y2 * x3 ^ 3 * y3 ^ 2 * d + x1 ^ 3 * y2 * x3 ^
    3 - x1 ^ 3 * y2 * x3 * y3 ^ 2 + x1 ^ 3 * y2 * x3 + x1 ^ 2 * y1 * x2 ^ 2 * y2 * x3 ^ 2 * y3 ^ 3 * d ^ 2 + x1 ^ 2 * y1 * x2 ^
    2 * y2 * x3 ^ 2 * y3 * d - x1 ^ 2 * y1 * x2 * y2 ^ 2 * x3 ^ 3 * y3 ^ 2 * d ^ 2 + x1 ^ 2 * y1 * x2 * y2 ^ 2 * x3 * y3 ^ 2 * d
    + x1 ^ 2 * y1 * x2 * x3 ^ 3 * y3 ^ 2 * d + x1 ^ 2 * y1 * x2 * x3 ^ 3 - x1 ^ 2 * y1 * x2 * x3 * y3 ^ 2 + x1 ^ 2 * y1 * x2 *
    x3 + x1 ^ 2 * y1 * y2 * x3 ^ 2 * y3 ^ 3 * d + x1 ^ 2 * y1 * y2 * x3 ^ 2 * y3 - x1 ^ 2 * y1 * y2 * y3 ^ 3 + x1 ^ 2 * y1 * y2
    * y3 - x1 * y1 ^ 2 * x2 ^ 2 * y2 * x3 ^ 3 * y3 ^ 2 * d ^ 2 + x1 * y1 ^ 2 * x2 ^ 2 * y2 * x3 * y3 ^ 2 * d + x1 * y1 ^ 2 * x2
    * y2 ^ 2 * x3 ^ 2 * y3 ^ 3 * d ^ 2 + x1 * y1 ^ 2 * x2 * y2 ^ 2 * x3 ^ 2 * y3 * d - x1 * y1 ^ 2 * x2 * x3 ^ 2 * y3 ^ 3 * d -
    x1 * y1 ^ 2 * x2 * x3 ^ 2 * y3 + x1 * y1 ^ 2 * x2 * y3 ^ 3 - x1 * y1 ^ 2 * x2 * y3 - x1 * y1 ^ 2 * y2 * x3 ^ 3 * y3 ^ 2 * d
    - x1 * y1 ^ 2 * y2 * x3 ^ 3 + x1 * y1 ^ 2 * y2 * x3 * y3 ^ 2 - x1 * y1 ^ 2 * y2 * x3 - x1 * x2 ^ 2 * y2 * x3 * y3 ^ 2 * d -
    x1 * x2 * y2 ^ 2 * x3 ^ 2 * y3 * d + x1 * x2 * x3 ^ 2 * y3 ^ 3 * d + x1 * x2 * x3 ^ 2 * y3 - x1 * x2 * y3 ^ 3 + x1 * x2 * y3
    + x1 * y2 * x3 ^ 3 * y3 ^ 2 * d + x1 * y2 * x3 ^ 3 - x1 * y2 * x3 * y3 ^ 2 + x1 * y2 * x3 - y1 ^ 3 * x2 ^ 2 * y2 * x3 ^ 2 *
    y3 * d - y1 ^ 3 * x2 * y2 ^ 2 * x3 * y3 ^ 2 * d - y1 ^ 3 * x2 * x3 ^ 3 * y3 ^ 2 * d - y1 ^ 3 * x2 * x3 ^ 3 + y1 ^ 3 * x2 *
    x3 * y3 ^ 2 - y1 ^ 3 * x2 * x3 - y1 ^ 3 * y2 * x3 ^ 2 * y3 ^ 3 * d - y1 ^ 3 * y2 * x3 ^ 2 * y3 + y1 ^ 3 * y2 * y3 ^ 3 - y1 ^
    3 * y2 * y3 + y1 * x2 ^ 2 * y2 * x3 ^ 2 * y3 * d + y1 * x2 * y2 ^ 2 * x3 * y3 ^ 2 * d + y1 * x2 * x3 ^ 3 * y3 ^ 2 * d + y1 *
    x2 * x3 ^ 3 - y1 * x2 * x3 * y3 ^ 2 + y1 * x2 * x3 + y1 * y2 * x3 ^ 2 * y3 ^ 3 * d + y1 * y2 * x3 ^ 2 * y3 - y1 * y2 * y3 ^
    3 + y1 * y2 * y3) * h2 + (-x1 ^ 3 * x2 ^ 3 * y3 - x1 ^ 3 * x2 ^ 2 * y2 * x3 + x1 ^ 3 * x2 * y2 ^ 2 * y3 - x1 ^ 3 * x2 * y3 +
    x1 ^ 3 * y2 ^ 3 * x3 - x1 ^ 3 * y2 * x3 - x1 ^ 2 * y1 * x2 ^ 3 * x3 - x1 ^ 2 * y1 * x2 ^ 2 * y2 * y3 * d - x1 ^ 2 * y1 * x2
    ^ 2 * y2 * y3 + x1 ^ 2 * y1 * x2 * y2 ^ 2 * x3 * d + x1 ^ 2 * y1 * x2 * y2 ^ 2 * x3 - x1 ^ 2 * y1 * x2 * x3 + x1 ^ 2 * y1 *
    y2 ^ 3 * y3 - x1 ^ 2 * y1 * y2 * y3 + x1 * y1 ^ 2 * x2 ^ 3 * y3 + x1 * y1 ^ 2 * x2 ^ 2 * y2 * x3 * d + x1 * y1 ^ 2 * x2 ^ 2
    * y2 * x3 - x1 * y1 ^ 2 * x2 * y2 ^ 2 * y3 * d - x1 * y1 ^ 2 * x2 * y2 ^ 2 * y3 + x1 * y1 ^ 2 * x2 * y3 - x1 * y1 ^ 2 * y2 ^
    3 * x3 + x1 * y1 ^ 2 * y2 * x3 - x1 * x2 ^ 3 * y3 - x1 * x2 ^ 2 * y2 * x3 + x1 * x2 * y2 ^ 2 * y3 - x1 * x2 * y3 + x1 * y2 ^
    3 * x3 - x1 * y2 * x3 + y1 ^ 3 * x2 ^ 3 * x3 + y1 ^ 3 * x2 ^ 2 * y2 * y3 - y1 ^ 3 * x2 * y2 ^ 2 * x3 + y1 ^ 3 * x2 * x3 - y1
    ^ 3 * y2 ^ 3 * y3 + y1 ^ 3 * y2 * y3 - y1 * x2 ^ 3 * x3 - y1 * x2 ^ 2 * y2 * y3 + y1 * x2 * y2 ^ 2 * x3 - y1 * x2 * x3 + y1
    * y2 ^ 3 * y3 - y1 * y2 * y3) * h3

end

/-- No denominator vanishes, where d is no square and −1 is one (Bernstein and Lange's argument for R17's claim). -/
theorem edwards_complete {K : Type} [Field K] {d i x1 y1 x2 y2 : K} (hd : ¬∃ a : K, a * a = d) (hi : i * i = -1)
    (h2ne : (2 : K) ≠ 0) (h1 : y1 ^ 2 - x1 ^ 2 = 1 + d * x1 ^ 2 * y1 ^ 2) (h2 : y2 ^ 2 - x2 ^ 2 = 1 + d * x2 ^ 2 * y2 ^ 2) :
    (d * x1 * x2 * y1 * y2) ^ 2 ≠ 1 := by
  intro ht
  have hx1 : x1 ≠ 0 := by rintro rfl; simp at ht
  have hy1 : y1 ≠ 0 := by rintro rfl; simp at ht
  have hx2 : x2 ≠ 0 := by rintro rfl; simp at ht
  have plus : (i * x1 + d * x1 * x2 * y1 * y2 * y1) ^ 2 = d * (x1 * y1 * (i * x2 + y2)) ^ 2 := by
    linear_combination (x1 ^ 2 - d * x1 ^ 2 * y1 ^ 2 * x2 ^ 2) * hi + (y1 ^ 2 - 1) * ht + h1 - d * x1 ^ 2 * y1 ^ 2 * h2
  have minus : (i * x1 - d * x1 * x2 * y1 * y2 * y1) ^ 2 = d * (x1 * y1 * (i * x2 - y2)) ^ 2 := by
    linear_combination (x1 ^ 2 - d * x1 ^ 2 * y1 ^ 2 * x2 ^ 2) * hi + (y1 ^ 2 - 1) * ht + h1 - d * x1 ^ 2 * y1 ^ 2 * h2
  by_cases hp : i * x2 + y2 = 0
  · have hm : i * x2 - y2 ≠ 0 := by
      intro hm
      have hi0 : i ≠ 0 := by rintro rfl; simp at hi
      have : 2 * (i * x2) = 0 := by linear_combination hp + hm
      exact hx2 ((mul_eq_zero.mp ((mul_eq_zero.mp this).resolve_left h2ne)).resolve_left hi0)
    refine hd ⟨(i * x1 - d * x1 * x2 * y1 * y2 * y1) / (x1 * y1 * (i * x2 - y2)), ?_⟩
    rw [div_mul_div_comm, ← pow_two, ← pow_two, minus]
    field_simp
  · refine hd ⟨(i * x1 + d * x1 * x2 * y1 * y2 * y1) / (x1 * y1 * (i * x2 + y2)), ?_⟩
    rw [div_mul_div_comm, ← pow_two, ← pow_two, plus]
    field_simp

end Sys2Proof.Machine
end

