-- ==== Sys2Proof/Laws/Encoding.lean ====
section
/-! SUPPORT. The fields of the four word layouts, so that no later proof takes a word apart again. -/

namespace Sys2Proof

/-! ## Fields of a word as numbers -/

theorem opField_toNat (w : Word) : (opField w).toNat = w.toNat / 2 ^ 24 := by
  have := w.isLt
  simp [opField, BitVec.extractLsb'_toNat, Nat.shiftRight_eq_div_pow]; omega

theorem rdField_toNat (w : Word) : (rdField w).toNat = w.toNat / 2 ^ 20 % 16 := by
  simp [rdField, BitVec.extractLsb'_toNat, Nat.shiftRight_eq_div_pow]

theorem raField_toNat (w : Word) : (raField w).toNat = w.toNat / 2 ^ 16 % 16 := by
  simp [raField, BitVec.extractLsb'_toNat, Nat.shiftRight_eq_div_pow]

theorem rbField_toNat (w : Word) : (rbField w).toNat = w.toNat / 2 ^ 12 % 16 := by
  simp [rbField, BitVec.extractLsb'_toNat, Nat.shiftRight_eq_div_pow]

theorem rcField_toNat (w : Word) : (rcField w).toNat = w.toNat / 2 ^ 8 % 16 := by
  simp [rcField, BitVec.extractLsb'_toNat, Nat.shiftRight_eq_div_pow]

theorem lowField_toNat (w : Word) : (lowField w).toNat = w.toNat % 256 := by
  simp [lowField, BitVec.extractLsb'_toNat]

theorem immField_toNat (w : Word) : (immField w).toNat = w.toNat % 65536 := by
  simp [immField, BitVec.extractLsb'_toNat]

/-! ## The layouts as numbers (R102) -/

theorem encodeR_toNat (op : BitVec 8) (rd ra rb rc : BitVec 4) :
    (encodeR op rd ra rb rc).toNat =
      op.toNat * 2 ^ 24 + rd.toNat * 2 ^ 20 + ra.toNat * 2 ^ 16 + rb.toNat * 2 ^ 12 + rc.toNat * 2 ^ 8 := by
  have h1 := rd.isLt; have h2 := ra.isLt; have h3 := rb.isLt; have h4 := rc.isLt
  simp only [encodeR, BitVec.toNat_append, Nat.shiftLeft_eq]
  simp only [← Nat.shiftLeft_eq, ← Nat.shiftLeft_add_eq_or_of_lt h1, ← Nat.shiftLeft_add_eq_or_of_lt h2,
    ← Nat.shiftLeft_add_eq_or_of_lt h3, ← Nat.shiftLeft_add_eq_or_of_lt h4]
  simp [Nat.shiftLeft_eq]; omega

theorem encodeM_toNat (op : BitVec 8) (r : BitVec 4) (n : BitVec 16) :
    (encodeM op r n).toNat = op.toNat * 2 ^ 24 + r.toNat * 2 ^ 20 + n.toNat := by
  have h1 := r.isLt; have h2 := n.isLt
  simp only [encodeM, BitVec.toNat_append]
  simp only [← Nat.shiftLeft_add_eq_or_of_lt h1, ← Nat.shiftLeft_add_eq_or_of_lt h2]
  simp [Nat.shiftLeft_eq]; omega

theorem encodeB_toNat (op : BitVec 8) (off : BitVec 16) : (encodeB op off).toNat = op.toNat * 2 ^ 24 + off.toNat := by
  have h2 := off.isLt
  simp only [encodeB, BitVec.toNat_append]
  simp only [← Nat.shiftLeft_add_eq_or_of_lt h2]
  simp [Nat.shiftLeft_eq]; omega

theorem encodeH_toNat (op : BitVec 8) (code : BitVec 8) : (encodeH op code).toNat = op.toNat * 2 ^ 24 + code.toNat := by
  have h2 := code.isLt
  simp only [encodeH, BitVec.toNat_append]
  simp only [← Nat.shiftLeft_add_eq_or_of_lt h2]
  simp [Nat.shiftLeft_eq]; omega

/-! ## Register indexes -/

@[simp] theorem regBits_toNat (r : Fin 16) : (regBits r).toNat = r.val := by
  simp [regBits]

@[simp] theorem regOf_regBits (r : Fin 16) : regOf (regBits r) = r := by
  apply Fin.ext; exact regBits_toNat r

@[simp] theorem regBits_regOf (b : BitVec 4) : regBits (regOf b) = b := by
  apply BitVec.eq_of_toNat_eq; exact regBits_toNat (regOf b)

/-! ## The fields of each layout -/

variable (op : BitVec 8) (rd ra rb rc r : BitVec 4) (n off : BitVec 16) (code : BitVec 8)

@[simp] theorem opField_encodeR : opField (encodeR op rd ra rb rc) = op := by
  apply BitVec.eq_of_toNat_eq
  have := rd.isLt; have := ra.isLt; have := rb.isLt; have := rc.isLt
  rw [opField_toNat, encodeR_toNat]; omega
@[simp] theorem rdField_encodeR : rdField (encodeR op rd ra rb rc) = rd := by
  apply BitVec.eq_of_toNat_eq
  have := rd.isLt; have := ra.isLt; have := rb.isLt; have := rc.isLt
  rw [rdField_toNat, encodeR_toNat]; omega
@[simp] theorem raField_encodeR : raField (encodeR op rd ra rb rc) = ra := by
  apply BitVec.eq_of_toNat_eq
  have := rd.isLt; have := ra.isLt; have := rb.isLt; have := rc.isLt
  rw [raField_toNat, encodeR_toNat]; omega
@[simp] theorem rbField_encodeR : rbField (encodeR op rd ra rb rc) = rb := by
  apply BitVec.eq_of_toNat_eq
  have := rd.isLt; have := ra.isLt; have := rb.isLt; have := rc.isLt
  rw [rbField_toNat, encodeR_toNat]; omega
@[simp] theorem rcField_encodeR : rcField (encodeR op rd ra rb rc) = rc := by
  apply BitVec.eq_of_toNat_eq
  have := rd.isLt; have := ra.isLt; have := rb.isLt; have := rc.isLt
  rw [rcField_toNat, encodeR_toNat]; omega
@[simp] theorem lowField_encodeR : lowField (encodeR op rd ra rb rc) = 0 := by
  apply BitVec.eq_of_toNat_eq
  rw [lowField_toNat, encodeR_toNat]; simp; omega

@[simp] theorem opField_encodeM : opField (encodeM op r n) = op := by
  apply BitVec.eq_of_toNat_eq
  have := r.isLt; have := n.isLt
  rw [opField_toNat, encodeM_toNat]; omega
@[simp] theorem rdField_encodeM : rdField (encodeM op r n) = r := by
  apply BitVec.eq_of_toNat_eq
  have := r.isLt; have := n.isLt
  rw [rdField_toNat, encodeM_toNat]; omega
@[simp] theorem raField_encodeM : raField (encodeM op r n) = 0 := by
  apply BitVec.eq_of_toNat_eq
  have := r.isLt; have := n.isLt
  rw [raField_toNat, encodeM_toNat]; simp; omega
@[simp] theorem immField_encodeM : immField (encodeM op r n) = n := by
  apply BitVec.eq_of_toNat_eq
  have := r.isLt; have := n.isLt
  rw [immField_toNat, encodeM_toNat]; omega

@[simp] theorem opField_encodeB : opField (encodeB op off) = op := by
  apply BitVec.eq_of_toNat_eq
  have := off.isLt
  rw [opField_toNat, encodeB_toNat]; omega
@[simp] theorem rdField_encodeB : rdField (encodeB op off) = 0 := by
  apply BitVec.eq_of_toNat_eq
  have := off.isLt
  rw [rdField_toNat, encodeB_toNat]; simp; omega
@[simp] theorem raField_encodeB : raField (encodeB op off) = 0 := by
  apply BitVec.eq_of_toNat_eq
  have := off.isLt
  rw [raField_toNat, encodeB_toNat]; simp; omega
@[simp] theorem immField_encodeB : immField (encodeB op off) = off := by
  apply BitVec.eq_of_toNat_eq
  have := off.isLt
  rw [immField_toNat, encodeB_toNat]; omega

@[simp] theorem opField_encodeH : opField (encodeH op code) = op := by
  apply BitVec.eq_of_toNat_eq
  have := code.isLt
  rw [opField_toNat, encodeH_toNat]; omega
@[simp] theorem lowField_encodeH : lowField (encodeH op code) = code := by
  apply BitVec.eq_of_toNat_eq
  have := code.isLt
  rw [lowField_toNat, encodeH_toNat]; omega
@[simp] theorem rdField_encodeH : rdField (encodeH op code) = 0 := by
  apply BitVec.eq_of_toNat_eq
  have := code.isLt
  rw [rdField_toNat, encodeH_toNat]; simp; omega
@[simp] theorem raField_encodeH : raField (encodeH op code) = 0 := by
  apply BitVec.eq_of_toNat_eq
  have := code.isLt
  rw [raField_toNat, encodeH_toNat]; simp; omega
@[simp] theorem rbField_encodeH : rbField (encodeH op code) = 0 := by
  apply BitVec.eq_of_toNat_eq
  have := code.isLt
  rw [rbField_toNat, encodeH_toNat]; simp; omega
@[simp] theorem rcField_encodeH : rcField (encodeH op code) = 0 := by
  apply BitVec.eq_of_toNat_eq
  have := code.isLt
  rw [rcField_toNat, encodeH_toNat]; simp; omega

/-! ## A word is its layout where its must-be-zero fields are zero -/

theorem encodeR_fields (w : Word) (h : lowField w = 0) :
    encodeR (opField w) (rdField w) (raField w) (rbField w) (rcField w) = w := by
  apply BitVec.eq_of_toNat_eq
  have h0 : w.toNat % 256 = 0 := by rw [← lowField_toNat, h]; rfl
  rw [encodeR_toNat, opField_toNat, rdField_toNat, raField_toNat, rbField_toNat, rcField_toNat]
  omega

theorem encodeM_fields (w : Word) (h : raField w = 0) : encodeM (opField w) (rdField w) (immField w) = w := by
  apply BitVec.eq_of_toNat_eq
  have h0 : w.toNat / 2 ^ 16 % 16 = 0 := by rw [← raField_toNat, h]; rfl
  rw [encodeM_toNat, opField_toNat, rdField_toNat, immField_toNat]
  omega

theorem encodeB_fields (w : Word) (h1 : rdField w = 0) (h2 : raField w = 0) : encodeB (opField w) (immField w) = w := by
  have h3 := encodeM_fields w h2
  rw [h1] at h3
  apply BitVec.eq_of_toNat_eq
  rw [encodeB_toNat, ← congrArg BitVec.toNat h3, encodeM_toNat]
  simp

theorem encodeH_fields (w : Word) (h1 : rdField w = 0) (h2 : raField w = 0) (h3 : rbField w = 0) (h4 : rcField w = 0) :
    encodeH (opField w) (lowField w) = w := by
  apply BitVec.eq_of_toNat_eq
  have e1 : w.toNat / 2 ^ 20 % 16 = 0 := by rw [← rdField_toNat, h1]; rfl
  have e2 : w.toNat / 2 ^ 16 % 16 = 0 := by rw [← raField_toNat, h2]; rfl
  have e3 : w.toNat / 2 ^ 12 % 16 = 0 := by rw [← rbField_toNat, h3]; rfl
  have e4 : w.toNat / 2 ^ 8 % 16 = 0 := by rw [← rcField_toNat, h4]; rfl
  rw [encodeH_toNat, opField_toNat, lowField_toNat]
  omega

end Sys2Proof
end

