-- ==== Sys2Proof/Laws/Memory.lean ====
section
/-! SUPPORT. The memory operations: a read after a write, and that every operation keeps the canonical form. -/

namespace Sys2Proof.Machine

variable {w : Nat}

/-! ## The cells -/

theorem Mem.lookup_insert (m : List (Nat × BitVec w)) (a : Nat) (v : BitVec w) (b : Nat) :
    Mem.lookup (Mem.insert m a v) b = if a = b then some v else Mem.lookup m b := by
  induction m with
  | nil => rfl
  | cons c m ih =>
    obtain ⟨k, u⟩ := c
    unfold Mem.insert
    split
    · simp only [Mem.lookup, ih]
      split <;> split <;> first | rfl | omega
    · split
      · subst k
        simp only [Mem.lookup]
        split <;> rfl
      · simp only [Mem.lookup]

theorem Mem.wfFrom_insert {size lo a : Nat} {m : List (Nat × BitVec w)} (h : Mem.wfFrom size lo m = true) (hl : lo ≤ a)
    (ha : a < size) (v : BitVec w) : Mem.wfFrom size lo (Mem.insert m a v) = true := by
  induction m generalizing lo with
  | nil => simp [Mem.insert, Mem.wfFrom, hl, ha]
  | cons c m ih =>
    obtain ⟨k, u⟩ := c
    simp only [Mem.wfFrom, Bool.and_eq_true, decide_eq_true_eq] at h
    unfold Mem.insert
    split
    · simp only [Mem.wfFrom, Bool.and_eq_true, decide_eq_true_eq]
      exact ⟨h.1, ih h.2 (by omega)⟩
    · split
      · subst k
        simp only [Mem.wfFrom, Bool.and_eq_true, decide_eq_true_eq]
        exact h
      · simp only [Mem.wfFrom, Bool.and_eq_true, decide_eq_true_eq]
        exact ⟨⟨hl, ha⟩, ⟨by omega, h.1.2⟩, h.2⟩

/-! ## One cell -/

@[simp] theorem Mem.read_drawn (n a : Nat) : (Mem.drawn w n).read a = Config.drawCell w n a := rfl

@[simp] theorem Mem.write_draw (m : Mem w) (a : Nat) (v : BitVec w) : (m.write a v).draw = m.draw := rfl

/-- Reading after a write: the value written at its address, the old value elsewhere. -/
theorem Mem.read_write (m : Mem w) (a : Nat) (v : BitVec w) (b : Nat) :
    (m.write a v).read b = if a = b then v else m.read b := by
  simp only [Mem.read, Mem.write, Mem.lookup_insert]
  by_cases h : a = b
  · simp only [if_pos h]
  · simp only [if_neg h]

@[simp] theorem Mem.wf_drawn (size n : Nat) : (Mem.drawn w n).wf size = true := rfl

/-- A write keeps the canonical form. -/
theorem Mem.wf_write {size a : Nat} {m : Mem w} (h : m.wf size = true) (ha : a < size) (v : BitVec w) :
    (m.write a v).wf size = true := Mem.wfFrom_insert h (Nat.zero_le a) ha v

/-! ## Byte strings -/

@[simp] theorem leBytes_length (n v : Nat) : (leBytes n v).length = n := by
  induction n generalizing v with
  | zero => rfl
  | succ n ih => simp [leBytes, ih]

@[simp] theorem Mem.readBytes_length (m : Mem 8) (a n : Nat) : (m.readBytes a n).length = n := by
  induction n generalizing a with
  | zero => rfl
  | succ n ih => simp [Mem.readBytes, ih]

theorem Mem.readBytes_getElem (m : Mem 8) (a n i : Nat) (h : i < (m.readBytes a n).length) :
    (m.readBytes a n)[i] = m.read (a + i) := by
  induction n generalizing a i with
  | zero => simp [Mem.readBytes] at h
  | succ n ih =>
    cases i with
    | zero => rfl
    | succ i =>
      simp only [Mem.readBytes, List.getElem_cons_succ, ih]
      congr 1; omega

theorem leBytes_getElem (n v i : Nat) (h : i < (leBytes n v).length) :
    (leBytes n v)[i] = BitVec.ofNat 8 (v / 256 ^ i) := by
  induction n generalizing v i with
  | zero => simp [leBytes] at h
  | succ n ih =>
    cases i with
    | zero => simp [leBytes]
    | succ i =>
      simp only [leBytes, List.getElem_cons_succ, ih]
      rw [Nat.div_div_eq_div_mul, pow_succ, Nat.mul_comm]

theorem leInt_lt (b : List Byte) : leInt b < 256 ^ b.length := by
  induction b with
  | nil => simp [leInt]
  | cons x b ih =>
    have := x.isLt
    simp only [leInt, List.length_cons, pow_succ]
    omega

theorem leInt_leBytes (n v : Nat) (h : v < 256 ^ n) : leInt (leBytes n v) = v := by
  induction n generalizing v with
  | zero => simp [leBytes, leInt] at *; omega
  | succ n ih =>
    simp only [leBytes, leInt, BitVec.toNat_ofNat]
    rw [ih _ (by rw [pow_succ] at h; omega)]
    omega

theorem leBytes_leInt (b : List Byte) : leBytes b.length (leInt b) = b := by
  induction b with
  | nil => rfl
  | cons x b ih =>
    have hx := x.isLt
    simp only [List.length_cons, leBytes, leInt]
    rw [show (x.toNat + 256 * leInt b) / 256 = leInt b by omega, ih]
    congr 1
    apply BitVec.eq_of_toNat_eq
    simp; omega

/-! ## Multi-byte accesses -/

theorem Mem.wf_writeBytes {size a : Nat} {m : Mem 8} {bs : List Byte} (h : m.wf size = true) (ha : a + bs.length ≤ size) :
    (m.writeBytes a bs).wf size = true := by
  induction bs generalizing m a with
  | nil => exact h
  | cons b bs ih =>
    simp only [List.length_cons] at ha
    exact ih (Mem.wf_write h (by omega) b) (by omega)

@[simp] theorem Mem.writeBytes_draw (m : Mem 8) (a : Nat) (bs : List Byte) : (m.writeBytes a bs).draw = m.draw := by
  induction bs generalizing m a with
  | nil => rfl
  | cons b bs ih => exact ih _ _

/-- After MemWrite: byte i of the string at a + i, the old byte outside (R74). -/
theorem Mem.read_writeBytes (m : Mem 8) (a : Nat) (bs : List Byte) (x : Nat) :
    (m.writeBytes a bs).read x = if hx : a ≤ x ∧ x - a < bs.length then bs[x - a]'hx.2 else m.read x := by
  induction bs generalizing m a with
  | nil => simp [Mem.writeBytes]
  | cons b bs ih =>
    unfold Mem.writeBytes
    rw [ih, Mem.read_write]
    by_cases hx : x = a
    · subst hx; simp
    · by_cases h1 : a + 1 ≤ x ∧ x - (a + 1) < bs.length
      · have h2 : a ≤ x ∧ x - a < (b :: bs).length := ⟨by omega, by simp only [List.length_cons]; omega⟩
        rw [dif_pos h1, dif_pos h2]
        have : x - a = (x - (a + 1)) + 1 := by omega
        simp [this]
      · have h2 : ¬(a ≤ x ∧ x - a < (b :: bs).length) := by simp only [List.length_cons]; omega
        rw [dif_neg h1, dif_neg h2, if_neg (by omega)]

end Sys2Proof.Machine
end

