-- ==== Sys2Proof/Laws/State.lean ====
section
/-! SUPPORT. What each update of the state leaves in each field, one lemma a field. -/

namespace Sys2Proof.Machine

variable (s : State)

/-! ### writeF -/

@[simp] theorem State.writeF_params (r : FReg) (v : Fe) : (s.writeF r v).params = s.params := rfl
@[simp] theorem State.writeF_f (r : FReg) (v : Fe) : (s.writeF r v).f = s.f.set r ⟨v, true⟩ := rfl
@[simp] theorem State.writeF_s (r : FReg) (v : Fe) : (s.writeF r v).s = s.s := rfl
@[simp] theorem State.writeF_p (r : FReg) (v : Fe) : (s.writeF r v).p = s.p := rfl
@[simp] theorem State.writeF_pc (r : FReg) (v : Fe) : (s.writeF r v).pc = s.pc := rfl
@[simp] theorem State.writeF_c (r : FReg) (v : Fe) : (s.writeF r v).c = s.c := rfl
@[simp] theorem State.writeF_runState (r : FReg) (v : Fe) : (s.writeF r v).runState = s.runState := rfl
@[simp] theorem State.writeF_abrq (r : FReg) (v : Fe) : (s.writeF r v).abrq = s.abrq := rfl
@[simp] theorem State.writeF_entry (r : FReg) (v : Fe) : (s.writeF r v).entry = s.entry := rfl
@[simp] theorem State.writeF_result (r : FReg) (v : Fe) : (s.writeF r v).result = s.result := rfl
@[simp] theorem State.writeF_cause (r : FReg) (v : Fe) : (s.writeF r v).cause = s.cause := rfl
@[simp] theorem State.writeF_finst (r : FReg) (v : Fe) : (s.writeF r v).finst = s.finst := rfl
@[simp] theorem State.writeF_faddr (r : FReg) (v : Fe) : (s.writeF r v).faddr = s.faddr := rfl
@[simp] theorem State.writeF_hacc (r : FReg) (v : Fe) : (s.writeF r v).hacc = s.hacc := rfl
@[simp] theorem State.writeF_irqEn (r : FReg) (v : Fe) : (s.writeF r v).irqEn = s.irqEn := rfl
@[simp] theorem State.writeF_irqPend (r : FReg) (v : Fe) : (s.writeF r v).irqPend = s.irqPend := rfl
@[simp] theorem State.writeF_imem (r : FReg) (v : Fe) : (s.writeF r v).imem = s.imem := rfl
@[simp] theorem State.writeF_dmem (r : FReg) (v : Fe) : (s.writeF r v).dmem = s.dmem := rfl
@[simp] theorem State.writeF_draws (r : FReg) (v : Fe) : (s.writeF r v).draws = s.draws := rfl

/-! ### writeS -/

@[simp] theorem State.writeS_params (r : SReg) (v : Scalar) : (s.writeS r v).params = s.params := rfl
@[simp] theorem State.writeS_f (r : SReg) (v : Scalar) : (s.writeS r v).f = s.f := rfl
@[simp] theorem State.writeS_s (r : SReg) (v : Scalar) : (s.writeS r v).s = s.s.set r ⟨v, true⟩ := rfl
@[simp] theorem State.writeS_p (r : SReg) (v : Scalar) : (s.writeS r v).p = s.p := rfl
@[simp] theorem State.writeS_pc (r : SReg) (v : Scalar) : (s.writeS r v).pc = s.pc := rfl
@[simp] theorem State.writeS_c (r : SReg) (v : Scalar) : (s.writeS r v).c = s.c := rfl
@[simp] theorem State.writeS_runState (r : SReg) (v : Scalar) : (s.writeS r v).runState = s.runState := rfl
@[simp] theorem State.writeS_abrq (r : SReg) (v : Scalar) : (s.writeS r v).abrq = s.abrq := rfl
@[simp] theorem State.writeS_entry (r : SReg) (v : Scalar) : (s.writeS r v).entry = s.entry := rfl
@[simp] theorem State.writeS_result (r : SReg) (v : Scalar) : (s.writeS r v).result = s.result := rfl
@[simp] theorem State.writeS_cause (r : SReg) (v : Scalar) : (s.writeS r v).cause = s.cause := rfl
@[simp] theorem State.writeS_finst (r : SReg) (v : Scalar) : (s.writeS r v).finst = s.finst := rfl
@[simp] theorem State.writeS_faddr (r : SReg) (v : Scalar) : (s.writeS r v).faddr = s.faddr := rfl
@[simp] theorem State.writeS_hacc (r : SReg) (v : Scalar) : (s.writeS r v).hacc = s.hacc := rfl
@[simp] theorem State.writeS_irqEn (r : SReg) (v : Scalar) : (s.writeS r v).irqEn = s.irqEn := rfl
@[simp] theorem State.writeS_irqPend (r : SReg) (v : Scalar) : (s.writeS r v).irqPend = s.irqPend := rfl
@[simp] theorem State.writeS_imem (r : SReg) (v : Scalar) : (s.writeS r v).imem = s.imem := rfl
@[simp] theorem State.writeS_dmem (r : SReg) (v : Scalar) : (s.writeS r v).dmem = s.dmem := rfl
@[simp] theorem State.writeS_draws (r : SReg) (v : Scalar) : (s.writeS r v).draws = s.draws := rfl

/-! ### writeP -/

@[simp] theorem State.writeP_params (r : PReg) (v : Point) : (s.writeP r v).params = s.params := rfl
@[simp] theorem State.writeP_f (r : PReg) (v : Point) : (s.writeP r v).f = s.f := rfl
@[simp] theorem State.writeP_s (r : PReg) (v : Point) : (s.writeP r v).s = s.s := rfl
@[simp] theorem State.writeP_p (r : PReg) (v : Point) : (s.writeP r v).p = s.p.set r ⟨v, true⟩ := rfl
@[simp] theorem State.writeP_pc (r : PReg) (v : Point) : (s.writeP r v).pc = s.pc := rfl
@[simp] theorem State.writeP_c (r : PReg) (v : Point) : (s.writeP r v).c = s.c := rfl
@[simp] theorem State.writeP_runState (r : PReg) (v : Point) : (s.writeP r v).runState = s.runState := rfl
@[simp] theorem State.writeP_abrq (r : PReg) (v : Point) : (s.writeP r v).abrq = s.abrq := rfl
@[simp] theorem State.writeP_entry (r : PReg) (v : Point) : (s.writeP r v).entry = s.entry := rfl
@[simp] theorem State.writeP_result (r : PReg) (v : Point) : (s.writeP r v).result = s.result := rfl
@[simp] theorem State.writeP_cause (r : PReg) (v : Point) : (s.writeP r v).cause = s.cause := rfl
@[simp] theorem State.writeP_finst (r : PReg) (v : Point) : (s.writeP r v).finst = s.finst := rfl
@[simp] theorem State.writeP_faddr (r : PReg) (v : Point) : (s.writeP r v).faddr = s.faddr := rfl
@[simp] theorem State.writeP_hacc (r : PReg) (v : Point) : (s.writeP r v).hacc = s.hacc := rfl
@[simp] theorem State.writeP_irqEn (r : PReg) (v : Point) : (s.writeP r v).irqEn = s.irqEn := rfl
@[simp] theorem State.writeP_irqPend (r : PReg) (v : Point) : (s.writeP r v).irqPend = s.irqPend := rfl
@[simp] theorem State.writeP_imem (r : PReg) (v : Point) : (s.writeP r v).imem = s.imem := rfl
@[simp] theorem State.writeP_dmem (r : PReg) (v : Point) : (s.writeP r v).dmem = s.dmem := rfl
@[simp] theorem State.writeP_draws (r : PReg) (v : Point) : (s.writeP r v).draws = s.draws := rfl

/-! ### setC -/

@[simp] theorem State.setC_params (b : Bool) : (s.setC b).params = s.params := rfl
@[simp] theorem State.setC_f (b : Bool) : (s.setC b).f = s.f := rfl
@[simp] theorem State.setC_s (b : Bool) : (s.setC b).s = s.s := rfl
@[simp] theorem State.setC_p (b : Bool) : (s.setC b).p = s.p := rfl
@[simp] theorem State.setC_pc (b : Bool) : (s.setC b).pc = s.pc := rfl
@[simp] theorem State.setC_c (b : Bool) : (s.setC b).c = b := rfl
@[simp] theorem State.setC_runState (b : Bool) : (s.setC b).runState = s.runState := rfl
@[simp] theorem State.setC_abrq (b : Bool) : (s.setC b).abrq = s.abrq := rfl
@[simp] theorem State.setC_entry (b : Bool) : (s.setC b).entry = s.entry := rfl
@[simp] theorem State.setC_result (b : Bool) : (s.setC b).result = s.result := rfl
@[simp] theorem State.setC_cause (b : Bool) : (s.setC b).cause = s.cause := rfl
@[simp] theorem State.setC_finst (b : Bool) : (s.setC b).finst = s.finst := rfl
@[simp] theorem State.setC_faddr (b : Bool) : (s.setC b).faddr = s.faddr := rfl
@[simp] theorem State.setC_hacc (b : Bool) : (s.setC b).hacc = s.hacc := rfl
@[simp] theorem State.setC_irqEn (b : Bool) : (s.setC b).irqEn = s.irqEn := rfl
@[simp] theorem State.setC_irqPend (b : Bool) : (s.setC b).irqPend = s.irqPend := rfl
@[simp] theorem State.setC_imem (b : Bool) : (s.setC b).imem = s.imem := rfl
@[simp] theorem State.setC_dmem (b : Bool) : (s.setC b).dmem = s.dmem := rfl
@[simp] theorem State.setC_draws (b : Bool) : (s.setC b).draws = s.draws := rfl

/-! ### jump -/

@[simp] theorem State.jump_params (t : BitVec 16) : (s.jump t).params = s.params := rfl
@[simp] theorem State.jump_f (t : BitVec 16) : (s.jump t).f = s.f := rfl
@[simp] theorem State.jump_s (t : BitVec 16) : (s.jump t).s = s.s := rfl
@[simp] theorem State.jump_p (t : BitVec 16) : (s.jump t).p = s.p := rfl
@[simp] theorem State.jump_pc (t : BitVec 16) : (s.jump t).pc = t := rfl
@[simp] theorem State.jump_c (t : BitVec 16) : (s.jump t).c = s.c := rfl
@[simp] theorem State.jump_runState (t : BitVec 16) : (s.jump t).runState = s.runState := rfl
@[simp] theorem State.jump_abrq (t : BitVec 16) : (s.jump t).abrq = s.abrq := rfl
@[simp] theorem State.jump_entry (t : BitVec 16) : (s.jump t).entry = s.entry := rfl
@[simp] theorem State.jump_result (t : BitVec 16) : (s.jump t).result = s.result := rfl
@[simp] theorem State.jump_cause (t : BitVec 16) : (s.jump t).cause = s.cause := rfl
@[simp] theorem State.jump_finst (t : BitVec 16) : (s.jump t).finst = s.finst := rfl
@[simp] theorem State.jump_faddr (t : BitVec 16) : (s.jump t).faddr = s.faddr := rfl
@[simp] theorem State.jump_hacc (t : BitVec 16) : (s.jump t).hacc = s.hacc := rfl
@[simp] theorem State.jump_irqEn (t : BitVec 16) : (s.jump t).irqEn = s.irqEn := rfl
@[simp] theorem State.jump_irqPend (t : BitVec 16) : (s.jump t).irqPend = s.irqPend := rfl
@[simp] theorem State.jump_imem (t : BitVec 16) : (s.jump t).imem = s.imem := rfl
@[simp] theorem State.jump_dmem (t : BitVec 16) : (s.jump t).dmem = s.dmem := rfl
@[simp] theorem State.jump_draws (t : BitVec 16) : (s.jump t).draws = s.draws := rfl

/-! ### advance -/

@[simp] theorem State.advance_params : s.advance.params = s.params := rfl
@[simp] theorem State.advance_f : s.advance.f = s.f := rfl
@[simp] theorem State.advance_s : s.advance.s = s.s := rfl
@[simp] theorem State.advance_p : s.advance.p = s.p := rfl
@[simp] theorem State.advance_pc : s.advance.pc = s.pc + 1 := rfl
@[simp] theorem State.advance_c : s.advance.c = s.c := rfl
@[simp] theorem State.advance_runState : s.advance.runState = s.runState := rfl
@[simp] theorem State.advance_abrq : s.advance.abrq = s.abrq := rfl
@[simp] theorem State.advance_entry : s.advance.entry = s.entry := rfl
@[simp] theorem State.advance_result : s.advance.result = s.result := rfl
@[simp] theorem State.advance_cause : s.advance.cause = s.cause := rfl
@[simp] theorem State.advance_finst : s.advance.finst = s.finst := rfl
@[simp] theorem State.advance_faddr : s.advance.faddr = s.faddr := rfl
@[simp] theorem State.advance_hacc : s.advance.hacc = s.hacc := rfl
@[simp] theorem State.advance_irqEn : s.advance.irqEn = s.irqEn := rfl
@[simp] theorem State.advance_irqPend : s.advance.irqPend = s.irqPend := rfl
@[simp] theorem State.advance_imem : s.advance.imem = s.imem := rfl
@[simp] theorem State.advance_dmem : s.advance.dmem = s.dmem := rfl
@[simp] theorem State.advance_draws : s.advance.draws = s.draws := rfl

/-! ### storeBytes -/

@[simp] theorem State.storeBytes_params (a : Nat) (b : List Byte) : (s.storeBytes a b).params = s.params := rfl
@[simp] theorem State.storeBytes_f (a : Nat) (b : List Byte) : (s.storeBytes a b).f = s.f := rfl
@[simp] theorem State.storeBytes_s (a : Nat) (b : List Byte) : (s.storeBytes a b).s = s.s := rfl
@[simp] theorem State.storeBytes_p (a : Nat) (b : List Byte) : (s.storeBytes a b).p = s.p := rfl
@[simp] theorem State.storeBytes_pc (a : Nat) (b : List Byte) : (s.storeBytes a b).pc = s.pc := rfl
@[simp] theorem State.storeBytes_c (a : Nat) (b : List Byte) : (s.storeBytes a b).c = s.c := rfl
@[simp] theorem State.storeBytes_runState (a : Nat) (b : List Byte) : (s.storeBytes a b).runState = s.runState := rfl
@[simp] theorem State.storeBytes_abrq (a : Nat) (b : List Byte) : (s.storeBytes a b).abrq = s.abrq := rfl
@[simp] theorem State.storeBytes_entry (a : Nat) (b : List Byte) : (s.storeBytes a b).entry = s.entry := rfl
@[simp] theorem State.storeBytes_result (a : Nat) (b : List Byte) : (s.storeBytes a b).result = s.result := rfl
@[simp] theorem State.storeBytes_cause (a : Nat) (b : List Byte) : (s.storeBytes a b).cause = s.cause := rfl
@[simp] theorem State.storeBytes_finst (a : Nat) (b : List Byte) : (s.storeBytes a b).finst = s.finst := rfl
@[simp] theorem State.storeBytes_faddr (a : Nat) (b : List Byte) : (s.storeBytes a b).faddr = s.faddr := rfl
@[simp] theorem State.storeBytes_hacc (a : Nat) (b : List Byte) : (s.storeBytes a b).hacc = s.hacc := rfl
@[simp] theorem State.storeBytes_irqEn (a : Nat) (b : List Byte) : (s.storeBytes a b).irqEn = s.irqEn := rfl
@[simp] theorem State.storeBytes_irqPend (a : Nat) (b : List Byte) : (s.storeBytes a b).irqPend = s.irqPend := rfl
@[simp] theorem State.storeBytes_imem (a : Nat) (b : List Byte) : (s.storeBytes a b).imem = s.imem := rfl
@[simp] theorem State.storeBytes_dmem (a : Nat) (b : List Byte) : (s.storeBytes a b).dmem = s.dmem.writeBytes a b := rfl
@[simp] theorem State.storeBytes_draws (a : Nat) (b : List Byte) : (s.storeBytes a b).draws = s.draws := rfl

/-! ### halt -/

@[simp] theorem State.halt_params (code : BitVec 8) : (s.halt code).params = s.params := rfl
@[simp] theorem State.halt_f (code : BitVec 8) : (s.halt code).f = s.f := rfl
@[simp] theorem State.halt_s (code : BitVec 8) : (s.halt code).s = s.s := rfl
@[simp] theorem State.halt_p (code : BitVec 8) : (s.halt code).p = s.p := rfl
@[simp] theorem State.halt_pc (code : BitVec 8) : (s.halt code).pc = s.pc := rfl
@[simp] theorem State.halt_c (code : BitVec 8) : (s.halt code).c = s.c := rfl
@[simp] theorem State.halt_runState (code : BitVec 8) : (s.halt code).runState = .halted := rfl
@[simp] theorem State.halt_abrq (code : BitVec 8) : (s.halt code).abrq = s.abrq := rfl
@[simp] theorem State.halt_entry (code : BitVec 8) : (s.halt code).entry = s.entry := rfl
@[simp] theorem State.halt_result (code : BitVec 8) : (s.halt code).result = code := rfl
@[simp] theorem State.halt_cause (code : BitVec 8) : (s.halt code).cause = s.cause := rfl
@[simp] theorem State.halt_finst (code : BitVec 8) : (s.halt code).finst = s.finst := rfl
@[simp] theorem State.halt_faddr (code : BitVec 8) : (s.halt code).faddr = s.faddr := rfl
@[simp] theorem State.halt_hacc (code : BitVec 8) : (s.halt code).hacc = s.hacc := rfl
@[simp] theorem State.halt_irqEn (code : BitVec 8) : (s.halt code).irqEn = s.irqEn := rfl
@[simp] theorem State.halt_irqPend (code : BitVec 8) : (s.halt code).irqPend = true := rfl
@[simp] theorem State.halt_imem (code : BitVec 8) : (s.halt code).imem = s.imem := rfl
@[simp] theorem State.halt_dmem (code : BitVec 8) : (s.halt code).dmem = s.dmem := rfl
@[simp] theorem State.halt_draws (code : BitVec 8) : (s.halt code).draws = s.draws := rfl

/-! ### raise -/

@[simp] theorem State.raise_params (c : Cause) (w : Word) (a : BitVec 16) : (s.raise c w a).params = s.params := rfl
@[simp] theorem State.raise_f (c : Cause) (w : Word) (a : BitVec 16) : (s.raise c w a).f = s.f := rfl
@[simp] theorem State.raise_s (c : Cause) (w : Word) (a : BitVec 16) : (s.raise c w a).s = s.s := rfl
@[simp] theorem State.raise_p (c : Cause) (w : Word) (a : BitVec 16) : (s.raise c w a).p = s.p := rfl
@[simp] theorem State.raise_pc (c : Cause) (w : Word) (a : BitVec 16) : (s.raise c w a).pc = s.pc := rfl
@[simp] theorem State.raise_c (c : Cause) (w : Word) (a : BitVec 16) : (s.raise c w a).c = s.c := rfl
@[simp] theorem State.raise_runState (c : Cause) (w : Word) (a : BitVec 16) : (s.raise c w a).runState = .faulted := rfl
@[simp] theorem State.raise_abrq (c : Cause) (w : Word) (a : BitVec 16) : (s.raise c w a).abrq = s.abrq := rfl
@[simp] theorem State.raise_entry (c : Cause) (w : Word) (a : BitVec 16) : (s.raise c w a).entry = s.entry := rfl
@[simp] theorem State.raise_result (c : Cause) (w : Word) (a : BitVec 16) : (s.raise c w a).result = s.result := rfl
@[simp] theorem State.raise_cause (c : Cause) (w : Word) (a : BitVec 16) : (s.raise c w a).cause = c := rfl
@[simp] theorem State.raise_finst (c : Cause) (w : Word) (a : BitVec 16) : (s.raise c w a).finst = w := rfl
@[simp] theorem State.raise_faddr (c : Cause) (w : Word) (a : BitVec 16) : (s.raise c w a).faddr = a := rfl
@[simp] theorem State.raise_hacc (c : Cause) (w : Word) (a : BitVec 16) : (s.raise c w a).hacc = s.hacc := rfl
@[simp] theorem State.raise_irqEn (c : Cause) (w : Word) (a : BitVec 16) : (s.raise c w a).irqEn = s.irqEn := rfl
@[simp] theorem State.raise_irqPend (c : Cause) (w : Word) (a : BitVec 16) : (s.raise c w a).irqPend = true := rfl
@[simp] theorem State.raise_imem (c : Cause) (w : Word) (a : BitVec 16) : (s.raise c w a).imem = s.imem := rfl
@[simp] theorem State.raise_dmem (c : Cause) (w : Word) (a : BitVec 16) : (s.raise c w a).dmem = s.dmem := rfl
@[simp] theorem State.raise_draws (c : Cause) (w : Word) (a : BitVec 16) : (s.raise c w a).draws = s.draws := rfl

/-! ### trap -/

@[simp] theorem State.trap_params (c : Cause) (i : Instr) (a : Nat) : (s.trap c i a).params = s.params := rfl
@[simp] theorem State.trap_f (c : Cause) (i : Instr) (a : Nat) : (s.trap c i a).f = s.f := rfl
@[simp] theorem State.trap_s (c : Cause) (i : Instr) (a : Nat) : (s.trap c i a).s = s.s := rfl
@[simp] theorem State.trap_p (c : Cause) (i : Instr) (a : Nat) : (s.trap c i a).p = s.p := rfl
@[simp] theorem State.trap_pc (c : Cause) (i : Instr) (a : Nat) : (s.trap c i a).pc = s.pc := rfl
@[simp] theorem State.trap_c (c : Cause) (i : Instr) (a : Nat) : (s.trap c i a).c = s.c := rfl
@[simp] theorem State.trap_runState (c : Cause) (i : Instr) (a : Nat) : (s.trap c i a).runState = .faulted := rfl
@[simp] theorem State.trap_abrq (c : Cause) (i : Instr) (a : Nat) : (s.trap c i a).abrq = s.abrq := rfl
@[simp] theorem State.trap_entry (c : Cause) (i : Instr) (a : Nat) : (s.trap c i a).entry = s.entry := rfl
@[simp] theorem State.trap_result (c : Cause) (i : Instr) (a : Nat) : (s.trap c i a).result = s.result := rfl
@[simp] theorem State.trap_cause (c : Cause) (i : Instr) (a : Nat) : (s.trap c i a).cause = c := rfl
@[simp] theorem State.trap_finst (c : Cause) (i : Instr) (a : Nat) : (s.trap c i a).finst = encode i := rfl
@[simp] theorem State.trap_faddr (c : Cause) (i : Instr) (a : Nat) : (s.trap c i a).faddr = BitVec.ofNat 16 a := rfl
@[simp] theorem State.trap_hacc (c : Cause) (i : Instr) (a : Nat) : (s.trap c i a).hacc = s.hacc := rfl
@[simp] theorem State.trap_irqEn (c : Cause) (i : Instr) (a : Nat) : (s.trap c i a).irqEn = s.irqEn := rfl
@[simp] theorem State.trap_irqPend (c : Cause) (i : Instr) (a : Nat) : (s.trap c i a).irqPend = true := rfl
@[simp] theorem State.trap_imem (c : Cause) (i : Instr) (a : Nat) : (s.trap c i a).imem = s.imem := rfl
@[simp] theorem State.trap_dmem (c : Cause) (i : Instr) (a : Nat) : (s.trap c i a).dmem = s.dmem := rfl
@[simp] theorem State.trap_draws (c : Cause) (i : Instr) (a : Nat) : (s.trap c i a).draws = s.draws := rfl

/-! ### takeAbort -/

@[simp] theorem State.takeAbort_params : s.takeAbort.params = s.params := rfl
@[simp] theorem State.takeAbort_f : s.takeAbort.f = s.f := rfl
@[simp] theorem State.takeAbort_s : s.takeAbort.s = s.s := rfl
@[simp] theorem State.takeAbort_p : s.takeAbort.p = s.p := rfl
@[simp] theorem State.takeAbort_pc : s.takeAbort.pc = s.pc := rfl
@[simp] theorem State.takeAbort_c : s.takeAbort.c = s.c := rfl
@[simp] theorem State.takeAbort_runState : s.takeAbort.runState = .faulted := rfl
@[simp] theorem State.takeAbort_abrq : s.takeAbort.abrq = false := rfl
@[simp] theorem State.takeAbort_entry : s.takeAbort.entry = s.entry := rfl
@[simp] theorem State.takeAbort_result : s.takeAbort.result = s.result := rfl
@[simp] theorem State.takeAbort_cause : s.takeAbort.cause = .abort := rfl
@[simp] theorem State.takeAbort_finst : s.takeAbort.finst = 0 := rfl
@[simp] theorem State.takeAbort_faddr : s.takeAbort.faddr = 0 := rfl
@[simp] theorem State.takeAbort_hacc : s.takeAbort.hacc = s.hacc := rfl
@[simp] theorem State.takeAbort_irqEn : s.takeAbort.irqEn = s.irqEn := rfl
@[simp] theorem State.takeAbort_irqPend : s.takeAbort.irqPend = true := rfl
@[simp] theorem State.takeAbort_imem : s.takeAbort.imem = s.imem := rfl
@[simp] theorem State.takeAbort_dmem : s.takeAbort.dmem = s.dmem := rfl
@[simp] theorem State.takeAbort_draws : s.takeAbort.draws = s.draws := rfl

/-! ### start -/

@[simp] theorem State.start_params : s.start.params = s.params := rfl
@[simp] theorem State.start_f : s.start.f = s.f := rfl
@[simp] theorem State.start_s : s.start.s = s.s := rfl
@[simp] theorem State.start_p : s.start.p = s.p := rfl
@[simp] theorem State.start_pc : s.start.pc = s.entry := rfl
@[simp] theorem State.start_c : s.start.c = false := rfl
@[simp] theorem State.start_runState : s.start.runState = .running := rfl
@[simp] theorem State.start_abrq : s.start.abrq = false := rfl
@[simp] theorem State.start_entry : s.start.entry = s.entry := rfl
@[simp] theorem State.start_result : s.start.result = 0 := rfl
@[simp] theorem State.start_cause : s.start.cause = .noException := rfl
@[simp] theorem State.start_finst : s.start.finst = 0 := rfl
@[simp] theorem State.start_faddr : s.start.faddr = 0 := rfl
@[simp] theorem State.start_hacc : s.start.hacc = false := rfl
@[simp] theorem State.start_irqEn : s.start.irqEn = s.irqEn := rfl
@[simp] theorem State.start_irqPend : s.start.irqPend = s.irqPend := rfl
@[simp] theorem State.start_imem : s.start.imem = s.imem := rfl
@[simp] theorem State.start_dmem : s.start.dmem = s.dmem := rfl
@[simp] theorem State.start_draws : s.start.draws = s.draws := rfl

end Sys2Proof.Machine
end

