-- ==== Sys2Proof/Laws/Ops.lean ====
section
/-! SUPPORT. What each shared operation can do, said once: the operand forms, the checks of a data access, and every outcome of
an instruction and of a step. Later proofs cite these and unfold no meaning. -/

namespace Sys2Proof.Machine

/-! ## Operand forms -/

theorem withF_of_valid {i : Instr} {r : FReg} {s : State} (k : Fe → State) (h : s.f[r].valid = true) :
    withF i r s k = k s.f[r].val := if_pos h

theorem withF_of_invalid {i : Instr} {r : FReg} {s : State} (k : Fe → State) (h : s.f[r].valid = false) :
    withF i r s k = s.trap .uninit i 0 := if_neg (Bool.eq_false_iff.mp h)

theorem withS_of_valid {i : Instr} {r : SReg} {s : State} (k : Scalar → State) (h : s.s[r].valid = true) :
    withS i r s k = k s.s[r].val := if_pos h

theorem withS_of_invalid {i : Instr} {r : SReg} {s : State} (k : Scalar → State) (h : s.s[r].valid = false) :
    withS i r s k = s.trap .uninit i 0 := if_neg (Bool.eq_false_iff.mp h)

theorem withP_of_valid {i : Instr} {r : PReg} {s : State} (k : Point → State) (h : s.p[r].valid = true) :
    withP i r s k = k s.p[r].val := if_pos h

theorem withP_of_invalid {i : Instr} {r : PReg} {s : State} (k : Point → State) (h : s.p[r].valid = false) :
    withP i r s k = s.trap .uninit i 0 := if_neg (Bool.eq_false_iff.mp h)

theorem withAddr_of_ok {i : Instr} {n addr : Nat} {s : State} (k : State) (h : s.accessOk addr n) : withAddr i n addr s k = k := by
  simp [withAddr, accessAlign, h.1, h.2]

theorem withAddr_of_misaligned {i : Instr} {n addr : Nat} {s : State} (k : State) (h : addr % 32 ≠ 0) :
    withAddr i n addr s k = s.trap .align i addr := by simp [withAddr, accessAlign, h]

theorem withAddr_of_outside {i : Instr} {n addr : Nat} {s : State} (k : State) (h : addr % 32 = 0)
    (h' : s.params.dmemBytes < addr + n) : withAddr i n addr s k = s.trap .bus i addr := by
  simp [withAddr, accessAlign, h, h']

/-- A source register's form runs its continuation on a valid register, or raises E_UNINIT (R34). -/
theorem withF_cases (i : Instr) (r : FReg) (s : State) (k : Fe → State) :
    (s.f[r].valid = true ∧ withF i r s k = k s.f[r].val) ∨
      (s.f[r].valid = false ∧ withF i r s k = s.trap .uninit i 0) := by
  cases h : s.f[r].valid
  · exact .inr ⟨rfl, withF_of_invalid k h⟩
  · exact .inl ⟨rfl, withF_of_valid k h⟩

theorem withS_cases (i : Instr) (r : SReg) (s : State) (k : Scalar → State) :
    (s.s[r].valid = true ∧ withS i r s k = k s.s[r].val) ∨
      (s.s[r].valid = false ∧ withS i r s k = s.trap .uninit i 0) := by
  cases h : s.s[r].valid
  · exact .inr ⟨rfl, withS_of_invalid k h⟩
  · exact .inl ⟨rfl, withS_of_valid k h⟩

theorem withP_cases (i : Instr) (r : PReg) (s : State) (k : Point → State) :
    (s.p[r].valid = true ∧ withP i r s k = k s.p[r].val) ∨
      (s.p[r].valid = false ∧ withP i r s k = s.trap .uninit i 0) := by
  cases h : s.p[r].valid
  · exact .inr ⟨rfl, withP_of_invalid k h⟩
  · exact .inl ⟨rfl, withP_of_valid k h⟩

/-- An access passes both checks, or raises the first that fails (R76, R77). -/
theorem withAddr_cases (i : Instr) (n addr : Nat) (s : State) (k : State) :
    (s.accessOk addr n ∧ withAddr i n addr s k = k) ∨
      (addr % 32 ≠ 0 ∧ withAddr i n addr s k = s.trap .align i addr) ∨
      (addr % 32 = 0 ∧ s.params.dmemBytes < addr + n ∧ withAddr i n addr s k = s.trap .bus i addr) := by
  by_cases h : addr % 32 = 0
  · by_cases h' : addr + n ≤ s.params.dmemBytes
    · exact .inl ⟨⟨h, h'⟩, withAddr_of_ok k ⟨h, h'⟩⟩
    · exact .inr (.inr ⟨h, by omega, withAddr_of_outside k h (by omega)⟩)
  · exact .inr (.inl ⟨h, withAddr_of_misaligned k h⟩)

/-! ## The state each update leaves, written out -/

theorem State.storeBytes_advance_eq (s : State) (addr : Nat) (b : List Byte) :
    (s.storeBytes addr b).advance = { s with dmem := s.dmem.writeBytes addr b, pc := s.pc + 1 } := rfl

theorem putF_eq (r : FReg) (v : Fe) (s : State) : putF r v s = { s with f := s.f.set r ⟨v, true⟩, pc := s.pc + 1 } := rfl

theorem putS_eq (r : SReg) (v : Scalar) (s : State) : putS r v s = { s with s := s.s.set r ⟨v, true⟩, pc := s.pc + 1 } := rfl

theorem putP_eq (r : PReg) (q : Point) (s : State) : putP r q s = { s with p := s.p.set r ⟨q, true⟩, pc := s.pc + 1 } := rfl

theorem compare_eq (b : Bool) (s : State) : compare b s = { s with c := b, pc := s.pc + 1 } := rfl

theorem branch_eq (taken : Bool) (off : Int) (s : State) :
    branch taken off s = { s with pc := if taken = true then branchTarget s.pc off else s.pc + 1 } := by
  cases taken <;> rfl

theorem State.trap_eq_afterTrap (s : State) (c : Cause) (i : Instr) (addr : Nat) : s.trap c i addr = s.afterTrap c i addr := rfl

/-! ## Every outcome of an instruction -/

/-- The immediate of a memory format (R105), the data address an exception records. -/
def dataAddress : Instr → Nat
  | .feLd _ addr | .feSt _ addr | .scLd _ addr | .scSt _ addr | .scLdh _ addr | .ptDec _ addr | .ptEnc _ addr => addr
  | .halt _ | .j _ | .bc _ | .bnc _ | .feLdi _ _ | .feMov _ _ | .feAdd _ _ _ | .feSub _ _ _ | .feMul _ _ _
  | .feSqr _ _ | .feInv _ _ | .feNeg _ _ | .feEq _ _ | .scRed _ _ | .scAdd _ _ _ | .scMul _ _ _
  | .scMulAdd _ _ _ _ | .scClamp _ _ | .scLtl _ | .ptId _ | .ptAdd _ _ _ | .ptDbl _ _ | .ptSmulb _ _
  | .ptSmul _ _ _ | .ptEq _ _ | .ptGetx _ _ | .ptGety _ _ | .ptFromxy _ _ _ => 0

/-- Where the value that an instruction writes to a point register comes from. Each of these is a point of the curve if the
sources are. -/
inductive PointResult (s : State) : Point → Prop where
  | decoded {b : List Byte} {q : Point} : dec b = some q → PointResult s q
  | identity : PointResult s Point.identity
  | sum (a b : PReg) : PointResult s (padd s.p[a].val s.p[b].val)
  | baseMultiple (n : Nat) : PointResult s (smul n basePoint)
  | multiple (n : Nat) (a : PReg) : PointResult s (smul n s.p[a].val)
  | checked {q : Point} : OnCurve q → PointResult s q

/-- The outcomes of an instruction i in state s. -/
inductive Outcome (i : Instr) (s : State) : State → Prop where
  | uninit : Outcome i s (s.trap .uninit i 0)
  | notOnCurve : Outcome i s (s.trap .notOnCurve i 0)
  | align (n : Nat) : reads i = some (dataAddress i, n) ∨ stores i = some (dataAddress i, n) → dataAddress i % 32 ≠ 0 →
      Outcome i s (s.trap .align i (dataAddress i))
  | bus (n : Nat) : reads i = some (dataAddress i, n) ∨ stores i = some (dataAddress i, n) → dataAddress i % 32 = 0 →
      s.params.dmemBytes < dataAddress i + n → Outcome i s (s.trap .bus i (dataAddress i))
  | decode (n : Nat) : reads i = some (dataAddress i, n) → Outcome i s (s.trap .decode i (dataAddress i))
  | halt (code : Nat) : i = .halt code → Outcome i s (s.halt (BitVec.ofNat 8 code))
  | jump (off : Int) : i = .j off ∨ (i = .bc off ∧ s.c = true) ∨ (i = .bnc off ∧ s.c = false) →
      Outcome i s (s.jump (branchTarget s.pc off))
  | notTaken (off : Int) : (i = .bc off ∧ s.c = false) ∨ (i = .bnc off ∧ s.c = true) → Outcome i s s.advance
  | compare (b : Bool) : (∃ fa fb, i = .feEq fa fb) ∨ (∃ sa, i = .scLtl sa) ∨ (∃ pa pb, i = .ptEq pa pb) →
      Outcome i s (s.setC b).advance
  | writeF (r : FReg) (v : Fe) : destF i = some r → Outcome i s (s.writeF r v).advance
  | writeS (r : SReg) (v : Scalar) : destS i = some r → Outcome i s (s.writeS r v).advance
  | writeP (r : PReg) (q : Point) : destP i = some r → PointResult s q → Outcome i s (s.writeP r q).advance
  | store (addr : Nat) (b : List Byte) : stores i = some (addr, 32) → s.accessOk addr 32 → b.length = 32 →
      Outcome i s (s.storeBytes addr b).advance

theorem Outcome.withF {i : Instr} {r : FReg} {s : State} {k : Fe → State} (h : Outcome i s (k s.f[r].val)) :
    Outcome i s (withF i r s k) := by
  rcases withF_cases i r s k with ⟨-, e⟩ | ⟨-, e⟩ <;> rw [e]
  · exact h
  · exact .uninit

theorem Outcome.withS {i : Instr} {r : SReg} {s : State} {k : Scalar → State} (h : Outcome i s (k s.s[r].val)) :
    Outcome i s (withS i r s k) := by
  rcases withS_cases i r s k with ⟨-, e⟩ | ⟨-, e⟩ <;> rw [e]
  · exact h
  · exact .uninit

theorem Outcome.withP {i : Instr} {r : PReg} {s : State} {k : Point → State} (h : Outcome i s (k s.p[r].val)) :
    Outcome i s (withP i r s k) := by
  rcases withP_cases i r s k with ⟨-, e⟩ | ⟨-, e⟩ <;> rw [e]
  · exact h
  · exact .uninit

theorem Outcome.withAddr {i : Instr} {n addr : Nat} {s k : State}
    (hi : reads i = some (addr, n) ∨ stores i = some (addr, n)) (ha : dataAddress i = addr)
    (h : s.accessOk addr n → Outcome i s k) : Outcome i s (withAddr i n addr s k) := by
  subst ha
  rcases withAddr_cases i n (dataAddress i) s k with ⟨ok, e⟩ | ⟨bad, e⟩ | ⟨al, bad, e⟩ <;> rw [e]
  · exact h ok
  · exact .align n hi bad
  · exact .bus n hi al bad

theorem Outcome.withBytes {i : Instr} {n addr : Nat} {s : State} {k : List Byte → State}
    (hi : reads i = some (addr, n)) (ha : dataAddress i = addr) (h : ∀ b : List Byte, Outcome i s (k b)) :
    Outcome i s (withBytes i n addr s k) := .withAddr (.inl hi) ha fun _ => h _

theorem Outcome.storeTo {i : Instr} {addr : Nat} {b : List Byte} {s : State} (hi : stores i = some (addr, 32))
    (ha : dataAddress i = addr) (hb : b.length = 32) : Outcome i s (storeTo i addr b s) :=
  .withAddr (.inr hi) ha fun ok => .store addr b hi ok hb

theorem enc_length (q : Point) : (enc q).length = 32 := leBytes_length ..

/-- Every instruction answers a next state, and it is one of the outcomes. -/
theorem exec_outcome (i : Instr) (s : State) : ∃ t, exec i s = .next t ∧ Outcome i s t := by
  cases i with
  | halt code => exact ⟨_, rfl, .halt code rfl⟩
  | j off => exact ⟨_, rfl, .jump off (.inl rfl)⟩
  | bc off =>
    refine ⟨_, rfl, ?_⟩
    cases h : s.c
    · exact .notTaken off (.inl ⟨rfl, h⟩)
    · exact .jump off (.inr (.inl ⟨rfl, h⟩))
  | bnc off =>
    refine ⟨_, rfl, ?_⟩
    cases h : s.c
    · exact .jump off (.inr (.inr ⟨rfl, h⟩))
    · exact .notTaken off (.inr ⟨rfl, h⟩)
  | feLd fd addr => exact ⟨_, rfl, .withBytes rfl rfl fun _ => .writeF fd _ rfl⟩
  | feSt fa addr => exact ⟨_, rfl, .withF (.storeTo rfl rfl (leBytes_length ..))⟩
  | feLdi fd imm => exact ⟨_, rfl, .writeF fd _ rfl⟩
  | feMov fd fa => exact ⟨_, rfl, .withF (.writeF fd _ rfl)⟩
  | feAdd fd fa fb => exact ⟨_, rfl, .withF (.withF (.writeF fd _ rfl))⟩
  | feSub fd fa fb => exact ⟨_, rfl, .withF (.withF (.writeF fd _ rfl))⟩
  | feMul fd fa fb => exact ⟨_, rfl, .withF (.withF (.writeF fd _ rfl))⟩
  | feSqr fd fa => exact ⟨_, rfl, .withF (.writeF fd _ rfl)⟩
  | feInv fd fa => exact ⟨_, rfl, .withF (.writeF fd _ rfl)⟩
  | feNeg fd fa => exact ⟨_, rfl, .withF (.writeF fd _ rfl)⟩
  | feEq fa fb => exact ⟨_, rfl, .withF (.withF (.compare _ (.inl ⟨fa, fb, rfl⟩)))⟩
  | scLd sd addr => exact ⟨_, rfl, .withBytes rfl rfl fun _ => .writeS sd _ rfl⟩
  | scSt sa addr => exact ⟨_, rfl, .withS (.storeTo rfl rfl (leBytes_length ..))⟩
  | scLdh sd addr => exact ⟨_, rfl, .withBytes rfl rfl fun _ => .writeS sd _ rfl⟩
  | scRed sd sa => exact ⟨_, rfl, .withS (.writeS sd _ rfl)⟩
  | scAdd sd sa sb => exact ⟨_, rfl, .withS (.withS (.writeS sd _ rfl))⟩
  | scMul sd sa sb => exact ⟨_, rfl, .withS (.withS (.writeS sd _ rfl))⟩
  | scMulAdd sd sa sb sc => exact ⟨_, rfl, .withS (.withS (.withS (.writeS sd _ rfl)))⟩
  | scClamp sd sa => exact ⟨_, rfl, .withS (.writeS sd _ rfl)⟩
  | scLtl sa => exact ⟨_, rfl, .withS (.compare _ (.inr (.inl ⟨sa, rfl⟩)))⟩
  | ptDec pd addr =>
    refine ⟨_, rfl, .withBytes rfl rfl fun b => ?_⟩
    cases h : dec b with
    | none => exact .decode 32 rfl
    | some q => exact .writeP pd q rfl (.decoded h)
  | ptEnc pa addr => exact ⟨_, rfl, .withP (.storeTo rfl rfl (enc_length _))⟩
  | ptId pd => exact ⟨_, rfl, .writeP pd _ rfl .identity⟩
  | ptAdd pd pa pb => exact ⟨_, rfl, .withP (.withP (.writeP pd _ rfl (.sum pa pb)))⟩
  | ptDbl pd pa => exact ⟨_, rfl, .withP (.writeP pd _ rfl (.sum pa pa))⟩
  | ptSmulb pd sa => exact ⟨_, rfl, .withS (.writeP pd _ rfl (.baseMultiple _))⟩
  | ptSmul pd sa pb => exact ⟨_, rfl, .withS (.withP (.writeP pd _ rfl (.multiple _ pb)))⟩
  | ptEq pa pb => exact ⟨_, rfl, .withP (.withP (.compare _ (.inr (.inr ⟨pa, pb, rfl⟩))))⟩
  | ptGetx fd pa => exact ⟨_, rfl, .withP (.writeF fd _ rfl)⟩
  | ptGety fd pa => exact ⟨_, rfl, .withP (.writeF fd _ rfl)⟩
  | ptFromxy pd fa fb =>
    refine ⟨_, rfl, .withF (.withF ?_)⟩
    split
    · exact .writeP pd _ rfl (.checked ‹_›)
    · exact .notOnCurve

/-- What an instruction that answers t has done. -/
theorem Outcome.of_exec {i : Instr} {s t : State} (h : exec i s = .next t) : Outcome i s t := by
  obtain ⟨t', e, o⟩ := exec_outcome i s
  cases e.symm.trans h
  exact o

/-! ## Every outcome of a step (R134) -/

inductive StepOutcome (s : State) : State → Prop where
  | stopped : s.runState ≠ .running → StepOutcome s s
  | abort : s.runState = .running → s.abrq = true → StepOutcome s s.takeAbort
  | fetch : s.runState = .running → s.abrq = false → s.params.imemWords ≤ s.pc.toNat → StepOutcome s (s.raise .fetch 0 0)
  | illegal (e : DecodeError) : s.runState = .running → s.abrq = false → s.pc.toNat < s.params.imemWords →
      decode s.fetchWord = .error e → StepOutcome s (s.raise .illegal s.fetchWord 0)
  | executed (i : Instr) (t : State) : s.runState = .running → s.abrq = false → s.pc.toNat < s.params.imemWords →
      decode s.fetchWord = .ok i → exec i s = .next t → StepOutcome s t

/-- Every step answers a next state, and it is one of the outcomes. -/
theorem step_outcome (s : State) : ∃ t, step s = .next t ∧ StepOutcome s t := by
  unfold step
  split
  · exact ⟨_, rfl, .stopped ‹_›⟩
  · rename_i hr
    have hr : s.runState = .running := Decidable.not_not.mp hr
    split
    · exact ⟨_, rfl, .abort hr ‹_›⟩
    · rename_i ha
      have ha : s.abrq = false := by simpa using ha
      split
      · exact ⟨_, rfl, .fetch hr ha ‹_›⟩
      · rename_i hp
        have hp : s.pc.toNat < s.params.imemWords := Nat.not_le.mp hp
        cases hd : decode s.fetchWord with
        | error e => exact ⟨_, rfl, .illegal e hr ha hp hd⟩
        | ok i =>
          obtain ⟨t, e, -⟩ := exec_outcome i s
          exact ⟨t, e, .executed i t hr ha hp hd e⟩

/-- What a step that answers t has done. -/
theorem StepOutcome.of_step {s t : State} (h : step s = .next t) : StepOutcome s t := by
  obtain ⟨t', e, o⟩ := step_outcome s
  cases e.symm.trans h
  exact o

/-! ## Resets -/

@[simp] theorem State.softReset_params (s : State) : s.softReset.params = s.params := rfl
@[simp] theorem State.softReset_imem (s : State) : s.softReset.imem = s.imem := rfl
@[simp] theorem State.softReset_dmem (s : State) : s.softReset.dmem = s.dmem := rfl
@[simp] theorem State.softReset_draws (s : State) : s.softReset.draws = s.draws + 1 := rfl
@[simp] theorem State.hardwareReset_params (s : State) : s.hardwareReset.params = s.params := rfl
@[simp] theorem State.hardwareReset_imem (s : State) : s.hardwareReset.imem = Mem.drawn 32 (s.draws + 1) := rfl
@[simp] theorem State.hardwareReset_dmem (s : State) : s.hardwareReset.dmem = Mem.drawn 8 (s.draws + 1) := rfl
@[simp] theorem State.hardwareReset_draws (s : State) : s.hardwareReset.draws = s.draws + 1 := rfl

/-- No register is valid after a reset (R290). -/
theorem State.afterReset_valid (c : Params) (g : RegDraw) (m : Mem 32) (d : Mem 8) (n : Nat) (r : Fin 16) :
    (State.afterReset c g m d n).f[r].valid = false ∧ (State.afterReset c g m d n).s[r].valid = false ∧
      (State.afterReset c g m d n).p[r].valid = false := by
  simp [State.afterReset]

/-- The point registers a reset leaves are points of the curve (R33). -/
theorem RegDraw.free_onCurve (n : Nat) (r : PReg) : OnCurve ((RegDraw.free n).p r) := by
  unfold RegDraw.free
  dsimp only
  split
  · assumption
  · decide +kernel

end Sys2Proof.Machine
end

