-- ==== Sys2Proof/Laws/PerInstr.lean ====
section
/-! SUPPORT. One family of lemmas over all instructions: the encoding of every instruction carries its own row of the opcode table
(30_encoding.md R111), whatever its operands. -/

namespace Sys2Proof

/-! ## Each layout under the mask of its format -/

theorem and_0xFF (op : BitVec 8) : op &&& 0xFF#8 = op := BitVec.and_allOnes

theorem append6_and (a a' : BitVec 8) (b b' c c' d d' e e' : BitVec 4) (f f' : BitVec 8) :
    (a ++ b ++ c ++ d ++ e ++ f) &&& (a' ++ b' ++ c' ++ d' ++ e' ++ f') =
      (a &&& a') ++ (b &&& b') ++ (c &&& c') ++ (d &&& d') ++ (e &&& e') ++ (f &&& f') := by
  simp only [BitVec.and_append]

theorem append4_and (a a' : BitVec 8) (b b' c c' : BitVec 4) (d d' : BitVec 16) :
    (a ++ b ++ c ++ d) &&& (a' ++ b' ++ c' ++ d') = (a &&& a') ++ (b &&& b') ++ (c &&& c') ++ (d &&& d') := by
  simp only [BitVec.and_append]

theorem append3_and {m n : Nat} (a a' : BitVec 8) (b b' : BitVec m) (c c' : BitVec n) :
    (a ++ b ++ c) &&& (a' ++ b' ++ c') = (a &&& a') ++ (b &&& b') ++ (c &&& c') := by
  simp only [BitVec.and_append]

theorem encodeR_and_maskR4 (op : BitVec 8) (rd ra rb rc : BitVec 4) :
    encodeR op rd ra rb rc &&& maskR4 = encodeR op 0 0 0 0 := by
  rw [show maskR4 = 0xFF#8 ++ 0#4 ++ 0#4 ++ 0#4 ++ 0#4 ++ 0xFF#8 by decide]
  exact (append6_and ..).trans (by simp [encodeR, and_0xFF])

theorem encodeR_and_maskR3 (op : BitVec 8) (rd ra rb : BitVec 4) :
    encodeR op rd ra rb 0 &&& maskR3 = encodeR op 0 0 0 0 := by
  rw [show maskR3 = 0xFF#8 ++ 0#4 ++ 0#4 ++ 0#4 ++ 0xF#4 ++ 0xFF#8 by decide]
  exact (append6_and ..).trans (by simp [encodeR, and_0xFF])

theorem encodeR_and_maskR2 (op : BitVec 8) (rd ra : BitVec 4) :
    encodeR op rd ra 0 0 &&& maskR2 = encodeR op 0 0 0 0 := by
  rw [show maskR2 = 0xFF#8 ++ 0#4 ++ 0#4 ++ 0xF#4 ++ 0xF#4 ++ 0xFF#8 by decide]
  exact (append6_and ..).trans (by simp [encodeR, and_0xFF])

theorem encodeR_and_maskRab (op : BitVec 8) (ra rb : BitVec 4) :
    encodeR op 0 ra rb 0 &&& maskRab = encodeR op 0 0 0 0 := by
  rw [show maskRab = 0xFF#8 ++ 0xF#4 ++ 0#4 ++ 0#4 ++ 0xF#4 ++ 0xFF#8 by decide]
  exact (append6_and ..).trans (by simp [encodeR, and_0xFF])

theorem encodeR_and_maskRa (op : BitVec 8) (ra : BitVec 4) :
    encodeR op 0 ra 0 0 &&& maskRa = encodeR op 0 0 0 0 := by
  rw [show maskRa = 0xFF#8 ++ 0xF#4 ++ 0#4 ++ 0xF#4 ++ 0xF#4 ++ 0xFF#8 by decide]
  exact (append6_and ..).trans (by simp [encodeR, and_0xFF])

theorem encodeR_and_maskRd (op : BitVec 8) (rd : BitVec 4) :
    encodeR op rd 0 0 0 &&& maskRd = encodeR op 0 0 0 0 := by
  rw [show maskRd = 0xFF#8 ++ 0#4 ++ 0xF#4 ++ 0xF#4 ++ 0xF#4 ++ 0xFF#8 by decide]
  exact (append6_and ..).trans (by simp [encodeR, and_0xFF])

theorem encodeM_and_maskM (op : BitVec 8) (r : BitVec 4) (n : BitVec 16) :
    encodeM op r n &&& maskM = encodeM op 0 0 := by
  rw [show maskM = 0xFF#8 ++ 0#4 ++ 0xF#4 ++ 0#16 by decide]
  exact (append4_and ..).trans (by simp [encodeM, and_0xFF])

theorem encodeB_and_maskB (op : BitVec 8) (off : BitVec 16) : encodeB op off &&& maskB = encodeB op 0 := by
  rw [show maskB = 0xFF#8 ++ 0xFF#8 ++ 0#16 by decide]
  exact (append3_and ..).trans (by simp [encodeB, and_0xFF])

theorem encodeH_and_maskH (op : BitVec 8) (code : BitVec 8) : encodeH op code &&& maskH = encodeH op 0 := by
  rw [show maskH = 0xFF#8 ++ 0xFFFF#16 ++ 0#8 by decide]
  exact (append3_and ..).trans (by simp [encodeH, and_0xFF])

/-! ## The family -/

namespace Laws.EncodingMatchesRow

/-- The instruction's word matches the row of the opcode table that has its mnemonic. -/
def Statement (i : Instr) : Prop := ∃ row ∈ opcodeTable, row.mnemonic = i.mnemonic ∧ row.holds (encode i) = true

/-- The row at a place of the table, for an instruction whose word matches it. -/
theorem of_row (k : Fin 35) (i : Instr) (hm : (opcodeTable[k]).mnemonic = i.mnemonic)
    (hw : encode i &&& (opcodeTable[k]).mask = (opcodeTable[k]).pattern) : Statement i :=
  ⟨opcodeTable[k], List.getElem_mem _, hm, by simpa [OpcodeRow.holds] using hw⟩

theorem halt (code : Nat) : Statement (.halt code) :=
  of_row 0 _ rfl ((encodeH_and_maskH _ _ ).trans (by decide))

theorem j (off : Int) : Statement (.j off) :=
  of_row 1 _ rfl ((encodeB_and_maskB _ _ ).trans (by decide))

theorem bc (off : Int) : Statement (.bc off) :=
  of_row 2 _ rfl ((encodeB_and_maskB _ _ ).trans (by decide))

theorem bnc (off : Int) : Statement (.bnc off) :=
  of_row 3 _ rfl ((encodeB_and_maskB _ _ ).trans (by decide))

theorem feLd (fd : FReg) (addr : Nat) : Statement (.feLd fd addr) :=
  of_row 4 _ rfl ((encodeM_and_maskM _ _ _ ).trans (by decide))

theorem feSt (fa : FReg) (addr : Nat) : Statement (.feSt fa addr) :=
  of_row 5 _ rfl ((encodeM_and_maskM _ _ _ ).trans (by decide))

theorem feLdi (fd : FReg) (imm : Nat) : Statement (.feLdi fd imm) :=
  of_row 6 _ rfl ((encodeM_and_maskM _ _ _ ).trans (by decide))

theorem feMov (fd : FReg) (fa : FReg) : Statement (.feMov fd fa) :=
  of_row 7 _ rfl ((encodeR_and_maskR2 _ _ _ ).trans (by decide))

theorem feAdd (fd : FReg) (fa : FReg) (fb : FReg) : Statement (.feAdd fd fa fb) :=
  of_row 8 _ rfl ((encodeR_and_maskR3 _ _ _ _ ).trans (by decide))

theorem feSub (fd : FReg) (fa : FReg) (fb : FReg) : Statement (.feSub fd fa fb) :=
  of_row 9 _ rfl ((encodeR_and_maskR3 _ _ _ _ ).trans (by decide))

theorem feMul (fd : FReg) (fa : FReg) (fb : FReg) : Statement (.feMul fd fa fb) :=
  of_row 10 _ rfl ((encodeR_and_maskR3 _ _ _ _ ).trans (by decide))

theorem feSqr (fd : FReg) (fa : FReg) : Statement (.feSqr fd fa) :=
  of_row 11 _ rfl ((encodeR_and_maskR2 _ _ _ ).trans (by decide))

theorem feInv (fd : FReg) (fa : FReg) : Statement (.feInv fd fa) :=
  of_row 12 _ rfl ((encodeR_and_maskR2 _ _ _ ).trans (by decide))

theorem feNeg (fd : FReg) (fa : FReg) : Statement (.feNeg fd fa) :=
  of_row 13 _ rfl ((encodeR_and_maskR2 _ _ _ ).trans (by decide))

theorem feEq (fa : FReg) (fb : FReg) : Statement (.feEq fa fb) :=
  of_row 14 _ rfl ((encodeR_and_maskRab _ _ _ ).trans (by decide))

theorem scLd (sd : SReg) (addr : Nat) : Statement (.scLd sd addr) :=
  of_row 15 _ rfl ((encodeM_and_maskM _ _ _ ).trans (by decide))

theorem scSt (sa : SReg) (addr : Nat) : Statement (.scSt sa addr) :=
  of_row 16 _ rfl ((encodeM_and_maskM _ _ _ ).trans (by decide))

theorem scLdh (sd : SReg) (addr : Nat) : Statement (.scLdh sd addr) :=
  of_row 17 _ rfl ((encodeM_and_maskM _ _ _ ).trans (by decide))

theorem scRed (sd : SReg) (sa : SReg) : Statement (.scRed sd sa) :=
  of_row 18 _ rfl ((encodeR_and_maskR2 _ _ _ ).trans (by decide))

theorem scAdd (sd : SReg) (sa : SReg) (sb : SReg) : Statement (.scAdd sd sa sb) :=
  of_row 19 _ rfl ((encodeR_and_maskR3 _ _ _ _ ).trans (by decide))

theorem scMul (sd : SReg) (sa : SReg) (sb : SReg) : Statement (.scMul sd sa sb) :=
  of_row 20 _ rfl ((encodeR_and_maskR3 _ _ _ _ ).trans (by decide))

theorem scMulAdd (sd : SReg) (sa : SReg) (sb : SReg) (sc : SReg) : Statement (.scMulAdd sd sa sb sc) :=
  of_row 21 _ rfl ((encodeR_and_maskR4 _ _ _ _ _ ).trans (by decide))

theorem scClamp (sd : SReg) (sa : SReg) : Statement (.scClamp sd sa) :=
  of_row 22 _ rfl ((encodeR_and_maskR2 _ _ _ ).trans (by decide))

theorem scLtl (sa : SReg) : Statement (.scLtl sa) :=
  of_row 23 _ rfl ((encodeR_and_maskRa _ _ ).trans (by decide))

theorem ptDec (pd : PReg) (addr : Nat) : Statement (.ptDec pd addr) :=
  of_row 24 _ rfl ((encodeM_and_maskM _ _ _ ).trans (by decide))

theorem ptEnc (pa : PReg) (addr : Nat) : Statement (.ptEnc pa addr) :=
  of_row 25 _ rfl ((encodeM_and_maskM _ _ _ ).trans (by decide))

theorem ptId (pd : PReg) : Statement (.ptId pd) :=
  of_row 26 _ rfl ((encodeR_and_maskRd _ _ ).trans (by decide))

theorem ptAdd (pd : PReg) (pa : PReg) (pb : PReg) : Statement (.ptAdd pd pa pb) :=
  of_row 27 _ rfl ((encodeR_and_maskR3 _ _ _ _ ).trans (by decide))

theorem ptDbl (pd : PReg) (pa : PReg) : Statement (.ptDbl pd pa) :=
  of_row 28 _ rfl ((encodeR_and_maskR2 _ _ _ ).trans (by decide))

theorem ptSmulb (pd : PReg) (sa : SReg) : Statement (.ptSmulb pd sa) :=
  of_row 29 _ rfl ((encodeR_and_maskR2 _ _ _ ).trans (by decide))

theorem ptSmul (pd : PReg) (sa : SReg) (pb : PReg) : Statement (.ptSmul pd sa pb) :=
  of_row 30 _ rfl ((encodeR_and_maskR3 _ _ _ _ ).trans (by decide))

theorem ptEq (pa : PReg) (pb : PReg) : Statement (.ptEq pa pb) :=
  of_row 31 _ rfl ((encodeR_and_maskRab _ _ _ ).trans (by decide))

theorem ptGetx (fd : FReg) (pa : PReg) : Statement (.ptGetx fd pa) :=
  of_row 32 _ rfl ((encodeR_and_maskR2 _ _ _ ).trans (by decide))

theorem ptGety (fd : FReg) (pa : PReg) : Statement (.ptGety fd pa) :=
  of_row 33 _ rfl ((encodeR_and_maskR2 _ _ _ ).trans (by decide))

theorem ptFromxy (pd : PReg) (fa : FReg) (fb : FReg) : Statement (.ptFromxy pd fa fb) :=
  of_row 34 _ rfl ((encodeR_and_maskR3 _ _ _ _ ).trans (by decide))

end Laws.EncodingMatchesRow

end Sys2Proof
end

