-- ==== Sys2Proof/Laws/Window.lean ====
section
/-! SUPPORT. What a host access can do, said once: the regions of the window, a read, and every outcome of a write; and what weak
fairness gives. -/

namespace Sys2Proof.Machine

/-! ## The map of R85 -/

/-- The region of an offset, with the bounds that put it there. -/
theorem regionOf_cases (off : BitVec 20) :
    (off.toNat < 0x100 ∧ regionOf off = .hostReg off.toNat) ∨
    (0x10000 ≤ off.toNat ∧ off.toNat < 0x20000 ∧ regionOf off = .dmem (off.toNat - 0x10000)) ∨
    (0x40000 ≤ off.toNat ∧ off.toNat < 0x80000 ∧ regionOf off = .imem ((off.toNat - 0x40000) / 4)) ∨
    (((0x100 ≤ off.toNat ∧ off.toNat < 0x10000) ∨ (0x20000 ≤ off.toNat ∧ off.toNat < 0x40000) ∨ 0x80000 ≤ off.toNat) ∧
      regionOf off = .reserved) := by
  simp only [regionOf]
  by_cases h1 : off.toNat < 0x100
  · exact .inl ⟨h1, if_pos h1⟩
  rw [if_neg h1]
  by_cases h2 : off.toNat < 0x10000
  · exact .inr (.inr (.inr ⟨by omega, if_pos h2⟩))
  rw [if_neg h2]
  by_cases h3 : off.toNat < 0x20000
  · exact .inr (.inl ⟨by omega, h3, if_pos h3⟩)
  rw [if_neg h3]
  by_cases h4 : off.toNat < 0x40000
  · exact .inr (.inr (.inr ⟨by omega, if_pos h4⟩))
  rw [if_neg h4]
  by_cases h5 : off.toNat < 0x80000
  · exact .inr (.inr (.inl ⟨by omega, h5, if_pos h5⟩))
  rw [if_neg h5]
  exact .inr (.inr (.inr ⟨by omega, rfl⟩))

theorem accessActs_iff (off : BitVec 20) (bytes : Nat) : accessActs off bytes = true ↔ bytes = 4 ∧ off.toNat % 4 = 0 := by
  simp [accessActs]

/-- DMEM_BYTES is a multiple of 4, so an aligned host word in range lies in range whole. -/
theorem dmemBytes_mod_four (c : Params) : c.dmemBytes % 4 = 0 := by
  have : c.dmemBytes = 4 * 2 ^ (c.dmemLog2Less6.val + 4) := by
    simp only [Params.dmemBytes, Params.dmemLog2, pow_add]; omega
  omega

/-! ## A read -/

/-- A host read changes nothing, but for HACC where it is refused (R82, R87). -/
theorem hostRead_state (off : BitVec 20) (bytes : Nat) (s : State) :
    (hostRead off bytes s).2 = s ∨ (s.runState = .running ∧ (hostRead off bytes s).2 = s.refuseAccess) := by
  unfold hostRead
  split
  · split
    · exact .inl rfl
    · split
      · exact .inr ⟨‹_›, rfl⟩
      · split <;> exact .inl rfl
    · split
      · exact .inr ⟨‹_›, rfl⟩
      · split <;> exact .inl rfl
    · exact .inl rfl
  · exact .inl rfl

/-! ## A write -/

/-- The outcomes of a host write. -/
inductive WriteOutcome (off : BitVec 20) (bytes : Nat) (v : Word) (s : State) : State → Prop where
  | nothing : WriteOutcome off bytes v s s
  | softReset : off = 0x04 → bytes = 4 → v.getLsbD 2 = true → WriteOutcome off bytes v s s.softReset
  | abort : off = 0x04 → bytes = 4 → v.getLsbD 1 = true → s.runState = .running →
      WriteOutcome off bytes v s { s with abrq := true }
  | start : off = 0x04 → bytes = 4 → v.getLsbD 0 = true → s.runState ≠ .running → WriteOutcome off bytes v s s.start
  | refused : s.runState = .running → WriteOutcome off bytes v s s.refuseAccess
  | entry : off = 0x0C → bytes = 4 → WriteOutcome off bytes v s { s with entry := v.setWidth 16 }
  | irqEn : off = 0x1C → bytes = 4 → WriteOutcome off bytes v s { s with irqEn := v.getLsbD 0 }
  | clearDone : off = 0x20 → bytes = 4 → v.getLsbD 0 = true → WriteOutcome off bytes v s { s with irqPend := false }
  | dmem (a : Nat) : s.runState ≠ .running → bytes = 4 → a + 4 ≤ s.params.dmemBytes →
      WriteOutcome off bytes v s (s.storeBytes a (leBytes 4 v.toNat))
  | imem (i : Nat) : s.runState ≠ .running → bytes = 4 → i < s.params.imemWords →
      WriteOutcome off bytes v s { s with imem := s.imem.write i v }

theorem writeCtrl_outcome (v : Word) (s : State) : WriteOutcome 0x04 4 v s (s.writeCtrl v) := by
  unfold State.writeCtrl
  split
  · exact .softReset rfl rfl ‹_›
  · split
    · split
      · exact .abort rfl rfl ‹_› ‹_›
      · exact .nothing
    · split
      · split
        · exact .refused ‹_›
        · exact .start rfl rfl ‹_› ‹_›
      · exact .nothing

/-- A host write does one of these, and nothing else. -/
theorem hostWrite_outcome (off : BitVec 20) (bytes : Nat) (v : Word) (s : State) :
    WriteOutcome off bytes v s (hostWrite off bytes v s) := by
  unfold hostWrite
  split
  · obtain ⟨rfl, hal⟩ := (accessActs_iff off bytes).mp ‹_›
    rcases regionOf_cases off with ⟨hb, hr⟩ | ⟨lo, hi, hr⟩ | ⟨lo, hi, hr⟩ | ⟨-, hr⟩ <;> rw [hr] <;> dsimp only
    · have ofNat : ∀ n, off.toNat = n → off = BitVec.ofNat 20 n := fun n h => by rw [← h, BitVec.ofNat_toNat, BitVec.setWidth_eq]
      unfold State.writeHostReg
      split
      · have h := ofNat _ ‹_›
        subst h
        exact writeCtrl_outcome v s
      · exact .entry (ofNat _ ‹_›) rfl
      · exact .irqEn (ofNat _ ‹_›) rfl
      · split
        · exact .clearDone (ofNat _ ‹_›) rfl ‹_›
        · exact .nothing
      · exact .nothing
    · split
      · exact .refused ‹_›
      · split
        · have := dmemBytes_mod_four s.params
          exact .dmem _ ‹_› rfl (by omega)
        · exact .nothing
    · split
      · exact .refused ‹_›
      · split
        · exact .imem _ ‹_› rfl ‹_›
        · exact .nothing
    · exact .nothing
  · exact .nothing

/-- What a host write that leaves t has done. -/
theorem WriteOutcome.of_write {off : BitVec 20} {bytes : Nat} {v : Word} {s t : State} (h : hostWrite off bytes v s = t) :
    WriteOutcome off bytes v s t := h ▸ hostWrite_outcome off bytes v s

/-! ## Weak fairness (R310) -/

/-- Every event answers a next state. -/
theorem event_next (e : Event) (s : State) : ∃ t, event e s = .next t := by
  cases e with
  | unitStep => obtain ⟨t, h, -⟩ := step_outcome s; exact ⟨t, h⟩
  | read off bytes => exact ⟨_, rfl⟩
  | write off bytes v => exact ⟨_, rfl⟩
  | hardwareReset => exact ⟨_, rfl⟩

theorem stateAt_next (sched : Schedule) (s : State) (n : Nat) : ∃ t, stateAt sched s n = .next t := by
  induction n with
  | zero => exact ⟨s, rfl⟩
  | succ n ih =>
    obtain ⟨t, h⟩ := ih
    simpa only [stateAt, h] using event_next (sched n) t

theorem stateAt_succ {sched : Schedule} {s t : State} {n : Nat} (h : stateAt sched s n = .next t) :
    stateAt sched s (n + 1) = event (sched n) t := by simp only [stateAt, h]

/-- An event that leaves the unit RUNNING with an abort requested before it is no step of the unit, and leaves the request. -/
theorem event_keeps_abrq {e : Event} {s t : State} (h : event e s = .next t) (hr : s.runState = .running)
    (ha : s.abrq = true) (ht : t.runState = .running) : e ≠ .unitStep ∧ t.abrq = true := by
  cases e with
  | unitStep =>
    have hs : step s = .next s.takeAbort := by simp [step, hr, ha]
    cases hs.symm.trans h
    exact absurd ht nofun
  | read off bytes =>
    cases h
    refine ⟨nofun, ?_⟩
    rcases hostRead_state off bytes s with e | ⟨-, e⟩ <;> rw [e] <;> exact ha
  | write off bytes v =>
    refine ⟨nofun, ?_⟩
    cases WriteOutcome.of_write (Host.Outcome.next.inj h) with
    | softReset _ _ _ => exact absurd ht nofun
    | abort _ _ _ _ => rfl
    | start _ _ _ hn => exact absurd hr hn
    | dmem _ hn _ _ => exact absurd hr hn
    | imem _ hn _ _ => exact absurd hr hn
    | nothing => exact ha
    | refused _ => exact ha
    | entry _ _ => exact ha
    | irqEn _ _ => exact ha
    | clearDone _ _ _ => exact ha
  | hardwareReset =>
    cases h
    exact absurd ht nofun

/-- In a weakly fair run a requested abort ends the run, even that of a program that never stops by itself (R42, R137, R310). -/
theorem WeaklyFair.abort_stops {sched : Schedule} {s t : State} {n : Nat} (fair : WeaklyFair sched s)
    (h : stateAt sched s n = .next t) (ha : t.abrq = true) : ∃ m, n ≤ m ∧ ¬RunningAt sched s m := by
  by_contra hc
  have run : ∀ m, n ≤ m → RunningAt sched s m := fun m hm => by_contra fun hn => hc ⟨m, hm, hn⟩
  have key : ∀ k, ∃ u, stateAt sched s (n + k) = .next u ∧ u.abrq = true := by
    intro k
    induction k with
    | zero => exact ⟨t, h, ha⟩
    | succ k ih =>
      obtain ⟨u, hu, hua⟩ := ih
      obtain ⟨u', hu', hr⟩ := run (n + k) (by omega)
      cases hu.symm.trans hu'
      obtain ⟨v, hv, hvr⟩ := run (n + k + 1) (by omega)
      exact ⟨v, hv, (event_keeps_abrq ((stateAt_succ hu).symm.trans hv) hr hua hvr).2⟩
  obtain ⟨m, hm, hs⟩ := fair n run
  obtain ⟨u, hu, hua⟩ := key (m - n)
  rw [show n + (m - n) = m by omega] at hu
  obtain ⟨u', hu', hr⟩ := run m hm
  cases hu.symm.trans hu'
  obtain ⟨v, hv, hvr⟩ := run (m + 1) (by omega)
  exact (event_keeps_abrq ((stateAt_succ hu).symm.trans hv) hr hua hvr).1 hs

end Sys2Proof.Machine
end

