-- ==== Sys2Proof/Tests/Slice0.lean ====
section
/-! SUPPORT. Tests: the well-formedness smoke tests, words of the spec decoded, one step of each instruction on the vectors of
95_test_vectors.md, the host's side, and a witness for the hypotheses of every statement of the obligations. Every expected value is
taken from the spec file that the comment names. -/

/- Each `decide +kernel` below would take a thread of its own, and their stacks together more memory than the check allows. -/
set_option Elab.async false

namespace Sys2Proof.Machine.Tests

/-! ## Well-formedness: an ill-formed term for each check (R122) -/

theorem test_wf_refuses_code : (Instr.halt 256).wellFormed = false := by decide
theorem test_wf_refuses_address : (Instr.feLd 1 65536).wellFormed = false := by decide
theorem test_wf_refuses_immediate : (Instr.feLdi 1 65536).wellFormed = false := by decide
theorem test_wf_refuses_offset_above : (Instr.j 32768).wellFormed = false := by decide
theorem test_wf_refuses_offset_below : (Instr.bnc (-32769)).wellFormed = false := by decide
theorem test_wf_accepts_bounds :
    (Instr.halt 255).wellFormed ∧ (Instr.feLd 1 65535).wellFormed ∧ (Instr.bc (-32768)).wellFormed ∧
      (Instr.j 32767).wellFormed := by decide

/-! ## Decoding: words written out in 40_control.md to 43_point.md and 95_test_vectors.md, one for each constructor -/

theorem test_decode_control :
    decode 0x01000001 = .ok (.halt 1) ∧ decode 0x0200FFFD = .ok (.j (-3)) ∧ decode 0x03000004 = .ok (.bc 4) ∧
      decode 0x04000011 = .ok (.bnc 17) := by decide
theorem test_decode_field_memory :
    decode 0x10100020 = .ok (.feLd 1 0x20) ∧ decode 0x11100040 = .ok (.feSt 1 0x40) ∧
      decode 0x12300001 = .ok (.feLdi 3 1) ∧ decode 0x13210000 = .ok (.feMov 2 1) := by decide
theorem test_decode_field_arithmetic :
    decode 0x14123000 = .ok (.feAdd 1 2 3) ∧ decode 0x15123000 = .ok (.feSub 1 2 3) ∧
      decode 0x16123000 = .ok (.feMul 1 2 3) ∧ decode 0x17120000 = .ok (.feSqr 1 2) ∧
      decode 0x18120000 = .ok (.feInv 1 2) ∧ decode 0x19120000 = .ok (.feNeg 1 2) ∧
      decode 0x1A012000 = .ok (.feEq 1 2) := by decide
theorem test_decode_scalar_memory :
    decode 0x20100020 = .ok (.scLd 1 0x20) ∧ decode 0x21400040 = .ok (.scSt 4 0x40) ∧
      decode 0x22100020 = .ok (.scLdh 1 0x20) := by decide
theorem test_decode_scalar_arithmetic :
    decode 0x23110000 = .ok (.scRed 1 1) ∧ decode 0x24312000 = .ok (.scAdd 3 1 2) ∧
      decode 0x25312000 = .ok (.scMul 3 1 2) ∧ decode 0x26423100 = .ok (.scMulAdd 4 2 3 1) ∧
      decode 0x27120000 = .ok (.scClamp 1 2) ∧ decode 0x28050000 = .ok (.scLtl 5) := by decide
theorem test_decode_point_group :
    decode 0x30100020 = .ok (.ptDec 1 0x20) ∧ decode 0x31100040 = .ok (.ptEnc 1 0x40) ∧
      decode 0x32300000 = .ok (.ptId 3) ∧ decode 0x33213000 = .ok (.ptAdd 2 1 3) ∧
      decode 0x34210000 = .ok (.ptDbl 2 1) ∧ decode 0x35110000 = .ok (.ptSmulb 1 1) ∧
      decode 0x36211000 = .ok (.ptSmul 2 1 1) := by decide
theorem test_decode_point_other :
    decode 0x37012000 = .ok (.ptEq 1 2) ∧ decode 0x38110000 = .ok (.ptGetx 1 1) ∧
      decode 0x39110000 = .ok (.ptGety 1 1) ∧ decode 0x3A112000 = .ok (.ptFromxy 1 1 2) := by decide
/-- V-E1 to V-E5. -/
theorem test_decode_rejects :
    decode 0x00000000 = .error .unassignedOpcode ∧ decode 0xFF000000 = .error .unassignedOpcode ∧
      decode 0x14123001 = .error .reservedBits ∧ decode 0x01000100 = .error .reservedBits ∧
      decode 0x1A112000 = .error .reservedBits := by decide
theorem test_decode_table_word : decodeTableWord 32 0x30100020 = some (.ptDec 1 0x20) := by decide
theorem test_encode_scMulAdd : encode (.scMulAdd 4 2 3 1) = 0x26423100 := by decide

/-! ## One step (95_test_vectors.md, sections 2.1 to 2.4) -/

/-- A state that is RUNNING with nothing valid and nothing written in either memory. -/
def fresh : State := { State.reset with runState := .running }

/-- The state after the step that runs the word w. -/
def after (w : Nat) (s : State) : State :=
  match step (s.withFetchWord 32 w) with
  | .next t => t
  | _ => s

/-- What a field register shows: its value where it is valid. -/
def fieldOf (s : State) (r : FReg) : Option Nat := if s.f[r].valid then some s.f[r].val.val else none
def scalarOf (s : State) (r : SReg) : Option Nat := if s.s[r].valid then some s.s[r].val.toNat else none
def pointOf (s : State) (r : PReg) : Option Point := if s.p[r].valid then some s.p[r].val else none
def encodingOf (s : State) (r : PReg) : Option Nat := if s.p[r].valid then some (leInt (enc s.p[r].val)) else none
/-- STATUS, PC, FINST and FADDR as the host reads them. -/
def report (s : State) : Nat × Nat × Nat × Nat :=
  (s.statusWord.toNat, s.pc.toNat, s.finst.toNat, s.faddr.toNat)

def f (r : FReg) (v : Nat) (s : State) : State := s.writeF r (Fe.ofNat v)
def sc (r : SReg) (v : Nat) (s : State) : State := s.writeS r (BitVec.ofNat 256 v)
def pt (r : PReg) (q : Point) (s : State) : State := s.writeP r q
/-- DMEM[a .. a+n−1] holds v. -/
def mem (a n v : Nat) (s : State) : State := s.storeBytes a (leBytes n v)
def value (s : State) (a n : Nat) : Nat := leInt (s.dmem.readBytes a n)

/-- T4 = (I, 0) and T2 = (0, p − 1) of section 2.4, and −B. -/
def T4 : Point := ⟨sqrtMinusOne, Fe.ofNat 0⟩
def T2 : Point := ⟨Fe.ofNat 0, Fe.ofNat (p - 1)⟩
def minusB : Point := pneg basePoint

/-- V-C1. -/
theorem test_halt : report (after 0x01000001 fresh) = (0x00000102, 0, 0, 0) := by decide +kernel
/-- V-C4's target. -/
theorem test_j_wraps : (after 0x0200FFFF fresh).pc = 0xFFFF := by decide +kernel
/-- R132's example, at pc 10. -/
theorem test_bc : (after 0x03000004 { fresh with pc := 10, c := true }).pc = 14 ∧
    (after 0x03000004 { fresh with pc := 10 }).pc = 11 := by decide +kernel
/-- R133's example, at pc 3. -/
theorem test_bnc : (after 0x04000011 { fresh with pc := 3 }).pc = 20 ∧
    (after 0x04000011 { fresh with pc := 3, c := true }).pc = 4 := by decide +kernel
/-- V-F22, V-F21. -/
theorem test_fe_ld : fieldOf (after 0x10100020 (mem 0x20 32 (2 ^ 255) fresh)) 1 = some 19 ∧
    fieldOf (after 0x10100020 (mem 0x20 32 (2 ^ 256 - 1) fresh)) 1 = some 37 := by decide +kernel
/-- V-F28, V-F27. -/
theorem test_fe_ld_traps : report (after 0x1010FFE0 fresh) = (0x00040003, 0, 0x1010FFE0, 0xFFE0) ∧
    report (after 0x10100021 fresh) = (0x00030003, 0, 0x10100021, 0x21) := by decide +kernel
/-- V-F23. -/
theorem test_fe_st : value (after 0x11100040 (f 1 (p - 1) fresh)) 0x40 32 = p - 1 := by decide +kernel
/-- V-F26, V-F29: UNINIT before ALIGN, ALIGN before BUS. -/
theorem test_fe_st_traps : report (after 0x11900041 fresh) = (0x00050003, 0, 0x11900041, 0) ∧
    report (after 0x11101001 (f 1 7 fresh)) = (0x00030003, 0, 0x11101001, 0x1001) := by decide +kernel
/-- V-F17. -/
theorem test_fe_ldi : fieldOf (after 0x1230FFFF fresh) 3 = some 65535 := by decide +kernel
/-- V-F18. -/
theorem test_fe_mov : fieldOf (after 0x13210000 (f 1 (p - 1) fresh)) 2 = some (p - 1) := by decide +kernel
/-- V-F1, V-F2. -/
theorem test_fe_add : fieldOf (after 0x14123000 (f 2 (p - 1) (f 3 2 fresh))) 1 = some 1 ∧
    fieldOf (after 0x14122000 (f 2 (p - 1) fresh)) 1 = some (p - 2) := by decide +kernel
/-- V-F24. -/
theorem test_fe_add_uninit : report (after 0x14123000 (f 2 1 fresh)) = (0x00050003, 0, 0x14123000, 0) := by decide +kernel
/-- V-F3, V-F4. -/
theorem test_fe_sub : fieldOf (after 0x15123000 (f 2 0 (f 3 1 fresh))) 1 = some (p - 1) ∧
    fieldOf (after 0x15122000 (f 2 12345 fresh)) 1 = some 0 := by decide +kernel
/-- V-F6, V-F7. -/
theorem test_fe_mul : fieldOf (after 0x16122000 (f 2 (2 ^ 128) fresh)) 1 = some 38 ∧
    fieldOf (after 0x16123000 (f 2 (2 ^ 254) (f 3 2 fresh))) 1 = some 19 := by decide +kernel
/-- V-F8. -/
theorem test_fe_sqr : fieldOf (after 0x17120000 (f 2 123456789 fresh)) 1 = some 15241578750190521 := by decide +kernel
/-- V-F9, V-F11. -/
theorem test_fe_inv : fieldOf (after 0x18120000 (f 2 0 fresh)) 1 = some 0 ∧
    fieldOf (after 0x18120000 (f 2 2 fresh)) 1 = some ((p + 1) / 2) := by decide +kernel
/-- V-F13, V-F14. -/
theorem test_fe_neg : fieldOf (after 0x19120000 (f 2 0 fresh)) 1 = some 0 ∧
    fieldOf (after 0x19120000 (f 2 1 fresh)) 1 = some (p - 1) := by decide +kernel
/-- V-F15, V-F16. -/
theorem test_fe_eq : (after 0x1A012000 (f 1 5 (f 2 5 fresh))).c = true ∧
    (after 0x1A012000 (f 1 5 (f 2 6 { fresh with c := true }))).c = false := by decide +kernel
/-- V-S1: L is not reduced. -/
theorem test_sc_ld : scalarOf (after 0x20100020 (mem 0x20 32 groupOrder fresh)) 1 = some groupOrder := by decide +kernel
/-- V-S22. -/
theorem test_sc_st : value (after 0x21400040 (sc 4 1 fresh)) 0x40 32 = 1 := by decide +kernel
/-- V-S2. -/
theorem test_sc_ldh : scalarOf (after 0x22100020 (mem 0x20 64 (2 ^ 512 - 1) fresh)) 1 =
    some 0x0399411b7c309a3dceec73d217f5be65d00e1ba768859347a40611e3449c0f00 := by decide +kernel
/-- V-S5, V-S6: the access may end exactly at DMEM_BYTES. -/
theorem test_sc_ldh_range : scalarOf (after 0x22100FC0 (mem 0xFC0 64 0 fresh)) 1 = some 0 ∧
    report (after 0x22100FE0 fresh) = (0x00040003, 0, 0x22100FE0, 0xFE0) := by decide +kernel
/-- V-S7, V-S9. -/
theorem test_sc_red : scalarOf (after 0x23110000 (sc 1 groupOrder fresh)) 1 = some 0 ∧
    scalarOf (after 0x23110000 (sc 1 (2 ^ 256 - 1) fresh)) 1 =
      some 7237005577332262213973186563042994240413239274941949949428319933631315875100 := by decide +kernel
/-- V-S10, V-S11: no 257-bit overflow is lost. -/
theorem test_sc_add : scalarOf (after 0x24312000 (sc 1 (groupOrder - 1) (sc 2 2 fresh))) 3 = some 1 ∧
    scalarOf (after 0x24311000 (sc 1 (2 ^ 256 - 1) fresh)) 3 =
      some 7237005577332262213973186563042994239969362190503992292854688928977177499211 := by decide +kernel
/-- V-S12, V-S13. -/
theorem test_sc_mul : scalarOf (after 0x25311000 (sc 1 (groupOrder - 1) fresh)) 3 = some 1 ∧
    scalarOf (after 0x25312000 (sc 1 12345 (sc 2 groupOrder fresh))) 3 = some 0 := by decide +kernel
/-- V-S14, V-S15: one register as every source and the destination. -/
theorem test_sc_muladd :
    scalarOf (after 0x26423100 (sc 2 2 (sc 3 3 (sc 1 (groupOrder - 1) fresh)))) 4 = some 5 ∧
    scalarOf (after 0x26111100 (sc 1 (groupOrder - 1) fresh)) 1 = some 0 := by decide +kernel
/-- V-S17, V-S18. -/
theorem test_sc_clamp : scalarOf (after 0x27120000 (sc 2 0 fresh)) 1 = some (2 ^ 254) ∧
    scalarOf (after 0x27120000 (sc 2 (2 ^ 256 - 1) fresh)) 1 = some (2 ^ 255 - 8) := by decide +kernel
/-- V-S19, V-S20. -/
theorem test_sc_ltl : (after 0x28050000 (sc 5 (groupOrder - 1) fresh)).c = true ∧
    (after 0x28050000 (sc 5 groupOrder { fresh with c := true })).c = false := by decide +kernel
/-- V-P3, and V-P2 with the encoding 58 66 … 66 of B. -/
theorem test_pt_dec : pointOf (after 0x30100020 (mem 0x20 32 0 fresh)) 1 = some T4 ∧
    pointOf (after 0x30100020 (mem 0x20 32 0x6666666666666666666666666666666666666666666666666666666666666658 fresh)) 1 =
      some basePoint := by decide +kernel
/-- V-P6 (x = 0 with sign 1) and V-P11 (P1 stays as it was). -/
theorem test_pt_dec_rejects :
    report (after 0x30100020 (mem 0x20 32 (1 + 2 ^ 255) fresh)) = (0x00060003, 0, 0x30100020, 0x20) ∧
    pointOf (after 0x30100020 (pt 1 basePoint (mem 0x20 32 2 fresh))) 1 = some basePoint := by decide +kernel
/-- V-P13: the bytes 58 66 … 66 e6 of −B. -/
theorem test_pt_enc : value (after 0x31100040 (pt 1 minusB fresh)) 0x40 32 =
    0xe666666666666666666666666666666666666666666666666666666666666658 := by decide +kernel
/-- V-P1. -/
theorem test_pt_id : encodingOf (after 0x32300000 fresh) 3 = some 1 := by decide +kernel
/-- V-P15, V-P16. -/
theorem test_pt_add : pointOf (after 0x33213000 (pt 1 basePoint (pt 3 minusB fresh))) 2 = some Point.identity ∧
    pointOf (after 0x33213000 (pt 1 basePoint (pt 3 Point.identity fresh))) 2 = some basePoint := by decide +kernel
/-- V-P17, V-P18. -/
theorem test_pt_dbl : pointOf (after 0x34210000 (pt 1 T4 fresh)) 2 = some T2 ∧
    pointOf (after 0x34210000 (pt 1 T2 fresh)) 2 = some Point.identity := by decide +kernel
/-- V-P19, and V-P21 with the encoding d4 b4 … 67 12 of 3B. -/
theorem test_pt_smulb : pointOf (after 0x35110000 (sc 1 0 fresh)) 1 = some Point.identity ∧
    encodingOf (after 0x35110000 (sc 1 3 fresh)) 1 =
      some 0x1267b1d177ee69aba126a18e60269ef79f16ec176724030402c3684878f5b4d4 := by decide +kernel
/-- V-P24, V-P25. -/
theorem test_pt_smul : pointOf (after 0x36211000 (sc 1 2 (pt 1 T2 fresh))) 2 = some Point.identity ∧
    pointOf (after 0x36211000 (sc 1 3 (pt 1 T2 fresh))) 2 = some T2 := by decide +kernel
/-- V-P30, and equal points. -/
theorem test_pt_eq : (after 0x37012000 (pt 1 basePoint (pt 2 Point.identity { fresh with c := true }))).c = false ∧
    (after 0x37012000 (pt 1 T2 (pt 2 T2 fresh))).c = true := by decide +kernel
/-- V-P31. -/
theorem test_pt_getx : fieldOf (after 0x38110000 (pt 1 basePoint fresh)) 1 =
    some 0x216936d3cd6e53fec0a4e231fdd6dc5c692cc7609525a7b2c9562d608f25d51a := by decide +kernel
/-- V-P32. -/
theorem test_pt_gety : fieldOf (after 0x39110000 (pt 1 basePoint fresh)) 1 =
    some 0x6666666666666666666666666666666666666666666666666666666666666658 := by decide +kernel
/-- V-P34, V-P36. -/
theorem test_pt_fromxy :
    pointOf (after 0x3A112000 (f 1 basePoint.x.val (f 2 basePoint.y.val fresh))) 1 = some basePoint ∧
    report (after 0x3A112000 (f 1 1 (f 2 1 fresh))) = (0x00070003, 0, 0x3A112000, 0) := by decide +kernel
/-- V-E1, V-E3. -/
theorem test_illegal : report (after 0x00000000 fresh) = (0x00010003, 0, 0, 0) ∧
    report (after 0x14123001 fresh) = (0x00010003, 0, 0x14123001, 0) := by decide +kernel

/-! ## The host's side (95_test_vectors.md, section 2.5) -/

/-- The state after a list of events. -/
def afterEvents (es : List Event) (s : State) : State :=
  match runEvents es s with
  | .next t => t
  | _ => s

/-- V-H1. -/
theorem test_reset_reads : (hostRead 0x00 4 State.reset).1 = 0xED250100 ∧ (hostRead 0x24 4 State.reset).1 = 0x00000C0A := by
  decide +kernel
/-- V-C7 and V-C8: `j 0`, then ABORT or START. -/
theorem test_abort_and_refused_start :
    (afterEvents [.write 0x40000 4 0x02000000, .write 4 4 1, .unitStep, .write 4 4 2, .unitStep] State.reset).statusWord =
      0x00080003 ∧
    (afterEvents [.write 0x40000 4 0x02000000, .write 4 4 1, .unitStep, .write 4 4 1, .unitStep] State.reset).statusWord =
      0x00000009 := by decide +kernel
/-- V-C6: ENTRY = 1024. -/
theorem test_fetch_outside_imem :
    report (afterEvents [.write 0x0C 4 1024, .write 4 4 1, .unitStep] State.reset) = (0x00020003, 1024, 0, 0) := by
  decide +kernel
/-- V-H4. -/
theorem test_refused_read : (hostRead 0x10000 4 fresh).1 = 0 ∧ (hostRead 0x10000 4 fresh).2.statusWord = 0x00000009 := by
  decide +kernel
/-- V-H5, V-H6. -/
theorem test_ignored_reads : hostRead 0x10001 1 State.reset = (0, State.reset) ∧
    hostRead 0x30 4 State.reset = (0, State.reset) := by decide +kernel
/-- V-H10, V-H11. -/
theorem test_window_writes :
    (hostWrite 0x40004 4 0x01000000 State.reset).imem.cells = [(1, 0x01000000)] ∧
    (hostWrite 0x10000 4 0x04030201 State.reset).dmem.cells = [(0, 1), (1, 2), (2, 3), (3, 4)] := by decide +kernel
/-- V-H7. -/
theorem test_irq : (after 0x01000001 { fresh with irqEn := true }).irq = true ∧
    (hostWrite 0x20 4 1 (after 0x01000001 { fresh with irqEn := true })).irq = false := by decide +kernel
/-- V-H2: SRESET has priority over ABORT and START. -/
theorem test_sreset_priority : (hostWrite 4 4 7 fresh).runState = .idle := by decide +kernel

/-! ## The assembler (R121–R123, R131) -/

theorem test_assemble :
    assemble "l: j 0xFFFD ; back\nbc l\n\n nop\nfe.dbl f1, f2\nsc.muladd s4, s2, s3, s1".toList =
      some [0x0200FFFD, 0x0300FFFF, 0x02000001, 0x14122000, 0x26423100] := by decide +kernel
/-- A sign is read before a decimal number only (log entry 12); off = −3 is R131's example. -/
theorem test_assemble_sign : assemble "j -3".toList = some [0x0200FFFD] ∧ assemble "j -0x3".toList = none := by decide +kernel
theorem test_assemble_refuses :
    assemble "fe.add f1, s2, f3".toList = none ∧ assemble "pt.id p16".toList = none ∧
      assemble "halt 256".toList = none ∧ assemble "fe.ldi f1, 65536".toList = none ∧
      assemble "fe.eq f1, f2, f3".toList = none := by decide +kernel
theorem test_disassemble : disassemble (.scMulAdd 4 1 2 3) = "sc.muladd s4, s1, s2, s3" ∧
    disassemble (.feAdd 1 2 2) = "fe.add f1, f2, f2" := by decide +kernel

/-! ## Memory: the canonical form (one entry a written cell, in rising order) -/

theorem test_memory_canonical :
    ((Mem.drawn 8 0).write 5 7 |>.write 3 9 |>.write 5 0) = ⟨0, [(3, 9), (5, 0)]⟩ := by decide
/-- An unwritten cell holds the draw of the last hardware reset (R291), which no two resets need share. -/
theorem test_unwritten_cell : State.reset.dmem.read 7 = Config.drawCell 8 0 7 ∧
    State.reset.hardwareReset.imem.read 7 = Config.drawCell 32 1 7 ∧
    (mem 7 1 5 State.reset).softReset.dmem.read 7 = 5 := ⟨rfl, rfl, by decide⟩

/-! ## Weak fairness (R310) -/

/-- A run of steps only is weakly fair, and one of host reads only is not where the unit is RUNNING. -/
theorem test_weaklyFair : WeaklyFair (fun _ => .unitStep) fresh ∧ ¬WeaklyFair (fun _ => .read 0 4) fresh := by
  refine ⟨fun n _ => ⟨n, Nat.le_refl n, rfl⟩, fun h => ?_⟩
  have run : ∀ n, stateAt (fun _ => .read 0 4) fresh n = .next fresh := fun n => by
    induction n with
    | zero => rfl
    | succ n ih => exact (stateAt_succ ih).trans rfl
  obtain ⟨_, _, hm⟩ := h 0 fun m _ => ⟨fresh, run m, rfl⟩
  exact absurd hm nofun
/-- The premises of WeaklyFair.abort_stops. -/
theorem witness_abort_stops : WeaklyFair (fun _ => .unitStep) { fresh with abrq := true } ∧
    stateAt (fun _ => .unitStep) { fresh with abrq := true } 0 = .next { fresh with abrq := true } :=
  ⟨fun n _ => ⟨n, Nat.le_refl n, rfl⟩, rfl⟩

/-! ## Witnesses: for every statement with hypotheses, states and operands that meet them all, at boundary values -/

/-- A RUNNING state with F1, F2, S1, S2, P1 and P2 valid. -/
def loaded : State := f 1 (p - 1) (f 2 0 (sc 1 (2 ^ 256 - 1) (sc 2 0 (pt 1 basePoint (pt 2 Point.identity fresh)))))

/-- loaded with the word w at IMEM[0]. -/
def fetching (w : Word) : State := { loaded with imem := loaded.imem.write 0 w }

theorem witness_DecodeOfEncodeIsTheInstruction : (Instr.j (-32768)).WellFormed ∧ (Instr.ptEnc 15 65535).WellFormed := by decide
theorem witness_EncodeOfDecodeIsTheWord : decode 0x02008000 = .ok (.j (-32768)) := by decide
theorem witness_WordDecodesExactlyWhenARowMatches :
    decode 0x26FFFF00 = .ok (.scMulAdd 15 15 15 15) ∧
      (∃ row ∈ opcodeTable, (0x26FFFF00 : Word) &&& row.mask = row.pattern) ∧
      decode 0x26FFFF01 = .error .reservedBits := by decide
theorem witness_WordsThatDoNotDecodeRaiseIllegal : (fetching 0).runState = .running ∧ (fetching 0).abrq = false ∧
    (fetching 0).pc.toNat < (fetching 0).params.imemWords ∧
    decode ((fetching 0).imem.read (fetching 0).pc.toNat) = .error .unassignedOpcode := by decide +kernel
theorem witness_BranchesSetOnlyThePc : (-32768 : Int) ≤ -32768 ∧ (-32768 : Int) ≤ 32767 := by decide
/-- Each clause of the access checks: the last address in range, one misaligned, the first out of range. -/
theorem witness_FeLdReducesTheLoadedValue : loaded.accessOk 4064 32 ∧ 65535 % 32 ≠ 0 ∧
    (4096 % 32 = 0 ∧ loaded.params.dmemBytes < 4096 + 32) := by decide +kernel
theorem witness_FeStStoresTheCanonicalBytes : loaded.f[1].valid = true ∧ loaded.f[3].valid = false ∧
    loaded.accessOk 4064 32 := by decide +kernel
theorem witness_FeLdiAndMovWriteTheirSource : 65535 < 65536 ∧ loaded.f[1].valid = true ∧ loaded.f[3].valid = false := by
  decide +kernel
theorem witness_FeAddSubMulAreExactModP : loaded.f[1].valid = true ∧ loaded.f[2].valid = true ∧ loaded.f[3].valid = false := by
  decide +kernel
theorem witness_FeSqrInvNegAreExactModP : loaded.f[2].valid = true ∧ loaded.f[2].val.val = 0 ∧ loaded.f[3].valid = false := by
  decide +kernel
theorem witness_FeEqSetsCToEquality : loaded.f[1].valid = true ∧ loaded.f[2].valid = true ∧ loaded.f[3].valid = false := by
  decide +kernel
theorem witness_ScLoadsReadRawOrReducedValues : loaded.accessOk 4064 32 ∧ loaded.accessOk 4032 64 ∧
    (4064 % 32 = 0 ∧ loaded.params.dmemBytes < 4064 + 64) := by decide +kernel
theorem witness_ScStStoresTheRawBytes : loaded.s[1].valid = true ∧ loaded.s[3].valid = false ∧
    loaded.accessOk 0 32 := by decide +kernel
theorem witness_ScArithmeticIsExactModL : loaded.s[1].valid = true ∧ loaded.s[2].valid = true ∧ loaded.s[3].valid = false := by
  decide +kernel
theorem witness_ScClampSetsTheFiveBits : loaded.s[1].valid = true ∧ loaded.s[3].valid = false := by decide +kernel
theorem witness_ScLtlTestsCanonicity : loaded.s[2].valid = true ∧ loaded.s[3].valid = false := by decide +kernel
/-- Both outcomes of dec: 32 zero bytes decode to T4, and the bytes of 2 to nothing. -/
theorem witness_PtDecWritesTheDecodedPointOrTraps :
    (loaded.accessOk 0 32 ∧ leInt (leBytes 32 0) = value (mem 0 32 0 loaded) 0 32 ∧ dec (leBytes 32 0) = some T4) ∧
      (leInt (leBytes 32 2) = value (mem 0 32 2 loaded) 0 32 ∧ dec (leBytes 32 2) = none) := by decide +kernel
theorem witness_PtEncStoresTheEncoding : loaded.p[1].valid = true ∧ loaded.p[3].valid = false ∧
    loaded.accessOk 4064 32 := by decide +kernel
theorem witness_PtIdAddDblWriteTheSum : loaded.p[1].valid = true ∧ loaded.p[2].valid = true ∧ loaded.p[3].valid = false := by
  decide +kernel
theorem witness_PtSmulUsesTheWholeScalar : loaded.s[1].valid = true ∧ loaded.p[1].valid = true ∧ loaded.p[3].valid = false ∧
    loaded.s[3].valid = false := by decide +kernel
theorem witness_PtEqSetsCToEquality : loaded.p[1].valid = true ∧ loaded.p[2].valid = true ∧ loaded.p[3].valid = false := by
  decide +kernel
theorem witness_PtGetWritesACoordinate : loaded.p[1].valid = true ∧ loaded.p[3].valid = false := by decide +kernel
/-- A pair on the curve and one off it. -/
theorem witness_PtFromxyChecksTheCurveEquation :
    (loaded.f[1].valid = true ∧ loaded.f[2].valid = true ∧ ¬OnCurve ⟨loaded.f[1].val, loaded.f[1].val⟩) ∧
      OnCurve ⟨loaded.f[2].val, loaded.f[1].val⟩ := by decide +kernel
theorem witness_FieldPrimitivesAreIntegerOperationsModP : (Fe.ofNat 0).val = 0 ∧ (Fe.ofNat (p - 1)).val ≠ 0 := by decide +kernel
theorem witness_EncodingIsInjectiveOnPoints : OnCurve T4 ∧ enc T4 = enc T4 := by decide +kernel
theorem witness_DecodingInvertsEncoding : (leBytes 32 (p + 1)).length = 32 ∧ p ≤ leInt (leBytes 32 (p + 1)) % 2 ^ 255 := by
  decide +kernel
theorem witness_AdditionLawIsComplete : OnCurve T4 ∧ OnCurve basePoint := by decide +kernel
theorem witness_PointsFormAGroup : OnCurve T4 ∧ OnCurve T2 ∧ OnCurve basePoint := by decide +kernel
theorem witness_ScalarMultiplicationIsRepeatedAddition : OnCurve T4 := by decide +kernel
theorem witness_ScalarMultiplicationLaws : OnCurve T2 := by decide +kernel
theorem witness_StepRunsTheDecodedInstruction : (fetching 0x14112000).runState = .running ∧
    (fetching 0x14112000).abrq = false ∧ (fetching 0x14112000).pc.toNat < (fetching 0x14112000).params.imemWords ∧
    decode ((fetching 0x14112000).imem.read (fetching 0x14112000).pc.toNat) = .ok (.feAdd 1 1 2) := by decide +kernel
theorem witness_StepChecksComeInPriorityOrder : State.reset.runState ≠ .running ∧
    (loaded.runState = .running ∧ { loaded with abrq := true }.abrq = true) ∧
    { loaded with pc := 1024 }.params.imemWords ≤ { loaded with pc := 1024 }.pc.toNat := by decide +kernel

/-- Whether an outcome is a next state with the property. -/
def answers (o : Step) (prop : State → Bool) : Bool :=
  match o with
  | .next t => prop t
  | _ => false

theorem exists_of_answers {o : Step} {prop : State → Bool} (h : answers o prop = true) : ∃ t, o = .next t ∧ prop t = true := by
  cases o with
  | next t => exact ⟨t, rfl, h⟩
  | fault r => exact absurd h (by simp [answers])
  | refused r => exact absurd h (by simp [answers])

/-- The three ways a step ends FAULTED: a fetched PT.DEC of bytes no point encodes to, an abort, a fetch outside IMEM. -/
theorem witness_ExceptionsArePrecise :
    (∃ t, step (mem 0 32 2 (fetching 0x30100000)) = .next t ∧ (t.runState == .faulted && t.cause == .decode) = true) ∧
    (∃ t, step { loaded with abrq := true } = .next t ∧ (t.runState == .faulted) = true) ∧
    (∃ t, step { loaded with pc := 1024 } = .next t ∧ (t.runState == .faulted && t.cause == .fetch) = true) :=
  ⟨exists_of_answers (by decide +kernel), exists_of_answers (by decide +kernel), exists_of_answers (by decide +kernel)⟩

/-- An instruction that changes C; one that does not read it; one that raises an exception. -/
theorem witness_OnlyComparesWriteCAndOnlyBranchesReadIt :
    (∃ t, exec (.feEq 1 1) loaded = .next t ∧ (t.c != loaded.c) = true) ∧
    (∃ t, exec (.feEq 1 3) loaded = .next t ∧ (t.runState == .faulted) = true) ∧
    (loaded.f[1].valid = true ∧ loaded.s[1].valid = true ∧ loaded.p[1].valid = true) ∧
    (∀ off, Instr.feEq 1 1 ≠ .bc off ∧ Instr.feEq 1 1 ≠ .bnc off) ∧ State.reset.runState ≠ .running :=
  ⟨exists_of_answers (by decide +kernel), exists_of_answers (by decide +kernel), by decide +kernel,
    fun off => ⟨nofun, nofun⟩, by decide +kernel⟩

theorem witness_OnlyTheDestinationRegisterChanges :
    (∃ t, exec (.feLdi 15 9) loaded = .next t ∧ (t.f[15] != loaded.f[15]) = true) ∧
    (∃ t, exec (.scRed 15 1) loaded = .next t ∧ (t.s[15] != loaded.s[15]) = true) ∧
    (∃ t, exec (.ptId 15) loaded = .next t ∧ (t.p[15] != loaded.p[15]) = true) :=
  ⟨exists_of_answers (by decide +kernel), exists_of_answers (by decide +kernel), exists_of_answers (by decide +kernel)⟩

theorem witness_ProgramsCannotReachTheHostsState :
    ∃ t, exec (.halt 255) loaded = .next t ∧ (t.result != loaded.result) = true := exists_of_answers (by decide +kernel)

/-- The four transitions: SRESET, START, HALT and an exception. -/
theorem witness_RunStateHasOnlyTheNamedTransitions :
    (∃ t, event (.write 4 4 4) loaded = .next t ∧ (t.runState == .idle) = true) ∧
    (∃ t, event (.write 4 4 1) State.reset = .next t ∧ (t.runState == .running) = true) ∧
    (∃ t, event .unitStep (fetching 0x010000FF) = .next t ∧ (t.runState == .halted) = true) ∧
    (∃ t, event .unitStep (fetching 0) = .next t ∧ (t.runState == .faulted) = true) :=
  ⟨exists_of_answers (by decide +kernel), exists_of_answers (by decide +kernel), exists_of_answers (by decide +kernel),
    exists_of_answers (by decide +kernel)⟩

theorem witness_DoneIsSetWhenTheUnitStops :
    (∃ t, step { fetching 0x010000FF with irqEn := true } = .next t ∧ (t.irqPend && t.runState != .running) = true) ∧
      State.reset.runState ≠ .running ∧ (1 : Word).getLsbD 0 = true ∧ (2 : Word).getLsbD 0 = false :=
  ⟨exists_of_answers (by decide +kernel), by decide +kernel⟩

/-- A taken branch, an instruction that is none, and one that stops. -/
theorem witness_PcAdvancesByOneOrByATakenBranch :
    (∃ t, step (fetching 0x02008000) = .next t ∧ (t.runState == .running && t.pc == 0x8000) = true) ∧
    (∃ t, step (fetching 0x32300000) = .next t ∧ (t.runState == .running && t.pc == 1) = true) ∧
    (∃ t, step (fetching 0x010000FF) = .next t ∧ (t.runState != .running && t.pc == 0) = true) :=
  ⟨exists_of_answers (by decide +kernel), exists_of_answers (by decide +kernel), exists_of_answers (by decide +kernel)⟩

/-- Two states that differ in one byte outside the operand of a load; a store with a byte just below and just above it. -/
theorem witness_DmemIsReachedOnlyThroughTheNamedOperand :
    ((∀ x, 32 ≤ x → x < 32 + 32 → (mem 64 1 7 loaded).dmem.read x = loaded.dmem.read x) ∧
      reads (.feLd 1 32) = some (32, 32) ∧ (∃ t, exec (.feLd 1 32) loaded = .next t ∧ true = true) ∧
      (mem 64 1 7 loaded).dmem ≠ loaded.dmem) ∧
    (stores (.feSt 1 32) = some (32, 32) ∧ (31 < 32 ∨ 32 + 32 ≤ 31) ∧ (64 < 32 ∨ 32 + 32 ≤ 64)) := by
  refine ⟨⟨fun x _ h2 => ?_, rfl, exists_of_answers (prop := fun _ => true) (by decide +kernel), by decide +kernel⟩, by decide +kernel⟩
  exact (Mem.read_write loaded.dmem 64 (BitVec.ofNat 8 7) x).trans (if_neg (by omega))

/-- Two states that differ in the value of the invalid register F3. -/
theorem witness_InvalidRegistersAreUnobservable :
    loaded.SameObservable { loaded with f := loaded.f.set 3 ⟨Fe.ofNat 9, false⟩ } ∧
      loaded.f.set 3 ⟨Fe.ofNat 9, false⟩ ≠ loaded.f := by
  refine ⟨⟨?_, fun _ => ⟨rfl, fun _ => rfl⟩, fun _ => ⟨rfl, fun _ => rfl⟩, rfl⟩, by decide +kernel⟩
  show ∀ r : Fin 16, _
  decide +kernel

theorem witness_EveryEventKeepsTheMemoriesWellFormed :
    loaded.MemoriesWf ∧ ∃ t, event .unitStep (fetching 0x11100FE0) = .next t ∧ (t.dmem != loaded.dmem) = true :=
  ⟨by decide +kernel, exists_of_answers (by decide +kernel)⟩
theorem witness_EveryEventKeepsPointRegistersOnTheCurve :
    loaded.PointsOnCurve ∧ ∃ t, event .unitStep (fetching 0x33312000) = .next t ∧ (t.p[3] != loaded.p[3]) = true :=
  ⟨by decide +kernel, exists_of_answers (by decide +kernel)⟩
theorem witness_CtrlWritesActByPriority :
    (7 : Word).getLsbD 2 = true ∧ ((3 : Word).getLsbD 2 = false ∧ (3 : Word).getLsbD 1 = true) ∧
      ((1 : Word).getLsbD 2 = false ∧ (1 : Word).getLsbD 1 = false ∧ (1 : Word).getLsbD 0 = true) ∧
      ((8 : Word).getLsbD 2 = false ∧ (8 : Word).getLsbD 1 = false ∧ (8 : Word).getLsbD 0 = false) := by decide
/-- R41's and R251's codes at the ends of their ranges: RUNNING, and FAULTED with E_ABORT. -/
theorem test_status_codes : (hostRead 0x08 4 fresh).1 = 1 ∧ (hostRead 0x08 4 fresh.takeAbort).1 = 0x00080003 := by
  decide +kernel
theorem witness_HostRegistersReadTheirFields : 0x28 ≤ (0xFC : BitVec 20).toNat ∧ (0xFC : BitVec 20).toNat < 0x100 := by decide
theorem witness_HostRegisterWritesStoreOrAreIgnored : 0x28 ≤ (0x28 : BitVec 20).toNat ∧ (0x28 : BitVec 20).toNat < 0x100 := by
  decide
/-- Each clause: the last word of each memory, and the first and last offsets past the configured sizes. -/
theorem witness_HostWindowsReachTheMemories : State.reset.runState ≠ .running ∧
    4092 % 4 = 0 ∧ 4092 < State.reset.params.dmemBytes ∧ 1023 < State.reset.params.imemWords ∧
    0x10000 + State.reset.params.dmemBytes ≤ (0x11000 : BitVec 20).toNat ∧ (0x1FFFF : BitVec 20).toNat < 0x20000 ∧
    0x40000 + 4 * State.reset.params.imemWords ≤ (0x41000 : BitVec 20).toNat ∧ (0x7FFFF : BitVec 20).toNat < 0x80000 := by
  decide +kernel
/-- Each clause: another width, not aligned, and the three reserved regions at their bounds. -/
theorem witness_OtherHostAccessesDoNothing : 1 ≠ 4 ∧ (0x10001 : BitVec 20).toNat % 4 ≠ 0 ∧
    0x100 ≤ (0xFFFC : BitVec 20).toNat ∧ (0xFFFC : BitVec 20).toNat < 0x10000 ∧
    0x20000 ≤ (0x3FFFC : BitVec 20).toNat ∧ (0x3FFFC : BitVec 20).toNat < 0x40000 ∧
    0x80000 ≤ (0x80000 : BitVec 20).toNat := by decide
theorem witness_WindowAccessWhileRunningIsRefused : loaded.runState = .running ∧ (0x7FFFC : BitVec 20).toNat % 4 = 0 ∧
    0x40000 ≤ (0x7FFFC : BitVec 20).toNat ∧ (0x7FFFC : BitVec 20).toNat < 0x80000 ∧
    0x10000 ≤ (0x10000 : BitVec 20).toNat := by decide +kernel
theorem witness_TheLoadedWordIsTheOneThatRuns : State.reset.runState ≠ .running ∧
    (1023 : BitVec 16).toNat < State.reset.params.imemWords ∧ decode 0x14112000 = .ok (.feAdd 1 1 2) := by decide +kernel
theorem witness_AFaultedRunResumesWhereTheHostSays : (after 0 loaded).runState = .faulted := by decide +kernel
/-- Each clause: an assembled word; a well-formed instruction; another count; another file; an index above 15; the first values
outside each field; a label at each bound and past it. -/
theorem witness_AssembledWordsDecodeBack :
    assembleInstr [] 0 "fe.ldi".toList [.freg 15, .num 65535 true] = some 0x12F0FFFF ∧ (Instr.feLdi 15 65535).WellFormed ∧
      [AsmOperand.freg 1].length ≠ (asmOperands (.feMov 1 2)).length ∧
      ((asmOperands (.feAdd 1 2 3))[1]? = some (.freg 2) ∧ (AsmOperand.sreg 2).file ≠ (AsmOperand.freg 2).file) ∧
      (AsmOperand.freg 16 ∈ [AsmOperand.freg 16]) ∧
      ((255 : Int) < 256 ∧ (-32769 : Int) < -32768 ∧ (32767 : Int) < 32768 ∧ (65535 : Int) < 65536) ∧
      [(['l'], 32767)].lookup ['l'] = some 32767 ∧ ((32767 : Nat) : Int) - (0 : Nat) ≤ 32767 ∧
      32767 < ((32768 : Nat) : Int) - (0 : Nat) ∧ ([] : Labels).lookup ['l'] = none := by decide +kernel

end Sys2Proof.Machine.Tests
end

section
/-! PROOFS. The field primitives as integer operations mod p (R15), and the constants of the curve (R10–R14). -/

/- As in the model's files on the primes and the curve: one thread for all the kernel's evaluations. -/
set_option Elab.async false

namespace Sys2Proof.Machine

/-! ## The value of a field primitive -/

@[simp] theorem Fe.val_ofNat (n : Nat) : (Fe.ofNat n).val = n % p := rfl

theorem val_fsub (a b : Fe) : ((fsub a b).val : Int) = ((a.val : Int) - b.val) % p := by
  have hb := b.isLt.le
  rw [fsub, Fe.val_ofNat, Int.natCast_emod, Nat.cast_add, Nat.cast_sub hb,
    show (a.val : Int) + (p - b.val) = a.val - b.val + p by ring, Int.add_emod_right]

theorem val_fneg (a : Fe) : ((fneg a).val : Int) = (-(a.val : Int)) % p := by
  have ha := a.isLt.le
  rw [fneg, Fe.val_ofNat, Int.natCast_emod, Nat.cast_sub ha, sub_eq_neg_add, Int.add_emod_right]

theorem val_fpow (a : Fe) (e : Nat) (h : e < 2 ^ 255) : (fpow a e).val = a.val ^ e % p := by
  rw [fpow, powMod_eq p a.val 255 e (by decide) h, Fe.val_ofNat, Nat.mod_mod]

theorem zmod_eq_zero_iff (a : Fe) : zmod a = 0 ↔ a.val = 0 := by
  rw [zmod, ZMod.natCast_eq_zero_iff]
  exact ⟨fun h => Nat.eq_zero_of_dvd_of_lt h a.isLt, fun h => h ▸ dvd_zero p⟩

theorem fmul_finv_eq_one {a : Fe} (h : a.val ≠ 0) : fmul a (finv a) = Fe.ofNat 1 := by
  have := fact_prime_p
  apply zmod_injective
  rw [zmod_fmul, zmod_finv, zmod_ofNat, Nat.cast_one]
  exact mul_inv_cancel₀ (mt (zmod_eq_zero_iff a).mp h)

/-- Settles O27: the subtractions by casting to Int, the inverse by Fermat's little theorem. -/
theorem fieldPrimitivesAreIntegerOperationsModP : Obligations.FieldPrimitivesAreIntegerOperationsModP := by
  intro a b
  refine ⟨rfl, val_fsub a b, rfl, val_fneg a, val_fpow a _ (by decide +kernel), fun h => ?_, fun h => ?_⟩
  · rw [← zmod_eq_zero_iff] at h ⊢
    rw [zmod_finv, h, ZMod.inv_zero]
  · exact congrArg Fin.val (fmul_finv_eq_one h)

/-! ## The constants -/

/-- Settles O26: the primes by Lucas's test, the non-square by Euler's criterion, the rest by computing. -/
theorem constantsAreThoseOfTheCurve : Obligations.ConstantsAreThoseOfTheCurve := by
  refine ⟨p_eq, prime_p, by decide +kernel, prime_groupOrder, by decide +kernel, ?_, by decide +kernel,
    by decide +kernel, by decide +kernel, by decide +kernel⟩
  rintro ⟨a, ha⟩
  exact zmod_curveD_not_square ⟨zmod a, by rw [← zmod_fmul, ha]⟩

end Sys2Proof.Machine
end

section
/-! PROOFS. The laws of the scalar operations (R19, R188, R191). -/

namespace Sys2Proof.Machine

@[simp] theorem toNat_sred (n : Nat) : (sred n).toNat = n % groupOrder := by
  have h : n % groupOrder < 2 ^ 256 := (Nat.mod_lt n (by decide)).trans (by decide)
  rw [sred, BitVec.toNat_ofNat, Nat.mod_eq_of_lt h]

theorem sred_eq_sred_iff {m n : Nat} : sred m = sred n ↔ m ≡ n [MOD groupOrder] := by
  rw [← BitVec.toNat_inj, toNat_sred, toNat_sred, Nat.ModEq]

/-- A scalar operand can be reduced first without changing a sum or a product mod L. -/
theorem toNat_sred_modEq (n : Nat) : (sred n).toNat ≡ n [MOD groupOrder] := by
  rw [toNat_sred]
  exact Nat.mod_modEq n groupOrder

/-- Settles O29: each law holds of the integers, and reducing an operand first changes no residue. -/
theorem scalarLaws : Obligations.ScalarLaws := by
  refine ⟨toNat_sred, fun a b => ⟨toNat_sred _, toNat_sred _, ?_, ?_⟩, fun a b c => ⟨?_, ?_, ?_⟩⟩
  · rw [sadd, sadd, Nat.add_comm]
  · rw [smulL, smulL, Nat.mul_comm]
  · refine sred_eq_sred_iff.mpr (((toNat_sred_modEq _).add_right _).trans ?_)
    rw [Nat.add_assoc]
    exact ((toNat_sred_modEq _).add_left _).symm
  · refine sred_eq_sred_iff.mpr (((toNat_sred_modEq _).mul_right _).trans ?_)
    rw [Nat.mul_assoc]
    exact ((toNat_sred_modEq _).mul_left _).symm
  · exact sred_eq_sred_iff.mpr ((toNat_sred_modEq _).add_right _).symm

end Sys2Proof.Machine
end

section
/-! PROOFS. The points of the curve as an abelian group under the addition law (R16, R17, R222). -/

namespace Sys2Proof.Machine

/-! ## The denominators of the law -/

theorem lawT_sq_ne_one {a b : Point} (ha : OnCurve a) (hb : OnCurve b) : lawT a b ^ 2 ≠ 1 :=
  have := fact_prime_p
  edwards_complete zmod_curveD_not_square zmod_sqrtMinusOne_sq zmod_two_ne_zero ((onCurve_iff a).mp ha) ((onCurve_iff b).mp hb)

theorem one_add_lawT_ne_zero {a b : Point} (ha : OnCurve a) (hb : OnCurve b) : 1 + lawT a b ≠ 0 :=
  fun h => lawT_sq_ne_one ha hb (by linear_combination (lawT a b - 1) * h)

theorem one_sub_lawT_ne_zero {a b : Point} (ha : OnCurve a) (hb : OnCurve b) : 1 - lawT a b ≠ 0 :=
  fun h => lawT_sq_ne_one ha hb (by linear_combination (-lawT a b - 1) * h)

theorem padd_x_mul {a b : Point} (ha : OnCurve a) (hb : OnCurve b) :
    zmod (padd a b).x * (1 + lawT a b) = zmod a.x * zmod b.y + zmod a.y * zmod b.x := by
  have := fact_prime_p
  rw [zmod_padd_x, inv_mul_cancel_right₀ (one_add_lawT_ne_zero ha hb)]

theorem padd_y_mul {a b : Point} (ha : OnCurve a) (hb : OnCurve b) :
    zmod (padd a b).y * (1 - lawT a b) = zmod a.y * zmod b.y + zmod a.x * zmod b.x := by
  have := fact_prime_p
  rw [zmod_padd_y, inv_mul_cancel_right₀ (one_sub_lawT_ne_zero ha hb)]

/-! ## Closure -/

theorem onCurve_identity : OnCurve Point.identity := by decide +kernel

theorem onCurve_pneg {a : Point} (ha : OnCurve a) : OnCurve (pneg a) := by
  rw [onCurve_iff] at ha ⊢
  simpa [pneg] using ha

theorem onCurve_padd {a b : Point} (ha : OnCurve a) (hb : OnCurve b) : OnCurve (padd a b) := by
  have := fact_prime_p
  have hx := padd_x_mul ha hb
  have hy := padd_y_mul ha hb
  have hden : (1 - lawT a b ^ 2) ^ 2 ≠ 0 := pow_ne_zero 2 (sub_ne_zero.mpr (lawT_sq_ne_one ha hb).symm)
  have closed := edwards_closed ((onCurve_iff a).mp ha) ((onCurve_iff b).mp hb)
  rw [← hx, ← hy, ← lawT] at closed
  rw [onCurve_iff]
  exact mul_right_cancel₀ hden (by linear_combination closed)

/-! ## The group laws -/

theorem lawT_comm (a b : Point) : lawT a b = lawT b a := by
  rw [lawT, lawT]
  ring

theorem padd_comm (a b : Point) : padd a b = padd b a := by
  apply Point.eq_of_zmod
  · rw [zmod_padd_x, zmod_padd_x, lawT_comm]
    ring
  · rw [zmod_padd_y, zmod_padd_y, lawT_comm]
    ring

theorem padd_identity (a : Point) : padd a Point.identity = a := by
  apply Point.eq_of_zmod
  · simp [zmod_padd_x, lawT, Point.identity]
  · simp [zmod_padd_y, lawT, Point.identity]

theorem padd_pneg {a : Point} (ha : OnCurve a) : padd a (pneg a) = Point.identity := by
  have := fact_prime_p
  have hcurve := (onCurve_iff a).mp ha
  have hden := one_sub_lawT_ne_zero ha (onCurve_pneg ha)
  have hy : zmod a.y * zmod (pneg a).y + zmod a.x * zmod (pneg a).x = 1 - lawT a (pneg a) := by
    simp only [lawT, pneg, zmod_fneg]
    linear_combination hcurve
  apply Point.eq_of_zmod
  · simp [zmod_padd_x, pneg, Point.identity, mul_comm]
  · rw [zmod_padd_y, hy, mul_inv_cancel₀ hden]
    simp [Point.identity]

/-- The numerator of the x coordinate of (a + b) + c over (1 − t²) where t is that of a + b. -/
def sumNumX (a b c : Point) : ZMod p :=
  (zmod a.x * zmod b.y + zmod a.y * zmod b.x) * (1 - lawT a b) * zmod c.y +
    (zmod a.y * zmod b.y + zmod a.x * zmod b.x) * (1 + lawT a b) * zmod c.x

/-- The numerator of the y coordinate of (a + b) + c over (1 − t²) where t is that of a + b. -/
def sumNumY (a b c : Point) : ZMod p :=
  (zmod a.y * zmod b.y + zmod a.x * zmod b.x) * (1 + lawT a b) * zmod c.y +
    (zmod a.x * zmod b.y + zmod a.y * zmod b.x) * (1 - lawT a b) * zmod c.x

/-- (1 − t²)·t' where t' is that of (a + b) + c. -/
def sumT (a b c : Point) : ZMod p :=
  zmod curveD * (zmod a.x * zmod b.y + zmod a.y * zmod b.x) * (zmod a.y * zmod b.y + zmod a.x * zmod b.x) * zmod c.x * zmod c.y

section
variable {a b c : Point} (ha : OnCurve a) (hb : OnCurve b) (hc : OnCurve c)
include ha hb

theorem lawT_padd_mul : (1 - lawT a b ^ 2) * lawT (padd a b) c = sumT a b c := by
  rw [sumT, ← padd_x_mul ha hb, ← padd_y_mul ha hb, lawT.eq_1 (padd a b) c]
  ring

include hc

theorem sumDenX_ne_zero : 1 - lawT a b ^ 2 + sumT a b c ≠ 0 := by
  have := fact_prime_p
  have hab : 1 - lawT a b ^ 2 ≠ 0 := sub_ne_zero.mpr (lawT_sq_ne_one ha hb).symm
  rw [← lawT_padd_mul ha hb, ← mul_one_add]
  exact mul_ne_zero hab (one_add_lawT_ne_zero (onCurve_padd ha hb) hc)

theorem sumDenY_ne_zero : 1 - lawT a b ^ 2 - sumT a b c ≠ 0 := by
  have := fact_prime_p
  have hab : 1 - lawT a b ^ 2 ≠ 0 := sub_ne_zero.mpr (lawT_sq_ne_one ha hb).symm
  rw [← lawT_padd_mul ha hb, ← mul_one_sub]
  exact mul_ne_zero hab (one_sub_lawT_ne_zero (onCurve_padd ha hb) hc)

theorem padd_padd_x_mul : zmod (padd (padd a b) c).x * (1 - lawT a b ^ 2 + sumT a b c) = sumNumX a b c := by
  have h := padd_x_mul (onCurve_padd ha hb) hc
  rw [← lawT_padd_mul ha hb, sumNumX, ← padd_x_mul ha hb, ← padd_y_mul ha hb]
  linear_combination (1 - lawT a b ^ 2) * h

theorem padd_padd_y_mul : zmod (padd (padd a b) c).y * (1 - lawT a b ^ 2 - sumT a b c) = sumNumY a b c := by
  have h := padd_y_mul (onCurve_padd ha hb) hc
  rw [← lawT_padd_mul ha hb, sumNumY, ← padd_x_mul ha hb, ← padd_y_mul ha hb]
  linear_combination (1 - lawT a b ^ 2) * h

/-- The two sums of three points have the same fractions as coordinates (the second sum is (b + c) + a). -/
theorem sumNumX_cross :
    sumNumX a b c * (1 - lawT b c ^ 2 + sumT b c a) = sumNumX b c a * (1 - lawT a b ^ 2 + sumT a b c) := by
  have cross := edwards_assoc_x ((onCurve_iff a).mp ha) ((onCurve_iff b).mp hb) ((onCurve_iff c).mp hc)
  simp only [sumNumX, sumT, lawT]
  linear_combination cross

theorem sumNumY_cross :
    sumNumY a b c * (1 - lawT b c ^ 2 - sumT b c a) = sumNumY b c a * (1 - lawT a b ^ 2 - sumT a b c) := by
  have cross := edwards_assoc_y ((onCurve_iff a).mp ha) ((onCurve_iff b).mp hb) ((onCurve_iff c).mp hc)
  simp only [sumNumY, sumT, lawT]
  linear_combination cross

theorem padd_assoc : padd (padd a b) c = padd a (padd b c) := by
  have := fact_prime_p
  rw [padd_comm a (padd b c)]
  apply Point.eq_of_zmod
  · apply mul_right_cancel₀ (mul_ne_zero (sumDenX_ne_zero ha hb hc) (sumDenX_ne_zero hb hc ha))
    rw [← mul_assoc, padd_padd_x_mul ha hb hc, sumNumX_cross ha hb hc, ← padd_padd_x_mul hb hc ha]
    ring
  · apply mul_right_cancel₀ (mul_ne_zero (sumDenY_ne_zero ha hb hc) (sumDenY_ne_zero hb hc ha))
    rw [← mul_assoc, padd_padd_y_mul ha hb hc, sumNumY_cross ha hb hc, ← padd_padd_y_mul hb hc ha]
    ring

end

/-- Settles O32: by `edwards_complete` no denominator is 0, and `edwards_closed` divided by them is closure. -/
theorem additionLawIsComplete : Obligations.AdditionLawIsComplete := by
  intro a b ha hb t
  have ht : zmod t = lawT a b := by
    simp only [t, lawT, zmod_fmul]
    ring
  have hadd : zmod (fadd (Fe.ofNat 1) t) = 1 + lawT a b := by simp [ht]
  have hsub : zmod (fsub (Fe.ofNat 1) t) = 1 - lawT a b := by simp [ht]
  refine ⟨?_, ?_, zmod_injective ?_, zmod_injective ?_, onCurve_padd ha hb, onCurve_identity, onCurve_pneg ha⟩
  · rw [Ne, ← zmod_eq_zero_iff, hadd]
    exact one_add_lawT_ne_zero ha hb
  · rw [Ne, ← zmod_eq_zero_iff, hsub]
    exact one_sub_lawT_ne_zero ha hb
  · simpa [hadd] using padd_x_mul ha hb
  · simpa [hsub] using padd_y_mul ha hb

/-- Settles O33: closure from completeness, associativity from the crossed identities. -/
theorem pointsFormAGroup : Obligations.PointsFormAGroup := fun a b _ ha hb hc =>
  ⟨onCurve_identity, onCurve_padd ha hb, onCurve_pneg ha, padd_comm a b, padd_assoc ha hb hc, padd_identity a, padd_pneg ha⟩

end Sys2Proof.Machine
end

section
/-! PROOFS. Scalar multiplication as repeated addition in the group of the curve (R18, R222), and the order of B (R11). -/

/- As in the model's files on the primes and the curve: one thread for all the kernel's evaluations. -/
set_option Elab.async false

namespace Sys2Proof.Machine

/-! ## The group of the curve -/

/-- A point together with the proof that it is on the curve. -/
structure CurvePoint where
  point : Point
  onCurve : OnCurve point

theorem CurvePoint.ext {P Q : CurvePoint} (h : P.point = Q.point) : P = Q := by
  cases P
  cases Q
  simpa using h

/-- The abelian group of R16 and R17. -/
@[reducible] def curveGroup : AddCommGroup CurvePoint :=
  letI : Add CurvePoint := ⟨fun P Q => ⟨padd P.point Q.point, onCurve_padd P.onCurve Q.onCurve⟩⟩
  letI : Zero CurvePoint := ⟨⟨Point.identity, onCurve_identity⟩⟩
  letI : Neg CurvePoint := ⟨fun P => ⟨pneg P.point, onCurve_pneg P.onCurve⟩⟩
  have comm (P Q : CurvePoint) : P + Q = Q + P := CurvePoint.ext (padd_comm P.point Q.point)
  { AddGroup.ofRightAxioms (fun P Q R : CurvePoint => CurvePoint.ext (padd_assoc P.onCurve Q.onCurve R.onCurve))
      (fun P => CurvePoint.ext (padd_identity P.point)) (fun P => CurvePoint.ext (padd_pneg P.onCurve)) with
    add_comm := comm }

/-- The n-fold sum of P (R18's definition). -/
def multiple (n : Nat) (P : CurvePoint) : CurvePoint :=
  letI := curveGroup
  n • P

theorem multiple_zero (P : CurvePoint) : (multiple 0 P).point = Point.identity :=
  letI := curveGroup
  congrArg CurvePoint.point (zero_nsmul P)

theorem multiple_succ (n : Nat) (P : CurvePoint) : (multiple (n + 1) P).point = padd (multiple n P).point P.point :=
  letI := curveGroup
  congrArg CurvePoint.point (succ_nsmul P n)

theorem multiple_add (m n : Nat) (P : CurvePoint) :
    (multiple (m + n) P).point = padd (multiple m P).point (multiple n P).point :=
  letI := curveGroup
  congrArg CurvePoint.point (add_nsmul P m n)

theorem multiple_mul (m n : Nat) (P : CurvePoint) : multiple (m * n) P = multiple m (multiple n P) :=
  letI := curveGroup
  mul_nsmul' P m n

/-- A multiple of a point of order m depends only on the factor mod m. -/
theorem multiple_mod {m : Nat} {P : CurvePoint} (h : multiple m P = multiple 0 P) (n : Nat) :
    multiple n P = multiple (n % m) P :=
  letI := curveGroup
  nsmul_eq_mod_nsmul n (h.trans (zero_nsmul P))

/-! ## Double and add -/

theorem smulBits_eq_multiple (P : CurvePoint) (bits n : Nat) (h : n < 2 ^ bits) :
    smulBits P.point bits n = (multiple n P).point := by
  induction bits generalizing n with
  | zero =>
    rw [pow_zero, Nat.lt_one_iff] at h
    rw [h, multiple_zero, smulBits]
  | succ bits ih =>
    have half := ih (n / 2) (by rw [pow_succ] at h; omega)
    have double : pdbl (multiple (n / 2) P).point = (multiple (n / 2 + n / 2) P).point := (multiple_add _ _ P).symm
    simp only [smulBits, half, double]
    split
    · rw [← multiple_succ, show n / 2 + n / 2 + 1 = n by omega]
    · rw [show n / 2 + n / 2 = n by omega]

theorem smul_eq_multiple (n : Nat) (P : CurvePoint) : smul n P.point = (multiple n P).point :=
  smulBits_eq_multiple P _ n Nat.lt_log2_self

/-- Settles O34: double and add is the n-fold sum in the group of the curve. -/
theorem scalarMultiplicationIsRepeatedAddition : Obligations.ScalarMultiplicationIsRepeatedAddition := by
  intro q hq
  constructor
  · exact (smul_eq_multiple 0 ⟨q, hq⟩).trans (multiple_zero _)
  · intro n
    have h := multiple_succ n ⟨q, hq⟩
    rwa [← smul_eq_multiple, ← smul_eq_multiple] at h

/-! ## Projective coordinates

An addition without inversions, by which the kernel computes L·B: in R17's law an inversion is a power with a 255-bit
exponent. -/

/-- x/z and y/z are the affine coordinates. -/
structure ProjPoint where
  x : Fe
  y : Fe
  z : Fe

def ProjPoint.IsOf (P : ProjPoint) (q : Point) : Prop :=
  zmod P.z ≠ 0 ∧ zmod P.x = zmod q.x * zmod P.z ∧ zmod P.y = zmod q.y * zmod P.z

def ProjPoint.ofPoint (q : Point) : ProjPoint := ⟨q.x, q.y, Fe.ofNat 1⟩

def ProjPoint.add (P Q : ProjPoint) : ProjPoint :=
  let z := fmul P.z Q.z
  let t := fmul curveD (fmul (fmul P.x Q.x) (fmul P.y Q.y))
  let plus := fadd (fmul z z) t
  let minus := fsub (fmul z z) t
  ⟨fmul (fmul z minus) (fadd (fmul P.x Q.y) (fmul P.y Q.x)),
   fmul (fmul z plus) (fadd (fmul P.y Q.y) (fmul P.x Q.x)), fmul plus minus⟩

/-- Double and add as in `smulBits`. -/
def ProjPoint.smulBits (Q : ProjPoint) : Nat → Nat → ProjPoint
  | 0, _ => ofPoint Point.identity
  | bits + 1, n =>
    let h := smulBits Q bits (n / 2)
    if n % 2 = 1 then (h.add h).add Q else h.add h

theorem ProjPoint.ofPoint_isOf (q : Point) : (ProjPoint.ofPoint q).IsOf q := by
  have := fact_prime_p
  simp [ProjPoint.IsOf, ProjPoint.ofPoint]

/-- With z the product of the two z coordinates, the sum is that of R17 with every coordinate times z^4·(1 − t²). -/
theorem ProjPoint.IsOf.zmod_add {P Q : ProjPoint} {a b : Point} (hP : P.IsOf a) (hQ : Q.IsOf b) :
    zmod (P.add Q).x =
      (zmod P.z * zmod Q.z) ^ 4 * (1 - lawT a b) * (zmod a.x * zmod b.y + zmod a.y * zmod b.x) ∧
    zmod (P.add Q).y =
      (zmod P.z * zmod Q.z) ^ 4 * (1 + lawT a b) * (zmod a.y * zmod b.y + zmod a.x * zmod b.x) ∧
    zmod (P.add Q).z = (zmod P.z * zmod Q.z) ^ 4 * ((1 + lawT a b) * (1 - lawT a b)) := by
  obtain ⟨-, hPx, hPy⟩ := hP
  obtain ⟨-, hQx, hQy⟩ := hQ
  simp only [ProjPoint.add, zmod_fmul, zmod_fadd, zmod_fsub, hPx, hPy, hQx, hQy, lawT]
  exact ⟨by ring, by ring, by ring⟩

theorem ProjPoint.IsOf.add {P Q : ProjPoint} {a b : Point} (hP : P.IsOf a) (hQ : Q.IsOf b) (ha : OnCurve a) (hb : OnCurve b) :
    (P.add Q).IsOf (padd a b) := by
  have := fact_prime_p
  obtain ⟨hx, hy, hz⟩ := hP.zmod_add hQ
  refine ⟨?_, ?_, ?_⟩
  · rw [hz]
    exact mul_ne_zero (pow_ne_zero 4 (mul_ne_zero hP.1 hQ.1))
      (mul_ne_zero (one_add_lawT_ne_zero ha hb) (one_sub_lawT_ne_zero ha hb))
  · rw [hx, hz, ← padd_x_mul ha hb]
    ring
  · rw [hy, hz, ← padd_y_mul ha hb]
    ring

theorem onCurve_smulBits {q : Point} (hq : OnCurve q) (bits n : Nat) : OnCurve (smulBits q bits n) := by
  induction bits generalizing n with
  | zero => exact onCurve_identity
  | succ bits ih =>
    have double : OnCurve (pdbl (smulBits q bits (n / 2))) := onCurve_padd (ih _) (ih _)
    simp only [smulBits]
    split
    · exact onCurve_padd double hq
    · exact double

theorem ProjPoint.smulBits_isOf {q : Point} (hq : OnCurve q) (bits n : Nat) :
    ((ProjPoint.ofPoint q).smulBits bits n).IsOf (Machine.smulBits q bits n) := by
  induction bits generalizing n with
  | zero => exact ProjPoint.ofPoint_isOf _
  | succ bits ih =>
    have half := onCurve_smulBits hq bits (n / 2)
    have double := (ih (n / 2)).add (ih (n / 2)) half half
    simp only [ProjPoint.smulBits, Machine.smulBits]
    split
    · exact double.add (ProjPoint.ofPoint_isOf q) (onCurve_padd half half) hq
    · exact double

theorem ProjPoint.IsOf.eq_identity {P : ProjPoint} {q : Point} (h : P.IsOf q) (hx : P.x = Fe.ofNat 0) (hy : P.y = P.z) :
    q = Point.identity := by
  have := fact_prime_p
  obtain ⟨hz, hqx, hqy⟩ := h
  apply Point.eq_of_zmod
  · apply mul_right_cancel₀ hz
    rw [← hqx, hx]
    simp [Point.identity]
  · apply mul_right_cancel₀ hz
    rw [← hqy, hy]
    simp [Point.identity]

theorem onCurve_basePoint : OnCurve basePoint := by decide +kernel

/-- L·B = O (R11). -/
theorem smul_groupOrder_basePoint : smul groupOrder basePoint = Point.identity := by
  have computed : ((ProjPoint.ofPoint basePoint).smulBits 253 groupOrder).x = Fe.ofNat 0 ∧
      ((ProjPoint.ofPoint basePoint).smulBits 253 groupOrder).y =
        ((ProjPoint.ofPoint basePoint).smulBits 253 groupOrder).z := by decide +kernel
  rw [smul, show groupOrder.log2 + 1 = 253 by decide +kernel]
  exact (ProjPoint.smulBits_isOf onCurve_basePoint 253 groupOrder).eq_identity computed.1 computed.2

/-! ## The laws -/

theorem smul_smul_eq {q : Point} (hq : OnCurve q) (a b : Nat) : smul a (smul b q) = smul (a * b) q := by
  have h := smul_eq_multiple (a * b) ⟨q, hq⟩
  rw [multiple_mul, ← smul_eq_multiple, ← smul_eq_multiple] at h
  exact h.symm

theorem padd_smul_smul {q : Point} (hq : OnCurve q) (a b : Nat) : padd (smul a q) (smul b q) = smul (a + b) q := by
  have h := smul_eq_multiple (a + b) ⟨q, hq⟩
  rw [multiple_add, ← smul_eq_multiple, ← smul_eq_multiple] at h
  exact h.symm

/-- Settles O35: the laws of multiples in the group of the curve, where L·B = O. -/
theorem scalarMultiplicationLaws : Obligations.ScalarMultiplicationLaws := by
  refine ⟨fun a b q hq => ⟨smul_smul_eq hq a b, padd_smul_smul hq a b⟩, smul_groupOrder_basePoint, fun n => ?_⟩
  have order : multiple groupOrder ⟨basePoint, onCurve_basePoint⟩ = multiple 0 ⟨basePoint, onCurve_basePoint⟩ := by
    apply CurvePoint.ext
    rw [← smul_eq_multiple, multiple_zero, smul_groupOrder_basePoint]
  have h := congrArg CurvePoint.point (multiple_mod order n)
  rwa [← smul_eq_multiple, ← smul_eq_multiple] at h

end Sys2Proof.Machine
end

section
/-! PROOFS. The encoding of points: it is injective on the curve (R21), and `dec` inverts it (R22, by the root R23 gives). -/

namespace Sys2Proof.Machine

/-! ## A field element by its square and its sign -/

theorem sign_fneg {a : Fe} (h : zmod a ≠ 0) : sign (fneg a) ≠ sign a := by
  rw [Ne, zmod_eq_zero_iff] at h
  have ha := a.isLt
  have odd : p % 2 = 1 := by decide
  simp only [sign, fneg, Fe.val_ofNat, Nat.mod_eq_of_lt (show p - a.val < p by omega)]
  omega

theorem eq_or_eq_fneg_of_sq_eq {a b : Fe} (h : zmod a ^ 2 = zmod b ^ 2) : a = b ∨ a = fneg b := by
  have := fact_prime_p
  rcases sq_eq_sq_iff_eq_or_eq_neg.mp h with same | opposite
  · exact .inl (zmod_injective same)
  · exact .inr (zmod_injective (by rw [opposite, zmod_fneg]))

theorem fneg_fneg (a : Fe) : fneg (fneg a) = a := zmod_injective (by simp)

theorem eq_of_sq_eq_of_sign_eq {a b : Fe} (hsq : zmod a ^ 2 = zmod b ^ 2) (hsign : sign a = sign b) : a = b := by
  rcases eq_or_eq_fneg_of_sq_eq hsq with same | rfl
  · exact same
  · by_cases hb : zmod b = 0
    · exact zmod_injective (by rw [zmod_fneg, hb, neg_zero])
    · exact absurd hsign (sign_fneg hb)

/-- The choice between a root and its negation by the sign bit. -/
theorem ite_sign_eq_of_sq_eq {r a : Fe} (hsq : zmod r ^ 2 = zmod a ^ 2) : (if sign r = sign a then r else fneg r) = a := by
  split
  · next hsign => exact eq_of_sq_eq_of_sign_eq hsq hsign
  · next hsign =>
    rcases eq_or_eq_fneg_of_sq_eq hsq with rfl | rfl
    · exact absurd rfl hsign
    · exact fneg_fneg a

/-! ## The x coordinate of a point of the curve by its y coordinate -/

/-- Else d would be (I/y)². -/
theorem curveD_mul_sq_add_one_ne_zero (y : ZMod p) : zmod curveD * (y * y) + 1 ≠ 0 := by
  have := fact_prime_p
  intro h
  have hy : y ≠ 0 := by
    rintro rfl
    simp at h
  refine zmod_curveD_not_square ⟨zmod sqrtMinusOne / y, ?_⟩
  rw [div_mul_div_comm, zmod_sqrtMinusOne_sq, div_eq_iff (mul_ne_zero hy hy)]
  linear_combination -h

/-- The curve equation solved for x². -/
theorem sq_x_of_onCurve {q : Point} (hq : OnCurve q) :
    zmod q.x ^ 2 = (zmod q.y * zmod q.y - 1) * (zmod curveD * (zmod q.y * zmod q.y) + 1)⁻¹ := by
  have := fact_prime_p
  rw [eq_mul_inv_iff_mul_eq₀ (curveD_mul_sq_add_one_ne_zero _)]
  linear_combination -(onCurve_iff q).mp hq

theorem eq_of_y_eq_of_sign_eq {q r : Point} (hq : OnCurve q) (hr : OnCurve r) (hy : q.y = r.y) (hsign : sign q.x = sign r.x) :
    q = r := by
  have hsq : zmod q.x ^ 2 = zmod r.x ^ 2 := by rw [sq_x_of_onCurve hq, sq_x_of_onCurve hr, hy]
  exact Point.eq_of_zmod (congrArg zmod (eq_of_sq_eq_of_sign_eq hsq hsign)) (congrArg zmod hy)

/-! ## The encoding -/

theorem sign_le_one (x : Fe) : sign x ≤ 1 := by
  rw [sign]
  omega

theorem Fe.val_lt_two_pow (a : Fe) : a.val < 2 ^ 255 := a.isLt.trans (by decide)

theorem leInt_enc (q : Point) : leInt (enc q) = q.y.val + sign q.x * 2 ^ 255 := by
  have hy := Fe.val_lt_two_pow q.y
  have hs := sign_le_one q.x
  apply leInt_leBytes
  omega

theorem leInt_enc_mod (q : Point) : leInt (enc q) % 2 ^ 255 = q.y.val := by
  have hy := Fe.val_lt_two_pow q.y
  rw [leInt_enc]
  omega

theorem leInt_enc_div (q : Point) : leInt (enc q) / 2 ^ 255 % 2 = sign q.x := by
  have hy := Fe.val_lt_two_pow q.y
  have hs := sign_le_one q.x
  rw [leInt_enc]
  omega

/-- Settles O30: the encoding holds y and the sign of x, and on the curve these two give the point. -/
theorem encodingIsInjectiveOnPoints : Obligations.EncodingIsInjectiveOnPoints := by
  refine ⟨fun q => ⟨leBytes_length 32 _, leInt_enc q⟩, fun q r hq hr henc => ?_⟩
  apply eq_of_y_eq_of_sign_eq hq hr
  · apply Fin.ext
    rw [← leInt_enc_mod, henc, leInt_enc_mod]
  · rw [← leInt_enc_div, henc, leInt_enc_div]

/-! ## The decoding -/

/-- x² as `decCandidate` computes it from y. -/
def xSquared (y : Fe) : Fe :=
  fmul (fsub (fmul y y) (Fe.ofNat 1)) (finv (fadd (fmul curveD (fmul y y)) (Fe.ofNat 1)))

/-- The square root of v as `decCandidate` computes it (R23). -/
def squareRoot (v : Fe) : Fe :=
  if fmul (fpow v ((p + 3) / 8)) (fpow v ((p + 3) / 8)) = v then fpow v ((p + 3) / 8)
  else fmul (fpow v ((p + 3) / 8)) sqrtMinusOne

theorem decCandidate_eq (n : Nat) :
    decCandidate n =
      ⟨if sign (squareRoot (xSquared (Fe.ofNat (n % 2 ^ 255)))) = n / 2 ^ 255 % 2
        then squareRoot (xSquared (Fe.ofNat (n % 2 ^ 255)))
        else fneg (squareRoot (xSquared (Fe.ofNat (n % 2 ^ 255)))), Fe.ofNat (n % 2 ^ 255)⟩ := rfl

theorem zmod_xSquared {q : Point} (hq : OnCurve q) : zmod (xSquared q.y) = zmod q.x ^ 2 := by
  rw [sq_x_of_onCurve hq]
  simp only [xSquared, zmod_fmul, zmod_finv, zmod_fadd, zmod_fsub, zmod_ofNat, Nat.cast_one]

/-- With r = (x²)^((p+3)/8), r⁴ = x^(p+3) = x⁴ by Fermat's little theorem, so r² is x² or −x². -/
theorem root_sq_eq_or_eq_neg (x : ZMod p) :
    ((x ^ 2) ^ ((p + 3) / 8)) ^ 2 = x ^ 2 ∨ ((x ^ 2) ^ ((p + 3) / 8)) ^ 2 = -x ^ 2 := by
  have := fact_prime_p
  apply sq_eq_sq_iff_eq_or_eq_neg.mp
  calc (((x ^ 2) ^ ((p + 3) / 8)) ^ 2) ^ 2 = x ^ (2 * ((p + 3) / 8) * 2 * 2) := by simp only [pow_mul]
    _ = x ^ (p + 3) := congrArg (x ^ ·) (by decide)
    _ = (x ^ 2) ^ 2 := by
      rw [pow_add, ZMod.pow_card]
      ring

theorem squareRoot_sq {v a : Fe} (h : zmod v = zmod a ^ 2) : zmod (squareRoot v) ^ 2 = zmod v := by
  have hr : zmod (fpow v ((p + 3) / 8)) = (zmod a ^ 2) ^ ((p + 3) / 8) := by
    rw [zmod_fpow v _ (by decide), h]
  have cases := root_sq_eq_or_eq_neg (zmod a)
  rw [← hr, ← h] at cases
  rw [squareRoot]
  split
  · next hroot => rw [pow_two, ← zmod_fmul, hroot]
  · next hroot =>
    have minus := cases.resolve_left fun hsq => hroot (zmod_injective (by rw [zmod_fmul, ← pow_two, hsq]))
    rw [zmod_fmul, mul_pow, minus, pow_two, zmod_sqrtMinusOne_sq]
    ring

theorem decCandidate_enc {q : Point} (hq : OnCurve q) : decCandidate (leInt (enc q)) = q := by
  have hy : Fe.ofNat q.y.val = q.y := Fin.ext (Nat.mod_eq_of_lt q.y.isLt)
  have hv := zmod_xSquared hq
  rw [decCandidate_eq, leInt_enc_mod, leInt_enc_div, hy, ite_sign_eq_of_sq_eq ((squareRoot_sq hv).trans hv)]

/-- Settles O31: the candidate of the encoding of a point is that point, and `dec` accepts only what encodes back. -/
theorem decodingInvertsEncoding : Obligations.DecodingInvertsEncoding := by
  intro b _
  have found (q : Point) : dec b = some q ↔ OnCurve q ∧ enc q = b := by
    simp only [dec, Option.ite_none_right_eq_some, Option.some.injEq]
    constructor
    · rintro ⟨h, rfl⟩
      exact h
    · rintro ⟨hq, rfl⟩
      rw [decCandidate_enc hq]
      exact ⟨⟨hq, rfl⟩, rfl⟩
  have notFound : dec b = none ↔ ¬∃ q : Point, OnCurve q ∧ enc q = b := by
    simp only [← found, Option.eq_none_iff_forall_ne_some, not_exists]
  refine ⟨found, notFound, fun hy => notFound.mpr ?_⟩
  rintro ⟨q, -, rfl⟩
  rw [leInt_enc_mod] at hy
  exact hy.not_gt q.y.isLt

end Sys2Proof.Machine
end

section
/-! PROOFS. Two runs side by side: a relation on states that every operation of an instruction respects is respected by every
instruction. It is used where one piece of state must not be seen: the value of an invalid register (R34, R35), and C (R40). -/

namespace Sys2Proof.Machine

/-! ## Relations that every operation respects -/

/-- Related states agree in all that an instruction other than BC and BNC reads, and each operation that an instruction
ends with takes related states to related states. -/
structure RespectedByOps (R : State → State → Prop) : Prop where
  f {s t : State} : R s t → SameWhereValid s.f t.f
  s {s t : State} : R s t → SameWhereValid s.s t.s
  p {s t : State} : R s t → SameWhereValid s.p t.p
  pc {s t : State} : R s t → s.pc = t.pc
  params {s t : State} : R s t → s.params = t.params
  dmem {s t : State} : R s t → s.dmem = t.dmem
  trap {s t : State} (c : Cause) (i : Instr) (a : Nat) : R s t → R (s.trap c i a) (t.trap c i a)
  halt {s t : State} (code : BitVec 8) : R s t → R (s.halt code) (t.halt code)
  jump {s t : State} (target : BitVec 16) : R s t → R (s.jump target) (t.jump target)
  setC {s t : State} (b : Bool) : R s t → R (s.setC b) (t.setC b)
  writeF {s t : State} (r : FReg) (v : Fe) : R s t → R (s.writeF r v) (t.writeF r v)
  writeS {s t : State} (r : SReg) (v : Scalar) : R s t → R (s.writeS r v) (t.writeS r v)
  writeP {s t : State} (r : PReg) (q : Point) : R s t → R (s.writeP r q) (t.writeP r q)
  storeBytes {s t : State} (a : Nat) (b : List Byte) : R s t → R (s.storeBytes a b) (t.storeBytes a b)

namespace RespectedByOps

variable {R : State → State → Prop} (hR : RespectedByOps R) {s t : State}
include hR

theorem advance (h : R s t) : R s.advance t.advance := by
  rw [State.advance, State.advance, hR.pc h]
  exact hR.jump _ h

theorem putF (r : FReg) (v : Fe) (h : R s t) : R (putF r v s) (putF r v t) := hR.advance (hR.writeF r v h)

theorem putS (r : SReg) (v : Scalar) (h : R s t) : R (putS r v s) (putS r v t) := hR.advance (hR.writeS r v h)

theorem putP (r : PReg) (q : Point) (h : R s t) : R (putP r q s) (putP r q t) := hR.advance (hR.writeP r q h)

theorem compare (b : Bool) (h : R s t) : R (compare b s) (compare b t) := hR.advance (hR.setC b h)

theorem branch (taken : Bool) (off : Int) (h : R s t) : R (branch taken off s) (branch taken off t) := by
  rw [Machine.branch, Machine.branch, hR.pc h]
  split
  · exact hR.jump _ h
  · exact hR.advance h

theorem withF {i : Instr} {r : FReg} {k k' : Fe → State} (h : R s t) (hk : ∀ v, R (k v) (k' v)) :
    R (withF i r s k) (withF i r t k') := by
  obtain ⟨valid, value⟩ := hR.f h r
  rcases withF_cases i r s k with ⟨hv, e⟩ | ⟨hv, e⟩ <;> rw [e]
  · rw [withF_of_valid k' (valid ▸ hv), ← value hv]
    exact hk _
  · rw [withF_of_invalid k' (valid ▸ hv)]
    exact hR.trap _ _ _ h

theorem withS {i : Instr} {r : SReg} {k k' : Scalar → State} (h : R s t) (hk : ∀ v, R (k v) (k' v)) :
    R (withS i r s k) (withS i r t k') := by
  obtain ⟨valid, value⟩ := hR.s h r
  rcases withS_cases i r s k with ⟨hv, e⟩ | ⟨hv, e⟩ <;> rw [e]
  · rw [withS_of_valid k' (valid ▸ hv), ← value hv]
    exact hk _
  · rw [withS_of_invalid k' (valid ▸ hv)]
    exact hR.trap _ _ _ h

theorem withP {i : Instr} {r : PReg} {k k' : Point → State} (h : R s t) (hk : ∀ q, R (k q) (k' q)) :
    R (withP i r s k) (withP i r t k') := by
  obtain ⟨valid, value⟩ := hR.p h r
  rcases withP_cases i r s k with ⟨hv, e⟩ | ⟨hv, e⟩ <;> rw [e]
  · rw [withP_of_valid k' (valid ▸ hv), ← value hv]
    exact hk _
  · rw [withP_of_invalid k' (valid ▸ hv)]
    exact hR.trap _ _ _ h

theorem withAddr {i : Instr} {n addr : Nat} {k k' : State} (h : R s t) (hk : R k k') :
    R (withAddr i n addr s k) (withAddr i n addr t k') := by
  rw [Machine.withAddr, Machine.withAddr, hR.params h]
  split
  · exact hR.trap _ _ _ h
  · split
    · exact hR.trap _ _ _ h
    · exact hk

theorem withBytes {i : Instr} {n addr : Nat} {k k' : List Byte → State} (h : R s t) (hk : ∀ b, R (k b) (k' b)) :
    R (withBytes i n addr s k) (withBytes i n addr t k') := by
  rw [Machine.withBytes, Machine.withBytes, hR.dmem h]
  exact hR.withAddr h (hk _)

theorem storeTo {i : Instr} {addr : Nat} {b : List Byte} (h : R s t) : R (storeTo i addr b s) (storeTo i addr b t) :=
  hR.withAddr h (hR.advance (hR.storeBytes addr b h))

/-- Related states have related successors, under BC and BNC where they agree in C. -/
theorem exec {i : Instr} (h : R s t) (hc : (∀ off, i ≠ .bc off ∧ i ≠ .bnc off) ∨ s.c = t.c) :
    ∃ s' t', exec i s = .next s' ∧ exec i t = .next t' ∧ R s' t' := by
  cases i with
  | halt code => exact ⟨_, _, rfl, rfl, hR.halt _ h⟩
  | j off => exact ⟨_, _, rfl, rfl, hR.branch true off h⟩
  | bc off =>
    have hc : s.c = t.c := hc.resolve_left fun hn => (hn off).1 rfl
    exact ⟨_, _, rfl, rfl, hc ▸ hR.branch _ off h⟩
  | bnc off =>
    have hc : s.c = t.c := hc.resolve_left fun hn => (hn off).2 rfl
    exact ⟨_, _, rfl, rfl, hc ▸ hR.branch _ off h⟩
  | feLd fd addr => exact ⟨_, _, rfl, rfl, hR.withBytes h fun _ => hR.putF fd _ h⟩
  | feSt fa addr => exact ⟨_, _, rfl, rfl, hR.withF h fun _ => hR.storeTo h⟩
  | feLdi fd imm => exact ⟨_, _, rfl, rfl, hR.putF fd _ h⟩
  | feMov fd fa | feSqr fd fa | feInv fd fa | feNeg fd fa =>
    exact ⟨_, _, rfl, rfl, hR.withF h fun _ => hR.putF fd _ h⟩
  | feAdd fd fa fb | feSub fd fa fb | feMul fd fa fb =>
    exact ⟨_, _, rfl, rfl, hR.withF h fun _ => hR.withF h fun _ => hR.putF fd _ h⟩
  | feEq fa fb => exact ⟨_, _, rfl, rfl, hR.withF h fun _ => hR.withF h fun _ => hR.compare _ h⟩
  | scLd sd addr | scLdh sd addr => exact ⟨_, _, rfl, rfl, hR.withBytes h fun _ => hR.putS sd _ h⟩
  | scSt sa addr => exact ⟨_, _, rfl, rfl, hR.withS h fun _ => hR.storeTo h⟩
  | scRed sd sa | scClamp sd sa => exact ⟨_, _, rfl, rfl, hR.withS h fun _ => hR.putS sd _ h⟩
  | scAdd sd sa sb | scMul sd sa sb =>
    exact ⟨_, _, rfl, rfl, hR.withS h fun _ => hR.withS h fun _ => hR.putS sd _ h⟩
  | scMulAdd sd sa sb sc =>
    exact ⟨_, _, rfl, rfl, hR.withS h fun _ => hR.withS h fun _ => hR.withS h fun _ => hR.putS sd _ h⟩
  | scLtl sa => exact ⟨_, _, rfl, rfl, hR.withS h fun _ => hR.compare _ h⟩
  | ptDec pd addr =>
    refine ⟨_, _, rfl, rfl, hR.withBytes h fun b => ?_⟩
    cases dec b with
    | none => exact hR.trap _ _ _ h
    | some q => exact hR.putP pd q h
  | ptEnc pa addr => exact ⟨_, _, rfl, rfl, hR.withP h fun _ => hR.storeTo h⟩
  | ptId pd => exact ⟨_, _, rfl, rfl, hR.putP pd _ h⟩
  | ptAdd pd pa pb => exact ⟨_, _, rfl, rfl, hR.withP h fun _ => hR.withP h fun _ => hR.putP pd _ h⟩
  | ptDbl pd pa => exact ⟨_, _, rfl, rfl, hR.withP h fun _ => hR.putP pd _ h⟩
  | ptSmulb pd sa => exact ⟨_, _, rfl, rfl, hR.withS h fun _ => hR.putP pd _ h⟩
  | ptSmul pd sa pb => exact ⟨_, _, rfl, rfl, hR.withS h fun _ => hR.withP h fun _ => hR.putP pd _ h⟩
  | ptEq pa pb => exact ⟨_, _, rfl, rfl, hR.withP h fun _ => hR.withP h fun _ => hR.compare _ h⟩
  | ptGetx fd pa | ptGety fd pa => exact ⟨_, _, rfl, rfl, hR.withP h fun _ => hR.putF fd _ h⟩
  | ptFromxy pd fa fb =>
    refine ⟨_, _, rfl, rfl, hR.withF h fun x => hR.withF h fun y => ?_⟩
    split
    · exact hR.putP pd _ h
    · exact hR.trap _ _ _ h

end RespectedByOps

end Sys2Proof.Machine
end

section
/-! PROOFS. The value of an invalid register cannot be observed (R34, R35). -/

namespace Sys2Proof.Machine

/-! ## Operations that neither read nor write a register -/

/-- u with other register files. -/
def State.withRegs (u : State) (f : Vector (Reg Fe) 16) (s : Vector (Reg Scalar) 16) (p : Vector (Reg Point) 16) : State :=
  { u with f := f, s := s, p := p }

/-- What g does depends on no register, and g leaves them all. -/
def IgnoresRegisters (g : State → State) : Prop := ∀ u f s p, g (u.withRegs f s p) = (g u).withRegs f s p

theorem IgnoresRegisters.ite {P : State → Prop} [DecidablePred P] {g g' : State → State}
    (hP : ∀ u f s p, P (u.withRegs f s p) ↔ P u) (hg : IgnoresRegisters g) (hg' : IgnoresRegisters g') :
    IgnoresRegisters fun u => if P u then g u else g' u := by
  intro u f s p
  simp only [hP, hg u f s p, hg' u f s p]
  split <;> rfl

theorem SameWhereValid.refl {α : Type} (a : Vector (Reg α) 16) : SameWhereValid a a := fun _ => ⟨rfl, fun _ => rfl⟩

theorem SameWhereValid.set {α : Type} {a b : Vector (Reg α) 16} (h : SameWhereValid a b) (r : Fin 16) (x : Reg α) :
    SameWhereValid (a.set r x) (b.set r x) := by
  intro k
  by_cases hk : r.val = k.val
  · simp [hk]
  · simpa [hk] using h k

theorem State.SameObservable.refl (s : State) : s.SameObservable s :=
  ⟨SameWhereValid.refl _, SameWhereValid.refl _, SameWhereValid.refl _, rfl⟩

/-- What neither reads nor writes a register keeps two states indistinguishable. -/
theorem State.SameObservable.map {g : State → State} (hg : IgnoresRegisters g) {s t : State} (h : s.SameObservable t) :
    (g s).SameObservable (g t) := by
  obtain ⟨hf, hs, hp, ht⟩ := h
  have es : g s = (g s).withRegs s.f s.s s.p := hg s s.f s.s s.p
  have et : g t = (g s).withRegs t.f t.s t.p := (congrArg g ht).trans (hg s t.f t.s t.p)
  rw [et, es]
  exact ⟨hf, hs, hp, rfl⟩

theorem State.SameObservable.exists_withRegs {s t : State} (h : s.SameObservable t) : ∃ f sc p, t = s.withRegs f sc p := by
  obtain ⟨-, -, -, ht⟩ := h
  exact ⟨_, _, _, ht⟩

/-! ## Instructions and steps -/

theorem sameObservable_respectedByOps : RespectedByOps State.SameObservable where
  f := fun ⟨hf, _, _, _⟩ => hf
  s := fun ⟨_, hs, _, _⟩ => hs
  p := fun ⟨_, _, hp, _⟩ => hp
  pc := fun ⟨_, _, _, ht⟩ => ht ▸ rfl
  params := fun ⟨_, _, _, ht⟩ => ht ▸ rfl
  dmem := fun ⟨_, _, _, ht⟩ => ht ▸ rfl
  trap c i a := .map (g := (·.trap c i a)) fun _ _ _ _ => rfl
  halt code := .map (g := (·.halt code)) fun _ _ _ _ => rfl
  jump target := .map (g := (·.jump target)) fun _ _ _ _ => rfl
  setC b := .map (g := (·.setC b)) fun _ _ _ _ => rfl
  storeBytes a b := .map (g := (·.storeBytes a b)) fun _ _ _ _ => rfl
  writeF r v := fun ⟨hf, hs, hp, ht⟩ => ⟨hf.set r ⟨v, true⟩, hs, hp, congrArg (·.writeF r v) ht⟩
  writeS r v := fun ⟨hf, hs, hp, ht⟩ => ⟨hf, hs.set r ⟨v, true⟩, hp, congrArg (·.writeS r v) ht⟩
  writeP r q := fun ⟨hf, hs, hp, ht⟩ => ⟨hf, hs, hp.set r ⟨q, true⟩, congrArg (·.writeP r q) ht⟩

theorem State.SameObservable.step {s t : State} (h : s.SameObservable t) :
    ∃ s' t', step s = .next s' ∧ step t = .next t' ∧ s'.SameObservable t' := by
  have raise (c : Cause) (w : Word) := h.map (g := (·.raise c w 0)) fun _ _ _ _ => rfl
  obtain ⟨f, sc, p, ht⟩ := h.exists_withRegs
  have hr : t.runState = s.runState := ht ▸ rfl
  have ha : t.abrq = s.abrq := ht ▸ rfl
  have hpc : t.pc = s.pc := ht ▸ rfl
  have hn : t.params = s.params := ht ▸ rfl
  have hw : t.fetchWord = s.fetchWord := ht ▸ rfl
  have hc : s.c = t.c := ht ▸ rfl
  unfold Machine.step
  rw [hr, ha, hpc, hn, hw]
  split
  · exact ⟨_, _, rfl, rfl, h⟩
  · split
    · exact ⟨_, _, rfl, rfl, h.map (g := State.takeAbort) fun _ _ _ _ => rfl⟩
    · split
      · exact ⟨_, _, rfl, rfl, raise _ _⟩
      · split
        · exact ⟨_, _, rfl, rfl, raise _ _⟩
        · exact sameObservable_respectedByOps.exec h (.inr hc)

/-! ## Host accesses -/

/-- The value g answers depends on no register, and g leaves them all. -/
def ReadIgnoresRegisters (g : State → Word × State) : Prop :=
  ∀ u f s p, g (u.withRegs f s p) = ((g u).1, (g u).2.withRegs f s p)

theorem ReadIgnoresRegisters.ite {P : State → Prop} [DecidablePred P] {g g' : State → Word × State}
    (hP : ∀ u f s p, P (u.withRegs f s p) ↔ P u) (hg : ReadIgnoresRegisters g) (hg' : ReadIgnoresRegisters g') :
    ReadIgnoresRegisters fun u => if P u then g u else g' u := by
  intro u f s p
  simp only [hP, hg u f s p, hg' u f s p]
  split <;> rfl

theorem running_withRegs (u : State) (f s p) : (u.withRegs f s p).runState = .running ↔ u.runState = .running := Iff.rfl

theorem hostRead_ignoresRegisters (off : BitVec 20) (bytes : Nat) : ReadIgnoresRegisters (hostRead off bytes) := by
  have zero : ReadIgnoresRegisters fun u => (0, u) := fun _ _ _ _ => rfl
  have refuse : ReadIgnoresRegisters fun u => (0, u.refuseAccess) := fun _ _ _ _ => rfl
  unfold hostRead
  split
  · split
    · exact fun _ _ _ _ => rfl
    · exact .ite running_withRegs refuse (.ite (fun _ _ _ _ => Iff.rfl) (fun _ _ _ _ => rfl) zero)
    · exact .ite running_withRegs refuse (.ite (fun _ _ _ _ => Iff.rfl) (fun _ _ _ _ => rfl) zero)
    · exact zero
  · exact zero

theorem writeCtrl_ignoresRegisters {v : Word} (h : v.getLsbD 2 = false) : IgnoresRegisters (·.writeCtrl v) := by
  simp only [State.writeCtrl, h, Bool.false_eq_true, if_false]
  split
  · exact .ite running_withRegs (fun _ _ _ _ => rfl) fun _ _ _ _ => rfl
  · split
    · exact .ite running_withRegs (fun _ _ _ _ => rfl) fun _ _ _ _ => rfl
    · exact fun _ _ _ _ => rfl

theorem writeHostReg_ignoresRegisters_or (off : Nat) (v : Word) :
    IgnoresRegisters (·.writeHostReg off v) ∨ ∀ u : State, u.writeHostReg off v = u.softReset := by
  unfold State.writeHostReg
  split
  · cases h : v.getLsbD 2
    · exact .inl (writeCtrl_ignoresRegisters h)
    · exact .inr fun u => if_pos h
  · exact .inl fun _ _ _ _ => rfl
  · exact .inl fun _ _ _ _ => rfl
  · split <;> exact .inl fun _ _ _ _ => rfl
  · exact .inl fun _ _ _ _ => rfl

/-- A host write neither reads nor writes a register, but for CTRL.SRESET, which draws them all. -/
theorem hostWrite_ignoresRegisters_or (off : BitVec 20) (bytes : Nat) (v : Word) :
    IgnoresRegisters (hostWrite off bytes v) ∨ ∀ u, hostWrite off bytes v u = u.softReset := by
  have same : IgnoresRegisters id := fun _ _ _ _ => rfl
  have refuse : IgnoresRegisters State.refuseAccess := fun _ _ _ _ => rfl
  unfold hostWrite
  split
  · split
    · exact writeHostReg_ignoresRegisters_or _ v
    · exact .inl (.ite running_withRegs refuse (.ite (fun _ _ _ _ => Iff.rfl) (fun _ _ _ _ => rfl) same))
    · exact .inl (.ite running_withRegs refuse (.ite (fun _ _ _ _ => Iff.rfl) (fun _ _ _ _ => rfl) same))
    · exact .inl same
  · exact .inl same

/-! ## Events -/

/-- Where the event is a reset, what it leaves does not depend on the registers before it at all. -/
theorem State.SameObservable.event {s t : State} (h : s.SameObservable t) (e : Event) :
    ∃ s' t', event e s = .next s' ∧ event e t = .next t' ∧ s'.SameObservable t' := by
  obtain ⟨f, sc, p, ht⟩ := h.exists_withRegs
  cases e with
  | unitStep => exact h.step
  | read off bytes =>
    exact ⟨_, _, rfl, rfl, h.map (g := fun u => (hostRead off bytes u).2)
      fun u f s p => congrArg Prod.snd (hostRead_ignoresRegisters off bytes u f s p)⟩
  | write off bytes v =>
    refine ⟨_, _, rfl, rfl, ?_⟩
    rcases hostWrite_ignoresRegisters_or off bytes v with hg | hg
    · exact h.map hg
    · rw [hg, hg, ht]
      exact .refl _
  | hardwareReset =>
    refine ⟨_, _, rfl, rfl, ?_⟩
    rw [ht]
    exact .refl _

/-- Settles O47: every event takes indistinguishable states to indistinguishable states, and a host read looks at no register. -/
theorem invalidRegistersAreUnobservable : Obligations.InvalidRegistersAreUnobservable := by
  intro s t h
  constructor
  · intro e s' t' hs ht
    obtain ⟨s'', t'', es, et, h'⟩ := h.event e
    cases es.symm.trans hs
    cases et.symm.trans ht
    exact h'
  · intro off bytes
    obtain ⟨-, -, -, ht⟩ := h
    rw [ht]
    exact (congrArg Prod.fst (hostRead_ignoresRegisters off bytes s t.f t.s t.p)).symm

end Sys2Proof.Machine
end

section
/-! PROOFS. What an instruction, a step and an event leave of the state, read off their outcomes: the registers (R33, R34, R102), the
host's state (R30, R50), STATE and DONE (R41, R64), and the pc (R38, R39, R135). -/

namespace Sys2Proof.Machine

/-! ## The registers an instruction leaves -/

/-- An instruction leaves the 48 registers as they are, or writes the one that its destination field names. -/
inductive RegistersAfter (i : Instr) (s t : State) : Prop where
  | unchanged : t.f = s.f → t.s = s.s → t.p = s.p → RegistersAfter i s t
  | wroteF (r : FReg) (v : Fe) : destF i = some r → t.f = s.f.set r ⟨v, true⟩ → t.s = s.s → t.p = s.p → RegistersAfter i s t
  | wroteS (r : SReg) (v : Scalar) : destS i = some r → t.f = s.f → t.s = s.s.set r ⟨v, true⟩ → t.p = s.p → RegistersAfter i s t
  | wroteP (r : PReg) (q : Point) : destP i = some r → PointResult s q → t.f = s.f → t.s = s.s → t.p = s.p.set r ⟨q, true⟩ →
      RegistersAfter i s t

theorem Outcome.registers {i : Instr} {s t : State} (o : Outcome i s t) : RegistersAfter i s t := by
  cases o with
  | writeF r v hd => exact .wroteF r v hd rfl rfl rfl
  | writeS r v hd => exact .wroteS r v hd rfl rfl rfl
  | writeP r q hd hq => exact .wroteP r q hd hq rfl rfl rfl
  | _ => exact .unchanged rfl rfl rfl

/-- A register that a write of register d changes is d, and is valid then. -/
theorem eq_and_valid_of_set_ne {α : Type} {a : Vector (Reg α) 16} {d r : Fin 16} {v : α}
    (h : (a.set d ⟨v, true⟩)[r] ≠ a[r]) : d = r ∧ (a.set d ⟨v, true⟩)[r].valid = true := by
  by_cases hd : d = r
  · simp [hd]
  · have hv : d.val ≠ r.val := fun e => hd (Fin.ext e)
    simp [hv] at h

/-- Settles O41: the registers are unchanged, or one of one file is set, valid, where the destination field says. -/
theorem onlyTheDestinationRegisterChanges : Obligations.OnlyTheDestinationRegisterChanges := by
  intro i s t h r
  cases (Outcome.of_exec h).registers with
  | unchanged hf hs hp =>
    rw [hf, hs, hp]
    exact ⟨fun n => absurd rfl n, fun n => absurd rfl n, fun n => absurd rfl n⟩
  | wroteF d v hd hf hs hp =>
    rw [hf, hs, hp]
    refine ⟨fun n => ?_, fun n => absurd rfl n, fun n => absurd rfl n⟩
    obtain ⟨rfl, valid⟩ := eq_and_valid_of_set_ne n
    exact ⟨hd, valid⟩
  | wroteS d v hd hf hs hp =>
    rw [hf, hs, hp]
    refine ⟨fun n => absurd rfl n, fun n => ?_, fun n => absurd rfl n⟩
    obtain ⟨rfl, valid⟩ := eq_and_valid_of_set_ne n
    exact ⟨hd, valid⟩
  | wroteP d q hd hq hf hs hp =>
    rw [hf, hs, hp]
    refine ⟨fun n => absurd rfl n, fun n => absurd rfl n, fun n => ?_⟩
    obtain ⟨rfl, valid⟩ := eq_and_valid_of_set_ne n
    exact ⟨hd, valid⟩

/-! ## The point registers stay on the curve -/

theorem onCurve_of_dec {b : List Byte} {q : Point} (h : dec b = some q) : OnCurve q := by
  simp only [dec, Option.ite_none_right_eq_some, Option.some.injEq] at h
  obtain ⟨⟨hq, -⟩, rfl⟩ := h
  exact hq

theorem PointResult.onCurve {s : State} (hs : s.PointsOnCurve) {q : Point} (h : PointResult s q) : OnCurve q := by
  cases h with
  | decoded hd => exact onCurve_of_dec hd
  | identity => exact onCurve_identity
  | sum a b => exact onCurve_padd (hs a) (hs b)
  | baseMultiple n => exact onCurve_smulBits onCurve_basePoint _ n
  | multiple n a => exact onCurve_smulBits (hs a) _ n
  | checked hq => exact hq

theorem State.PointsOnCurve.of_p_eq {s t : State} (hs : s.PointsOnCurve) (h : t.p = s.p) : t.PointsOnCurve := by
  intro r
  rw [h]
  exact hs r

theorem State.PointsOnCurve.of_p_eq_set {s t : State} (hs : s.PointsOnCurve) {d : PReg} {q : Point} (hq : OnCurve q)
    (h : t.p = s.p.set d ⟨q, true⟩) : t.PointsOnCurve := by
  intro r
  rw [h]
  by_cases hd : d.val = r.val
  · simpa [hd] using hq
  · simpa [hd] using hs r

theorem RegistersAfter.pointsOnCurve {i : Instr} {s t : State} (h : RegistersAfter i s t) (hs : s.PointsOnCurve) :
    t.PointsOnCurve := by
  cases h with
  | unchanged _ _ hp => exact hs.of_p_eq hp
  | wroteF _ _ _ _ _ hp => exact hs.of_p_eq hp
  | wroteS _ _ _ _ _ hp => exact hs.of_p_eq hp
  | wroteP _ _ _ hq _ _ hp => exact hs.of_p_eq_set (hq.onCurve hs) hp

theorem StepOutcome.pointsOnCurve {s t : State} (o : StepOutcome s t) (hs : s.PointsOnCurve) : t.PointsOnCurve := by
  cases o with
  | executed i t _ _ _ _ h => exact (Outcome.of_exec h).registers.pointsOnCurve hs
  | _ => exact hs.of_p_eq rfl

theorem pointsOnCurve_afterReset (c : Params) (n : Nat) (m : Mem 32) (d : Mem 8) :
    (State.afterReset c (RegDraw.free n) m d n).PointsOnCurve := by
  intro r
  simpa [State.afterReset] using RegDraw.free_onCurve n r

theorem WriteOutcome.pointsOnCurve {off : BitVec 20} {bytes : Nat} {v : Word} {s t : State} (o : WriteOutcome off bytes v s t)
    (hs : s.PointsOnCurve) : t.PointsOnCurve := by
  cases o with
  | softReset _ _ _ => exact pointsOnCurve_afterReset _ _ _ _
  | _ => exact hs.of_p_eq rfl

/-- Settles O50: each value an instruction writes to a point register is on the curve if the registers it reads are, and a
reset draws points of the curve. -/
theorem everyEventKeepsPointRegistersOnTheCurve : Obligations.EveryEventKeepsPointRegistersOnTheCurve := by
  intro e s t hs h
  cases e with
  | unitStep => exact (StepOutcome.of_step h).pointsOnCurve hs
  | read off bytes =>
    cases h
    rcases hostRead_state off bytes s with e | ⟨-, e⟩ <;> rw [e]
    · exact hs
    · exact hs.of_p_eq rfl
  | write off bytes v => exact (WriteOutcome.of_write (Host.Outcome.next.inj h)).pointsOnCurve hs
  | hardwareReset =>
    cases h
    exact pointsOnCurve_afterReset _ _ _ _

/-! ## The host's state -/

/-- Settles O42: no outcome of an instruction names any of these fields, and HALT's alone names RESULT. -/
theorem programsCannotReachTheHostsState : Obligations.ProgramsCannotReachTheHostsState := by
  intro i s t h
  cases Outcome.of_exec h with
  | halt code hi => exact ⟨rfl, rfl, rfl, rfl, rfl, rfl, rfl, fun _ => ⟨code, hi⟩⟩
  | _ => exact ⟨rfl, rfl, rfl, rfl, rfl, rfl, rfl, fun n => absurd rfl n⟩

/-! ## Where an instruction and a step stop the unit, and where the pc goes -/

/-- An instruction stops the unit by HALT or by an exception, or moves the pc and leaves STATE and DONE. -/
inductive Continuation (i : Instr) (s : State) : State → Prop where
  | halts (code : Nat) : i = .halt code → Continuation i s (s.halt (BitVec.ofNat 8 code))
  | traps (c : Cause) (a : Nat) : c ≠ .noException → Continuation i s (s.trap c i a)
  | goesOn {t : State} : t.runState = s.runState → t.irqPend = s.irqPend →
      (t.pc = s.pc + 1 ∨ ∃ off : Int, (i = .j off ∨ (i = .bc off ∧ s.c = true) ∨ (i = .bnc off ∧ s.c = false)) ∧
        t.pc = branchTarget s.pc off) → Continuation i s t

theorem Outcome.continuation {i : Instr} {s t : State} (o : Outcome i s t) : Continuation i s t := by
  cases o with
  | uninit | notOnCurve | align | bus | decode => exact .traps _ _ nofun
  | halt code hi => exact .halts code hi
  | jump off hi => exact .goesOn rfl rfl (.inr ⟨off, hi, rfl⟩)
  | notTaken | compare | writeF | writeS | writeP | store => exact .goesOn rfl rfl (.inl rfl)

/-- A step leaves STATE and DONE, or halts the unit, or stops it FAULTED with a cause; where it stops it, it leaves the pc. -/
inductive StepStops (s t : State) : Prop where
  | no : t.runState = s.runState → t.irqPend = s.irqPend → StepStops s t
  | halted (code : Nat) : s.runState = .running → decode (s.imem.read s.pc.toNat) = .ok (.halt code) →
      t = s.halt (BitVec.ofNat 8 code) → StepStops s t
  | faulted : s.runState = .running → t.runState = .faulted → t.cause ≠ .noException → t.irqPend = true → t.irqEn = s.irqEn →
      t.pc = s.pc → StepStops s t

theorem StepOutcome.stops {s t : State} (o : StepOutcome s t) : StepStops s t := by
  cases o with
  | stopped hr => exact .no rfl rfl
  | abort hr | fetch hr | illegal _ hr => exact .faulted hr rfl nofun rfl rfl rfl
  | executed i t hr _ _ hd h =>
    cases (Outcome.of_exec h).continuation with
    | halts code hi =>
      subst hi
      exact .halted code hr hd rfl
    | traps c a hc => exact .faulted hr rfl hc rfl rfl rfl
    | goesOn er ed _ => exact .no er ed

theorem branchTarget_toNat (pc : BitVec 16) (off : Int) : ((branchTarget pc off).toNat : Int) = ((pc.toNat : Int) + off) % 65536 := by
  simp only [branchTarget, BitVec.toNat_ofInt]
  omega

/-- Settles O45: an instruction that does not stop the unit adds 1 to the pc or takes a branch. -/
theorem pcAdvancesByOneOrByATakenBranch : Obligations.PcAdvancesByOneOrByATakenBranch := by
  intro s t hr h
  cases StepOutcome.of_step h with
  | stopped hn => exact absurd hr hn
  | abort | fetch | illegal => exact ⟨fun _ => rfl, nofun⟩
  | executed i t _ _ _ hd h =>
    cases (Outcome.of_exec h).continuation with
    | halts | traps => exact ⟨fun _ => rfl, nofun⟩
    | goesOn er _ hpc =>
      refine ⟨fun n => absurd (er.trans hr) n, fun _ => ⟨i, hd, ?_⟩⟩
      rcases hpc with next | ⟨off, hi, target⟩
      · exact .inl next
      · exact .inr ⟨off, hi, by rw [target, branchTarget_toNat]⟩

/-! ## STATE -/

theorem WriteOutcome.runState {off : BitVec 20} {bytes : Nat} {v : Word} {s t : State} (o : WriteOutcome off bytes v s t) :
    t.runState = s.runState ∨
      (t.runState = .idle ∧ off = 0x04 ∧ bytes = 4 ∧ v.getLsbD 2 = true) ∨
      (t.runState = .running ∧ s.runState ≠ .running ∧ off = 0x04 ∧ bytes = 4 ∧ v.getLsbD 0 = true) := by
  cases o with
  | softReset ho hb hv => exact .inr (.inl ⟨rfl, ho, hb, hv⟩)
  | start ho hb hv hn => exact .inr (.inr ⟨rfl, hn, ho, hb, hv⟩)
  | _ => exact .inl rfl

/-- Settles O43: the transitions that the outcomes of a step and of a host write name. -/
theorem runStateHasOnlyTheNamedTransitions : Obligations.RunStateHasOnlyTheNamedTransitions := by
  intro e s t h changed
  cases e with
  | unitStep =>
    cases (StepOutcome.of_step h).stops with
    | no er _ => exact absurd er changed
    | halted code hr hd et => exact .inr (.inr (.inl ⟨et ▸ rfl, hr, rfl, code, hd, et ▸ rfl⟩))
    | faulted hr ht hc _ _ _ => exact .inr (.inr (.inr ⟨ht, hr, rfl, hc⟩))
  | read off bytes =>
    cases h
    rcases hostRead_state off bytes s with e | ⟨-, e⟩ <;> exact absurd (congrArg State.runState e) changed
  | write off bytes v =>
    rcases (WriteOutcome.of_write (Host.Outcome.next.inj h)).runState with er | ⟨ht, rfl, rfl, hv⟩ | ⟨ht, hn, rfl, rfl, hv⟩
    · exact absurd er changed
    · exact .inl ⟨ht, .inr ⟨v, rfl, hv⟩⟩
    · exact .inr (.inl ⟨ht, hn, v, rfl, hv⟩)
  | hardwareReset =>
    cases h
    exact .inl ⟨rfl, .inl rfl⟩

end Sys2Proof.Machine
end

section
/-! PROOFS. The host registers (R50–R66): what each offset reads, what a write does, CTRL (R53), and the state after reset (R290). -/

namespace Sys2Proof.Machine

/-! ## Accesses to the host registers -/

theorem regionOf_hostReg {off : BitVec 20} (h : off.toNat < 0x100) : regionOf off = .hostReg off.toNat := if_pos h

theorem hostRead_hostReg {off : BitVec 20} (h : off.toNat < 0x100) (s : State) :
    hostRead off 4 s = if off.toNat % 4 = 0 then (s.readHostReg off.toNat, s) else (0, s) := by
  simp [hostRead, accessActs, regionOf_hostReg h]

theorem hostWrite_hostReg {off : BitVec 20} (h : off.toNat < 0x100) (v : Word) (s : State) :
    hostWrite off 4 v s = if off.toNat % 4 = 0 then s.writeHostReg off.toNat v else s := by
  simp [hostWrite, accessActs, regionOf_hostReg h]

theorem readHostReg_reserved {n : Nat} (h : 0x28 ≤ n) (s : State) : s.readHostReg n = 0 := by
  unfold State.readHostReg
  split
  case h_10 => rfl
  all_goals omega

theorem writeHostReg_ignored {n : Nat} (hn : n ≠ 0x04 ∧ n ≠ 0x0C ∧ n ≠ 0x1C ∧ n ≠ 0x20) (v : Word) (s : State) :
    s.writeHostReg n v = s := by
  unfold State.writeHostReg
  split
  case h_5 => rfl
  all_goals omega

theorem hostRead_status (s : State) : hostRead 0x08 4 s = (s.statusWord, s) := rfl

theorem hostRead_entry (s : State) : hostRead 0x0C 4 s = (s.entry.setWidth 32, s) := rfl

theorem hostRead_pc (s : State) : hostRead 0x10 4 s = (s.pc.setWidth 32, s) := rfl

theorem hostRead_faddr (s : State) : hostRead 0x18 4 s = (s.faddr.setWidth 32, s) := rfl

theorem hostRead_irqEn (s : State) : hostRead 0x1C 4 s = ((BitVec.ofBool s.irqEn).setWidth 32, s) := rfl

theorem hostRead_config (s : State) : hostRead 0x24 4 s = (configWord s.params, s) := rfl

theorem hostRead_irqPend (s : State) : hostRead 0x20 4 s = ((BitVec.ofBool s.irqPend).setWidth 32, s) := rfl

theorem hostWrite_ctrl (v : Word) (s : State) : hostWrite 0x04 4 v s = s.writeCtrl v := rfl

theorem hostWrite_irqEn (v : Word) (s : State) : hostWrite 0x1C 4 v s = { s with irqEn := v.getLsbD 0 } := rfl

theorem hostWrite_irqPend (v : Word) (s : State) :
    hostWrite 0x20 4 v s = if v.getLsbD 0 = true then { s with irqPend := false } else s := rfl

theorem setWidth_ofBool (b : Bool) : (BitVec.ofBool b).setWidth 32 = if b = true then 1 else 0 := by
  cases b <;> rfl

/-! ## CTRL (R53) -/

theorem writeCtrl_sreset {v : Word} (h2 : v.getLsbD 2 = true) (s : State) : s.writeCtrl v = s.softReset := if_pos h2

theorem writeCtrl_abort {v : Word} (h2 : v.getLsbD 2 = false) (h1 : v.getLsbD 1 = true) (s : State) :
    s.writeCtrl v = if s.runState = .running then { s with abrq := true } else s := by
  simp only [State.writeCtrl, h2, h1, Bool.false_eq_true, if_false, if_true]

theorem writeCtrl_start {v : Word} (h2 : v.getLsbD 2 = false) (h1 : v.getLsbD 1 = false) (h0 : v.getLsbD 0 = true) (s : State) :
    s.writeCtrl v = if s.runState = .running then { s with hacc := true } else s.start := by
  simp only [State.writeCtrl, h2, h1, h0, Bool.false_eq_true, if_false, if_true]

theorem writeCtrl_none {v : Word} (h2 : v.getLsbD 2 = false) (h1 : v.getLsbD 1 = false) (h0 : v.getLsbD 0 = false) (s : State) :
    s.writeCtrl v = s := by
  simp only [State.writeCtrl, h2, h1, h0, Bool.false_eq_true, if_false]

/-- Writing 1 to CTRL while the unit is stopped starts it. -/
theorem hostWrite_start {s : State} (hr : s.runState ≠ .running) : hostWrite 0x04 4 1 s = s.start := by
  rw [hostWrite_ctrl, writeCtrl_start (by decide) (by decide) (by decide), if_neg hr]

theorem resetTable_afterReset (s : State) (g : RegDraw) (m : Mem 32) (d : Mem 8) (n : Nat) :
    ResetTable s (State.afterReset s.params g m d n) :=
  ⟨rfl, State.afterReset_valid s.params g m d n, rfl, rfl, rfl, rfl, rfl, rfl, rfl, rfl, rfl, rfl, rfl, rfl⟩

/-- Settles O51: one clause for each bit that can act first. -/
theorem ctrlWritesActByPriority : Obligations.CtrlWritesActByPriority := by
  intro s v
  rw [hostWrite_ctrl]
  refine ⟨fun h2 => ?_, fun h2 h1 => writeCtrl_abort h2 h1 s, fun h2 h1 h0 => writeCtrl_start h2 h1 h0 s,
    fun h2 h1 h0 => writeCtrl_none h2 h1 h0 s, rfl⟩
  rw [writeCtrl_sreset h2]
  exact ⟨resetTable_afterReset .., rfl, rfl⟩

/-! ## The state after reset -/

/-- Settles O48: nothing is written in the memories yet, and every point register holds O. -/
theorem resetMeetsTheInvariantAndReadsAsStated : Obligations.ResetMeetsTheInvariantAndReadsAsStated := by
  have points : State.reset.PointsOnCurve := by
    intro r
    simpa [State.reset, State.afterReset, RegDraw.named] using onCurve_identity
  exact ⟨⟨⟨rfl, rfl⟩, points⟩, resetTable_afterReset State.reset .., by decide +kernel⟩

/-! ## Reads -/

theorem toNat_append_eq_add {m n : Nat} (a : BitVec m) (b : BitVec n) : (a ++ b).toNat = a.toNat * 2 ^ n + b.toNat := by
  rw [BitVec.toNat_append, ← Nat.shiftLeft_add_eq_or_of_lt b.isLt, Nat.shiftLeft_eq]

theorem statusWord_toNat (s : State) : s.statusWord.toNat =
    s.runState.code.toNat + (if s.c then 1 else 0) * 2 ^ 2 + (if s.hacc then 1 else 0) * 2 ^ 3 + s.result.toNat * 2 ^ 8 +
      s.cause.code.toNat * 2 ^ 16 := by
  have bit (b : Bool) : (BitVec.ofBool b).toNat = if b then 1 else 0 := by cases b <;> rfl
  simp only [State.statusWord, toNat_append_eq_add, bit, BitVec.toNat_ofNat]
  omega

theorem configWord_toNat (c : Params) : (configWord c).toNat = c.imemLog2.val + c.dmemLog2 * 2 ^ 8 := by
  have hi := c.imemLog2.isLt
  have hd := c.dmemLog2Less6.isLt
  simp only [configWord, Params.dmemLog2, toNat_append_eq_add, BitVec.toNat_ofNat]
  omega

theorem configWord_mod (c : Params) : (configWord c).toNat % 32 = c.imemLog2.val := by
  have hi := c.imemLog2.isLt
  rw [configWord_toNat]
  omega

theorem configWord_div (c : Params) : (configWord c).toNat / 2 ^ 8 % 32 = c.dmemLog2 := by
  have hi := c.imemLog2.isLt
  have hd := c.dmemLog2Less6.isLt
  rw [configWord_toNat, Params.dmemLog2]
  omega

theorem hostRead_reserved {off : BitVec 20} (lo : 0x28 ≤ off.toNat) (hi : off.toNat < 0x100) (s : State) :
    hostRead off 4 s = (0, s) := by
  rw [hostRead_hostReg hi, readHostReg_reserved lo, ite_self]

/-- Settles O53: STATUS and CONFIG as sums of their fields, every other register as the one field it has. -/
theorem hostRegistersReadTheirFields : Obligations.HostRegistersReadTheirFields := by
  intro s
  have widen (b : BitVec 16) : (b.setWidth 32).toNat = b.toNat := BitVec.toNat_setWidth_of_le (by decide)
  have himem : (configWord s.params).toNat % 32 = s.params.imemLog2 := configWord_mod s.params
  have hdmem : (configWord s.params).toNat / 2 ^ 8 % 32 = s.params.dmemLog2 := configWord_div s.params
  rw [hostRead_status, hostRead_entry, hostRead_pc, hostRead_faddr, hostRead_irqEn, hostRead_irqPend, hostRead_config,
    statusWord_toNat, widen, widen, widen, setWidth_ofBool, setWidth_ofBool, himem, hdmem]
  refine ⟨rfl, rfl, ?_, rfl, rfl, rfl, rfl, rfl, rfl, rfl, rfl, rfl, rfl, rfl, rfl, rfl, configWord_toNat s.params,
    fun off lo hi => hostRead_reserved lo hi s⟩
  exact congrArg₂ (fun code cause => code + (if s.c then 1 else 0) * 2 ^ 2 + (if s.hacc then 1 else 0) * 2 ^ 3 +
    s.result.toNat * 2 ^ 8 + cause * 2 ^ 16) (by cases s.runState <;> rfl) (by cases s.cause <;> rfl)

/-! ## Writes -/

/-- Settles O54: the two registers that store, and the offsets that no write reaches. -/
theorem hostRegisterWritesStoreOrAreIgnored : Obligations.HostRegisterWritesStoreOrAreIgnored := by
  intro s v
  refine ⟨⟨v.setWidth 16, by simp, rfl⟩, rfl, fun off hoff => ?_⟩
  rw [hostWrite_hostReg (by omega), writeHostReg_ignored (by omega), ite_self]

/-! ## DONE and the interrupt output (R64, R265) -/

theorem irq_iff (s : State) : s.irq = true ↔ s.irqEn = true ∧ s.irqPend = true := by
  simp [State.irq]

theorem StepStops.irqPend {s t : State} (h : StepStops s t) : t.irqPend = (s.irqPend || decide (t.runState ≠ s.runState)) := by
  cases h with
  | no er ed => simp [er, ed]
  | halted code hr _ et => simp [et, hr]
  | faulted hr ht _ hd _ _ => simp [hr, ht, hd]

theorem StepStops.irq {s t : State} (h : StepStops s t) (he : s.irqEn = true) (changed : t.runState ≠ s.runState) :
    t.irq = true := by
  rw [irq_iff]
  cases h with
  | no er _ => exact absurd er changed
  | halted code _ _ et => exact et ▸ ⟨he, rfl⟩
  | faulted _ _ _ hd hen _ => exact ⟨hen.trans he, hd⟩

/-- Settles O44: a step that stops the unit sets DONE, any other leaves it, and the output is masked or cleared with its factor. -/
theorem doneIsSetWhenTheUnitStops : Obligations.DoneIsSetWhenTheUnitStops := by
  refine ⟨fun s t h => (StepOutcome.of_step h).stops.irqPend, fun s v => hostWrite_irqPend v s, fun s hr => ?_, fun s => ?_, rfl,
    irq_iff, fun s t h => (StepOutcome.of_step h).stops.irq, fun s v hv => ?_, fun s v hv => ?_, rfl⟩
  · rw [hostWrite_start hr, State.start_irqPend]
  · rw [hostRead_irqPend, setWidth_ofBool]
  · rw [hostWrite_irqPend, if_pos hv]
    exact Bool.and_false _
  · rw [hostWrite_irqEn, hv]
    exact ⟨rfl, rfl⟩

end Sys2Proof.Machine
end

section
/-! PROOFS. The condition flag C: who writes it and who reads it (R40). -/

namespace Sys2Proof.Machine

/-- s is t but for C. -/
def SameButC (s t : State) : Prop := ∃ b, s = t.setC b

theorem sameButC_respectedByOps : RespectedByOps SameButC where
  f := by rintro s t ⟨b, rfl⟩; exact .refl _
  s := by rintro s t ⟨b, rfl⟩; exact .refl _
  p := by rintro s t ⟨b, rfl⟩; exact .refl _
  pc := by rintro s t ⟨b, rfl⟩; rfl
  params := by rintro s t ⟨b, rfl⟩; rfl
  dmem := by rintro s t ⟨b, rfl⟩; rfl
  trap c i a := by rintro ⟨b, rfl⟩; exact ⟨b, rfl⟩
  halt code := by rintro ⟨b, rfl⟩; exact ⟨b, rfl⟩
  jump target := by rintro ⟨b, rfl⟩; exact ⟨b, rfl⟩
  setC c := by rintro ⟨b, rfl⟩; exact ⟨c, rfl⟩
  writeF r v := by rintro ⟨b, rfl⟩; exact ⟨b, rfl⟩
  writeS r v := by rintro ⟨b, rfl⟩; exact ⟨b, rfl⟩
  writeP r q := by rintro ⟨b, rfl⟩; exact ⟨b, rfl⟩
  storeBytes a bs := by rintro ⟨b, rfl⟩; exact ⟨b, rfl⟩

theorem Outcome.c_eq_or_compare {i : Instr} {s t : State} (o : Outcome i s t) :
    t.c = s.c ∨ (∃ fa fb, i = .feEq fa fb) ∨ (∃ sa, i = .scLtl sa) ∨ ∃ pa pb, i = .ptEq pa pb := by
  cases o with
  | compare b hi => exact .inr hi
  | _ => exact .inl rfl

/-- An exception leaves C, also that of a compare. -/
theorem Continuation.c_of_faulted {i : Instr} {s t : State} (h : Continuation i s t) (hs : s.runState = .running)
    (ht : t.runState = .faulted) : t.c = s.c := by
  cases h with
  | halts | traps => rfl
  | goesOn er _ _ => exact absurd (hs.symm.trans (er.symm.trans ht)) nofun

theorem execFeEq_of_valid {a b : FReg} {s : State} (ha : s.f[a].valid = true) (hb : s.f[b].valid = true) :
    execFeEq a b s = .next { s with c := decide (s.f[a].val = s.f[b].val), pc := s.pc + 1 } := by
  rw [execFeEq, withF_of_valid _ ha, withF_of_valid _ hb]
  rfl

theorem execScLtl_of_valid {a : SReg} {s : State} (ha : s.s[a].valid = true) :
    execScLtl a s = .next { s with c := decide (s.s[a].val.toNat < groupOrder), pc := s.pc + 1 } := by
  rw [execScLtl, withS_of_valid _ ha]
  rfl

theorem execPtEq_of_valid {a b : PReg} {s : State} (ha : s.p[a].valid = true) (hb : s.p[b].valid = true) :
    execPtEq a b s = .next { s with c := decide (s.p[a].val = s.p[b].val), pc := s.pc + 1 } := by
  rw [execPtEq, withP_of_valid _ ha, withP_of_valid _ hb]
  rfl

theorem statusWord_getLsbD_two (s : State) : s.statusWord.getLsbD 2 = s.c := by
  simp only [State.statusWord, BitVec.getLsbD_append]
  simp

/-- Settles O40: the outcomes name C for the compares alone, and states that differ in C alone keep to that under every
instruction but BC and BNC. -/
theorem onlyComparesWriteCAndOnlyBranchesReadIt : Obligations.OnlyComparesWriteCAndOnlyBranchesReadIt := by
  refine ⟨fun i s t h changed => (Outcome.of_exec h).c_eq_or_compare.resolve_left changed, ?_,
    fun i s t hr h => (Outcome.of_exec h).continuation.c_of_faulted hr, ?_, ?_, rfl, statusWord_getLsbD_two⟩
  · intro a b s hfa hfb hsa hpa hpb
    exact ⟨execFeEq_of_valid hfa hfb, execScLtl_of_valid hsa, execPtEq_of_valid hpa hpb⟩
  · intro i s t t' b hi h h'
    have same : SameButC (s.setC b) s := ⟨b, rfl⟩
    obtain ⟨u', u, e', e, b', hu⟩ := sameButC_respectedByOps.exec same (.inl hi)
    cases e.symm.trans h
    cases e'.symm.trans h'
    rw [hu]
    rfl
  · intro s hr
    rw [hostWrite_start hr, State.start_c]

end Sys2Proof.Machine
end

section
/-! PROOFS. DMEM and IMEM under instructions: an instruction reaches DMEM through the operand its word names alone (R71, R72, R78,
R311), and every event keeps both memories inside their sizes and in their canonical form (R70, R71, R77). -/

namespace Sys2Proof.Machine

/-! ## The memories an instruction leaves -/

/-- An instruction leaves IMEM, and DMEM too but for the operand that its word has it store to. -/
inductive MemoriesAfter (i : Instr) (s t : State) : Prop where
  | unchanged : t.params = s.params → t.imem = s.imem → t.dmem = s.dmem → MemoriesAfter i s t
  | stored (addr : Nat) (b : List Byte) : stores i = some (addr, 32) → s.accessOk addr 32 → b.length = 32 →
      t.params = s.params → t.imem = s.imem → t.dmem = s.dmem.writeBytes addr b → MemoriesAfter i s t

theorem Outcome.memories {i : Instr} {s t : State} (o : Outcome i s t) : MemoriesAfter i s t := by
  cases o with
  | store addr b hi ok hb => exact .stored addr b hi ok hb rfl rfl rfl
  | _ => exact .unchanged rfl rfl rfl

theorem Mem.read_writeBytes_outside (m : Mem 8) {a x : Nat} {b : List Byte} (h : x < a ∨ a + b.length ≤ x) :
    (m.writeBytes a b).read x = m.read x := by
  rw [Mem.read_writeBytes, dif_neg (by omega)]

theorem MemoriesAfter.dmem_of_no_store {i : Instr} {s t : State} (h : MemoriesAfter i s t) (hi : stores i = none) :
    t.dmem = s.dmem := by
  cases h with
  | unchanged _ _ hd => exact hd
  | stored _ _ hs => exact absurd (hi.symm.trans hs) nofun

theorem MemoriesAfter.read_outside {i : Instr} {s t : State} (h : MemoriesAfter i s t) {a n : Nat} (hi : stores i = some (a, n))
    {x : Nat} (hx : x < a ∨ a + n ≤ x) : t.dmem.read x = s.dmem.read x := by
  cases h with
  | unchanged _ _ hd => rw [hd]
  | stored addr b hs _ hb _ _ hd =>
    cases hi.symm.trans hs
    rw [hd, Mem.read_writeBytes_outside _ (hb ▸ hx)]

/-! ## The memories stay well formed -/

theorem State.MemoriesWf.of_eq {s t : State} (hs : s.MemoriesWf) (hp : t.params = s.params) (hi : t.imem = s.imem)
    (hd : t.dmem = s.dmem) : t.MemoriesWf := by
  rw [State.MemoriesWf, hp, hi, hd]
  exact hs

/-- A store that ends inside DMEM keeps the memories well formed. -/
theorem State.MemoriesWf.storeBytes {s : State} (hs : s.MemoriesWf) {a : Nat} {b : List Byte}
    (h : a + b.length ≤ s.params.dmemBytes) : (s.storeBytes a b).MemoriesWf := by
  obtain ⟨hi, hd⟩ := hs
  exact ⟨hi, Mem.wf_writeBytes hd h⟩

theorem MemoriesAfter.memoriesWf {i : Instr} {s t : State} (h : MemoriesAfter i s t) (hs : s.MemoriesWf) : t.MemoriesWf := by
  cases h with
  | unchanged hp hi hd => exact hs.of_eq hp hi hd
  | stored addr b _ ok hb hp hi hd =>
    obtain ⟨-, inside⟩ := ok
    exact (hs.storeBytes (hb ▸ inside)).of_eq hp hi hd

theorem StepOutcome.memoriesWf {s t : State} (o : StepOutcome s t) (hs : s.MemoriesWf) : t.MemoriesWf := by
  cases o with
  | executed i t _ _ _ _ h => exact (Outcome.of_exec h).memories.memoriesWf hs
  | _ => exact hs.of_eq rfl rfl rfl

theorem WriteOutcome.memoriesWf {off : BitVec 20} {bytes : Nat} {v : Word} {s t : State} (o : WriteOutcome off bytes v s t)
    (hs : s.MemoriesWf) : t.MemoriesWf := by
  cases o with
  | dmem a _ _ inside => exact hs.storeBytes (by rwa [leBytes_length])
  | imem k _ _ inside =>
    obtain ⟨hi, hd⟩ := hs
    exact ⟨Mem.wf_write hi inside v, hd⟩
  | _ => exact hs.of_eq rfl rfl rfl

/-- Settles O49: a store by an instruction or the host is checked against the size, a soft reset leaves the memories, and a
hardware reset leaves nothing written. -/
theorem everyEventKeepsTheMemoriesWellFormed : Obligations.EveryEventKeepsTheMemoriesWellFormed := by
  intro e s t hs h
  cases e with
  | unitStep => exact (StepOutcome.of_step h).memoriesWf hs
  | read off bytes =>
    cases h
    rcases hostRead_state off bytes s with e | ⟨-, e⟩ <;> rw [e]
    · exact hs
    · exact hs.of_eq rfl rfl rfl
  | write off bytes v => exact (WriteOutcome.of_write (Host.Outcome.next.inj h)).memoriesWf hs
  | hardwareReset =>
    cases h
    exact ⟨Mem.wf_drawn _ _, Mem.wf_drawn _ _⟩

/-! ## What an instruction sees of DMEM -/

/-- t is s but for DMEM. -/
def SameButDmem (s t : State) : Prop := ∃ d, t = { s with dmem := d }

theorem Mem.readBytes_congr {m m' : Mem 8} {a n : Nat} (h : ∀ x, a ≤ x → x < a + n → m'.read x = m.read x) :
    m'.readBytes a n = m.readBytes a n := by
  induction n generalizing a with
  | zero => rfl
  | succ n ih => rw [Mem.readBytes, Mem.readBytes, h a (by omega) (by omega), ih fun x lo hi => h x (by omega) (by omega)]

namespace SameButDmem

variable {s t : State}

/-- What neither reads nor writes DMEM keeps two states that differ in it alone so. -/
theorem map {g : State → State} (hg : ∀ (u : State) (d : Mem 8), g { u with dmem := d } = { g u with dmem := d })
    (h : SameButDmem s t) : SameButDmem (g s) (g t) := by
  obtain ⟨d, rfl⟩ := h
  exact ⟨d, hg s d⟩

theorem trap (c : Cause) (i : Instr) (a : Nat) : SameButDmem s t → SameButDmem (s.trap c i a) (t.trap c i a) :=
  .map (g := (·.trap c i a)) fun _ _ => rfl

theorem putF (r : FReg) (v : Fe) : SameButDmem s t → SameButDmem (putF r v s) (putF r v t) :=
  .map (g := Machine.putF r v) fun _ _ => rfl

theorem putS (r : SReg) (v : Scalar) : SameButDmem s t → SameButDmem (putS r v s) (putS r v t) :=
  .map (g := Machine.putS r v) fun _ _ => rfl

theorem putP (r : PReg) (q : Point) : SameButDmem s t → SameButDmem (putP r q s) (putP r q t) :=
  .map (g := Machine.putP r q) fun _ _ => rfl

theorem compare (b : Bool) : SameButDmem s t → SameButDmem (compare b s) (compare b t) :=
  .map (g := Machine.compare b) fun _ _ => rfl

theorem branch (taken : Bool) (off : Int) : SameButDmem s t → SameButDmem (branch taken off s) (branch taken off t) :=
  .map (g := Machine.branch taken off) fun _ _ => by cases taken <;> rfl

theorem c_eq (h : SameButDmem s t) : t.c = s.c := by
  obtain ⟨d, rfl⟩ := h
  rfl

theorem storeBytes (a : Nat) (b : List Byte) (h : SameButDmem s t) : SameButDmem (s.storeBytes a b) (t.storeBytes a b) := by
  obtain ⟨d, rfl⟩ := h
  exact ⟨d.writeBytes a b, rfl⟩

theorem ite {P : Prop} [Decidable P] {a a' b b' : State} (ha : SameButDmem a a') (hb : SameButDmem b b') :
    SameButDmem (if P then a else b) (if P then a' else b') := by
  split
  · exact ha
  · exact hb

/-- Both states make the same check of a source register, whose file is not DMEM. -/
theorem withF {i : Instr} {r : FReg} {k k' : Fe → State} (h : SameButDmem s t) (hk : ∀ v, SameButDmem (k v) (k' v)) :
    SameButDmem (withF i r s k) (withF i r t k') := by
  obtain ⟨d, rfl⟩ := h
  exact .ite (hk _) ⟨d, rfl⟩

theorem withS {i : Instr} {r : SReg} {k k' : Scalar → State} (h : SameButDmem s t) (hk : ∀ v, SameButDmem (k v) (k' v)) :
    SameButDmem (withS i r s k) (withS i r t k') := by
  obtain ⟨d, rfl⟩ := h
  exact .ite (hk _) ⟨d, rfl⟩

theorem withP {i : Instr} {r : PReg} {k k' : Point → State} (h : SameButDmem s t) (hk : ∀ q, SameButDmem (k q) (k' q)) :
    SameButDmem (withP i r s k) (withP i r t k') := by
  obtain ⟨d, rfl⟩ := h
  exact .ite (hk _) ⟨d, rfl⟩

theorem withAddr {i : Instr} {n addr : Nat} {k k' : State} (h : SameButDmem s t) (hk : SameButDmem k k') :
    SameButDmem (withAddr i n addr s k) (withAddr i n addr t k') := by
  obtain ⟨d, rfl⟩ := h
  exact .ite ⟨d, rfl⟩ (.ite ⟨d, rfl⟩ hk)

/-- The one place where an instruction looks at DMEM: the bytes of its operand. -/
theorem withBytes {i : Instr} {n addr : Nat} {k k' : List Byte → State} (h : SameButDmem s t)
    (hb : t.dmem.readBytes addr n = s.dmem.readBytes addr n) (hk : ∀ b, SameButDmem (k b) (k' b)) :
    SameButDmem (withBytes i n addr s k) (withBytes i n addr t k') := by
  rw [Machine.withBytes, Machine.withBytes, hb]
  exact h.withAddr (hk _)

theorem storeTo {i : Instr} {addr : Nat} {b : List Byte} (h : SameButDmem s t) :
    SameButDmem (storeTo i addr b s) (storeTo i addr b t) :=
  h.withAddr ((h.storeBytes addr b).map (g := State.advance) fun _ _ => rfl)

/-- States that differ in DMEM alone, and not in the operand that an instruction reads, have such successors. -/
theorem exec {i : Instr} (h : SameButDmem s t)
    (hb : ∀ a n, reads i = some (a, n) → t.dmem.readBytes a n = s.dmem.readBytes a n) :
    ∃ s' t', exec i s = .next s' ∧ exec i t = .next t' ∧ SameButDmem s' t' := by
  cases i with
  | halt code => exact ⟨_, _, rfl, rfl, h.map (g := (·.halt _)) fun _ _ => rfl⟩
  | j off => exact ⟨_, _, rfl, rfl, h.branch true off⟩
  | bc off | bnc off => exact ⟨_, _, rfl, rfl, h.c_eq ▸ h.branch _ off⟩
  | feLd fd addr => exact ⟨_, _, rfl, rfl, h.withBytes (hb addr 32 rfl) fun _ => h.putF fd _⟩
  | scLd sd addr => exact ⟨_, _, rfl, rfl, h.withBytes (hb addr 32 rfl) fun _ => h.putS sd _⟩
  | scLdh sd addr => exact ⟨_, _, rfl, rfl, h.withBytes (hb addr 64 rfl) fun _ => h.putS sd _⟩
  | ptDec pd addr =>
    refine ⟨_, _, rfl, rfl, h.withBytes (hb addr 32 rfl) fun b => ?_⟩
    cases dec b with
    | none => exact h.trap _ _ _
    | some q => exact h.putP pd q
  | feSt fa addr => exact ⟨_, _, rfl, rfl, h.withF fun _ => h.storeTo⟩
  | scSt sa addr => exact ⟨_, _, rfl, rfl, h.withS fun _ => h.storeTo⟩
  | ptEnc pa addr => exact ⟨_, _, rfl, rfl, h.withP fun _ => h.storeTo⟩
  | feLdi fd imm => exact ⟨_, _, rfl, rfl, h.putF fd _⟩
  | feMov fd fa | feSqr fd fa | feInv fd fa | feNeg fd fa => exact ⟨_, _, rfl, rfl, h.withF fun _ => h.putF fd _⟩
  | feAdd fd fa fb | feSub fd fa fb | feMul fd fa fb =>
    exact ⟨_, _, rfl, rfl, h.withF fun _ => h.withF fun _ => h.putF fd _⟩
  | feEq fa fb => exact ⟨_, _, rfl, rfl, h.withF fun _ => h.withF fun _ => h.compare _⟩
  | scRed sd sa | scClamp sd sa => exact ⟨_, _, rfl, rfl, h.withS fun _ => h.putS sd _⟩
  | scAdd sd sa sb | scMul sd sa sb => exact ⟨_, _, rfl, rfl, h.withS fun _ => h.withS fun _ => h.putS sd _⟩
  | scMulAdd sd sa sb sc =>
    exact ⟨_, _, rfl, rfl, h.withS fun _ => h.withS fun _ => h.withS fun _ => h.putS sd _⟩
  | scLtl sa => exact ⟨_, _, rfl, rfl, h.withS fun _ => h.compare _⟩
  | ptId pd => exact ⟨_, _, rfl, rfl, h.putP pd _⟩
  | ptAdd pd pa pb => exact ⟨_, _, rfl, rfl, h.withP fun _ => h.withP fun _ => h.putP pd _⟩
  | ptDbl pd pa => exact ⟨_, _, rfl, rfl, h.withP fun _ => h.putP pd _⟩
  | ptSmulb pd sa => exact ⟨_, _, rfl, rfl, h.withS fun _ => h.putP pd _⟩
  | ptSmul pd sa pb => exact ⟨_, _, rfl, rfl, h.withS fun _ => h.withP fun _ => h.putP pd _⟩
  | ptEq pa pb => exact ⟨_, _, rfl, rfl, h.withP fun _ => h.withP fun _ => h.compare _⟩
  | ptGetx fd pa | ptGety fd pa => exact ⟨_, _, rfl, rfl, h.withP fun _ => h.putF fd _⟩
  | ptFromxy pd fa fb =>
    refine ⟨_, _, rfl, rfl, h.withF fun x => h.withF fun y => ?_⟩
    split
    · exact h.putP pd _
    · exact h.trap _ _ _

end SameButDmem

/-- Settles O46: two runs of the instruction side by side for what it sees, and its outcomes for what it changes. -/
theorem dmemIsReachedOnlyThroughTheNamedOperand : Obligations.DmemIsReachedOnlyThroughTheNamedOperand := by
  refine ⟨fun i s t s' t' ht agree hs' ht' => ?_, fun i s t h => (Outcome.of_exec h).memories.dmem_of_no_store,
    fun i s t h a n hi x => (Outcome.of_exec h).memories.read_outside hi⟩
  have same : SameButDmem s t := ⟨_, ht⟩
  obtain ⟨u, u', e, e', d, hu⟩ := same.exec fun a n hi => Mem.readBytes_congr (agree a n hi)
  cases e.symm.trans hs'
  cases e'.symm.trans ht'
  rw [hu]

end Sys2Proof.Machine
end

section
/-! PROOFS. The host's access to the memories (R75, R84–R89), and the checks of a step in the order of R256. -/

namespace Sys2Proof.Machine

/-! ## The sizes of the windows -/

theorem dmemBytes_le (c : Params) : c.dmemBytes ≤ 65536 := by
  have hd : c.dmemLog2 ≤ 16 := by
    have := c.dmemLog2Less6.isLt
    rw [Params.dmemLog2]
    omega
  exact Nat.pow_le_pow_right (by decide) hd

theorem imemWords_le (c : Params) : c.imemWords ≤ 65536 :=
  Nat.pow_le_pow_right (by decide) (Nat.le_of_lt_succ c.imemLog2.isLt)

/-- The window offset of a DMEM address inside DMEM. -/
theorem dmemOffset_toNat {c : Params} {a : Nat} (h : a < c.dmemBytes) : (BitVec.ofNat 20 (0x10000 + a)).toNat = 0x10000 + a := by
  have := dmemBytes_le c
  rw [BitVec.toNat_ofNat]
  omega

/-- The window offset of a word index inside IMEM. -/
theorem imemOffset_toNat {c : Params} {i : Nat} (h : i < c.imemWords) :
    (BitVec.ofNat 20 (0x40000 + 4 * i)).toNat = 0x40000 + 4 * i := by
  have := imemWords_le c
  rw [BitVec.toNat_ofNat]
  omega

/-! ## The region of an offset -/

theorem regionOf_dmem {off : BitVec 20} (lo : 0x10000 ≤ off.toNat) (hi : off.toNat < 0x20000) :
    regionOf off = .dmem (off.toNat - 0x10000) := by
  rcases regionOf_cases off with ⟨h, -⟩ | ⟨-, -, e⟩ | ⟨h, -, -⟩ | ⟨h, -⟩
  case inr.inl => exact e
  all_goals omega

theorem regionOf_imem {off : BitVec 20} (lo : 0x40000 ≤ off.toNat) (hi : off.toNat < 0x80000) :
    regionOf off = .imem ((off.toNat - 0x40000) / 4) := by
  rcases regionOf_cases off with ⟨h, -⟩ | ⟨-, h, -⟩ | ⟨-, -, e⟩ | ⟨h, -⟩
  case inr.inr.inl => exact e
  all_goals omega

theorem regionOf_reserved {off : BitVec 20}
    (h : (0x100 ≤ off.toNat ∧ off.toNat < 0x10000) ∨ (0x20000 ≤ off.toNat ∧ off.toNat < 0x40000) ∨ 0x80000 ≤ off.toNat) :
    regionOf off = .reserved := by
  rcases regionOf_cases off with ⟨h', -⟩ | ⟨lo, hi, -⟩ | ⟨lo, hi, -⟩ | ⟨-, e⟩
  case inr.inr.inr => exact e
  all_goals omega

/-! ## Accesses by region -/

/-- An access that has no effect, in this state: a read gives 0, and neither a read nor a write changes the state. -/
def AccessInert (off : BitVec 20) (bytes : Nat) (s : State) : Prop :=
  hostRead off bytes s = (0, s) ∧ ∀ v : Word, hostWrite off bytes v s = s

theorem accessInert_of_not_word {off : BitVec 20} {bytes : Nat} (h : bytes ≠ 4 ∨ off.toNat % 4 ≠ 0) (s : State) :
    AccessInert off bytes s := by
  have ha : ¬accessActs off bytes = true := by
    rw [accessActs_iff]
    omega
  exact ⟨if_neg ha, fun _ => if_neg ha⟩

theorem accessInert_of_reserved {off : BitVec 20} (h : regionOf off = .reserved) (bytes : Nat) (s : State) :
    AccessInert off bytes s := by
  simp [AccessInert, hostRead, hostWrite, h]

section
variable {off : BitVec 20} (al : off.toNat % 4 = 0)
include al

theorem hostRead_dmem {a : Nat} (hr : regionOf off = .dmem a) (s : State) :
    hostRead off 4 s =
      if s.runState = .running then (0, s.refuseAccess)
      else if a < s.params.dmemBytes then (s.dmemWord a, s) else (0, s) := by
  simp [hostRead, accessActs, al, hr]

theorem hostWrite_dmem {a : Nat} (hr : regionOf off = .dmem a) (v : Word) (s : State) :
    hostWrite off 4 v s =
      if s.runState = .running then s.refuseAccess
      else if a < s.params.dmemBytes then s.storeBytes a (leBytes 4 v.toNat) else s := by
  simp [hostWrite, accessActs, al, hr]

theorem hostRead_imem {i : Nat} (hr : regionOf off = .imem i) (s : State) :
    hostRead off 4 s =
      if s.runState = .running then (0, s.refuseAccess)
      else if i < s.params.imemWords then (s.imem.read i, s) else (0, s) := by
  simp [hostRead, accessActs, al, hr]

theorem hostWrite_imem {i : Nat} (hr : regionOf off = .imem i) (v : Word) (s : State) :
    hostWrite off 4 v s =
      if s.runState = .running then s.refuseAccess
      else if i < s.params.imemWords then { s with imem := s.imem.write i v } else s := by
  simp [hostWrite, accessActs, al, hr]

end

/-- Settles O56: an access that is no aligned word does not act, and in a reserved region there is nothing to act on. -/
theorem otherHostAccessesDoNothing : Obligations.OtherHostAccessesDoNothing := by
  intro off bytes v s h
  have inert : AccessInert off bytes s := by
    rcases h with h | h | h
    · exact accessInert_of_not_word (.inl h) s
    · exact accessInert_of_not_word (.inr h) s
    · exact accessInert_of_reserved (regionOf_reserved h) bytes s
  obtain ⟨read, write⟩ := inert
  exact ⟨read, write v⟩

/-- Settles O57: both windows look at STATE before they look at the size. -/
theorem windowAccessWhileRunningIsRefused : Obligations.WindowAccessWhileRunningIsRefused := by
  intro off v s hr al h
  rcases h with ⟨lo, hi⟩ | ⟨lo, hi⟩
  · have region := regionOf_dmem lo hi
    rw [hostRead_dmem al region, hostWrite_dmem al region, if_pos hr, if_pos hr]
    exact ⟨rfl, rfl⟩
  · have region := regionOf_imem lo hi
    rw [hostRead_imem al region, hostWrite_imem al region, if_pos hr, if_pos hr]
    exact ⟨rfl, rfl⟩

/-! ## The memories of a stopped unit -/

/-- The little-endian value of a byte string in DMEM is the sum of R8. -/
theorem leInt_readBytes (s : State) (a n : Nat) : leInt (s.dmem.readBytes a n) = s.dmemValue a n := by
  induction n generalizing a with
  | zero => rfl
  | succ n ih =>
    rw [Mem.readBytes, leInt, ih, State.dmemValue, State.dmemValue, Finset.sum_range_succ', Finset.mul_sum, add_comm]
    congr 1
    · refine Finset.sum_congr rfl fun k _ => ?_
      rw [show a + (k + 1) = a + 1 + k by omega, show 8 * (k + 1) = 8 * k + 8 by omega, pow_add]
      ring
    · simp

theorem dmemWord_toNat (s : State) (a : Nat) : (s.dmemWord a).toNat = s.dmemValue a 4 := by
  have lt : leInt (s.dmem.readBytes a 4) < 2 ^ 32 := by simpa using leInt_lt (s.dmem.readBytes a 4)
  rw [State.dmemWord, BitVec.toNat_ofNat, Nat.mod_eq_of_lt lt, leInt_readBytes]

theorem Mem.read_writeBytes_leBytes (m : Mem 8) (a v : Nat) {n k : Nat} (hk : k < n) :
    ((m.writeBytes a (leBytes n v)).read (a + k)).toNat = v / 2 ^ (8 * k) % 256 := by
  have inside : a ≤ a + k ∧ a + k - a < (leBytes n v).length := by
    rw [leBytes_length]
    omega
  rw [Mem.read_writeBytes, dif_pos inside, leBytes_getElem, Nat.add_sub_cancel_left, BitVec.toNat_ofNat, pow_mul]
  rfl

/-- An aligned word access at a DMEM address inside DMEM. -/
theorem hostAccess_dmem {s : State} (hr : s.runState ≠ .running) {a : Nat} (al : a % 4 = 0) (ha : a < s.params.dmemBytes) :
    hostRead (BitVec.ofNat 20 (0x10000 + a)) 4 s = (s.dmemWord a, s) ∧
      ∀ v : Word, hostWrite (BitVec.ofNat 20 (0x10000 + a)) 4 v s = s.storeBytes a (leBytes 4 v.toNat) := by
  have size := dmemBytes_le s.params
  have off := dmemOffset_toNat ha
  have region : regionOf (BitVec.ofNat 20 (0x10000 + a)) = .dmem a := by
    rw [regionOf_dmem (by omega) (by omega), off, Nat.add_sub_cancel_left]
  refine ⟨?_, fun v => ?_⟩
  · rw [hostRead_dmem (by omega) region, if_neg hr, if_pos ha]
  · rw [hostWrite_dmem (by omega) region, if_neg hr, if_pos ha]

/-- An aligned word access at a word index inside IMEM. -/
theorem hostAccess_imem {s : State} (hr : s.runState ≠ .running) {i : Nat} (hi : i < s.params.imemWords) :
    hostRead (BitVec.ofNat 20 (0x40000 + 4 * i)) 4 s = (s.imem.read i, s) ∧
      ∀ v : Word, hostWrite (BitVec.ofNat 20 (0x40000 + 4 * i)) 4 v s = { s with imem := s.imem.write i v } := by
  have size := imemWords_le s.params
  have off := imemOffset_toNat hi
  have region : regionOf (BitVec.ofNat 20 (0x40000 + 4 * i)) = .imem i := by
    rw [regionOf_imem (by omega) (by omega), off, show (0x40000 + 4 * i - 0x40000) / 4 = i by omega]
  refine ⟨?_, fun v => ?_⟩
  · rw [hostRead_imem (by omega) region, if_neg hr, if_pos hi]
  · rw [hostWrite_imem (by omega) region, if_neg hr, if_pos hi]

/-- The part of the two windows past the configured sizes is reserved while the unit is stopped (R85). -/
theorem accessInert_of_past_size {s : State} (hr : s.runState ≠ .running) {off : BitVec 20} (bytes : Nat)
    (h : (0x10000 + s.params.dmemBytes ≤ off.toNat ∧ off.toNat < 0x20000) ∨
      (0x40000 + 4 * s.params.imemWords ≤ off.toNat ∧ off.toNat < 0x80000)) : AccessInert off bytes s := by
  by_cases word : bytes = 4 ∧ off.toNat % 4 = 0
  · obtain ⟨rfl, al⟩ := word
    rcases h with ⟨lo, hi⟩ | ⟨lo, hi⟩
    · have region := regionOf_dmem (by omega) hi
      have past : ¬off.toNat - 0x10000 < s.params.dmemBytes := by omega
      exact ⟨by rw [hostRead_dmem al region, if_neg hr, if_neg past],
        fun v => by rw [hostWrite_dmem al region, if_neg hr, if_neg past]⟩
    · have region := regionOf_imem (by omega) hi
      have past : ¬(off.toNat - 0x40000) / 4 < s.params.imemWords := by omega
      exact ⟨by rw [hostRead_imem al region, if_neg hr, if_neg past],
        fun v => by rw [hostWrite_imem al region, if_neg hr, if_neg past]⟩
  · exact accessInert_of_not_word (by omega) s

/-- Settles O55: the two windows inside the configured sizes, and what lies past them. -/
theorem hostWindowsReachTheMemories : Obligations.HostWindowsReachTheMemories := by
  intro s hr
  refine ⟨fun a al ha => ?_, fun i hi => ?_, fun off bytes => accessInert_of_past_size hr bytes⟩
  · obtain ⟨read, write⟩ := hostAccess_dmem hr al ha
    rw [read]
    refine ⟨⟨rfl, dmemWord_toNat s a⟩, fun v => ⟨s.dmem.writeBytes a (leBytes 4 v.toNat), write v, ?_⟩⟩
    refine ⟨fun k hk => ?_, fun x hx => ?_⟩
    · exact Mem.read_writeBytes_leBytes s.dmem a v.toNat hk
    · exact Mem.read_writeBytes_outside s.dmem (by rwa [leBytes_length])
  · obtain ⟨read, write⟩ := hostAccess_imem hr hi
    refine ⟨read, fun v => ⟨s.imem.write i v, write v, ?_, fun x hx => ?_⟩⟩
    · rw [Mem.read_write, if_pos rfl]
    · rw [Mem.read_write, if_neg hx.symm]

/-! ## A step by its first check that decides it (R134, R256) -/

theorem step_of_stopped {s : State} (hr : s.runState ≠ .running) : step s = .next s := if_pos hr

section
variable {s : State} (hr : s.runState = .running)
include hr

theorem step_of_abort (ha : s.abrq = true) : step s = .next s.takeAbort := by
  simp [step, hr, ha]

theorem step_of_pc_outside (ha : s.abrq = false) (hp : s.params.imemWords ≤ s.pc.toNat) :
    step s = .next (s.raise .fetch 0 0) := by
  simp [step, hr, ha, hp]

theorem step_of_decoded (ha : s.abrq = false) (hp : s.pc.toNat < s.params.imemWords) {i : Instr}
    (hd : decode s.fetchWord = .ok i) : step s = exec i s := by
  simp [step, hr, ha, Nat.not_le.mpr hp, hd]

end

/-- Settles O37: the first three checks of a step, with the states they leave written out. -/
theorem stepChecksComeInPriorityOrder : Obligations.StepChecksComeInPriorityOrder := fun _ =>
  ⟨step_of_stopped, fun hr ha => step_of_abort hr ha, fun hr ha hp => step_of_pc_outside hr ha hp⟩

/-! ## From the host's load to the run (R295, R299) -/

theorem runEvents_write (off : BitVec 20) (bytes : Nat) (v : Word) (es : List Event) (s : State) :
    runEvents (.write off bytes v :: es) s = runEvents es (hostWrite off bytes v s) := rfl

theorem runEvents_singleton (e : Event) (s : State) : runEvents [e] s = event e s := by
  obtain ⟨t, h⟩ := event_next e s
  rw [runEvents, h]
  rfl

theorem hostWrite_entry (e : BitVec 16) (s : State) : hostWrite 0x0C 4 (e.setWidth 32) s = { s with entry := e } := by
  have narrow : (e.setWidth 32).setWidth 16 = e := by simp
  exact congrArg (fun x => { s with entry := x }) narrow

/-- What the unit does first after the host has written ENTRY and CTRL.START. -/
theorem runEvents_start_step {s : State} (hr : s.runState ≠ .running) (e : BitVec 16) :
    runEvents [.write 0x0C 4 (e.setWidth 32), .write 0x04 4 1, .unitStep] s = step { s with entry := e }.start := by
  rw [runEvents_write, hostWrite_entry, runEvents_write, hostWrite_start (s := { s with entry := e }) hr, runEvents_singleton]
  rfl

/-- Settles O58: START leaves pc = ENTRY, so the first step fetches the word that the host wrote there. -/
theorem theLoadedWordIsTheOneThatRuns : Obligations.TheLoadedWordIsTheOneThatRuns := by
  intro s e w i hr he hd
  have loaded : (s.imem.write e.toNat w).read e.toNat = w := by rw [Mem.read_write, if_pos rfl]
  refine ⟨s.imem.write e.toNat w, loaded, ?_⟩
  obtain ⟨-, load⟩ := hostAccess_imem hr he
  rw [runEvents_write, load, runEvents_start_step (s := { s with imem := s.imem.write e.toNat w }) hr]
  exact step_of_decoded rfl rfl he ((congrArg decode loaded).trans hd)

end Sys2Proof.Machine
end

section
/-! PROOFS. Decoding (R100–R112): what each layout reads back, and every outcome of decoding a word, with its row of the opcode
table. -/

namespace Sys2Proof

/-! ## A well-formed instruction is read back from its word -/

section
variable (op : BitVec 8)

theorem decodeR4_encodeR (mk : Fin 16 → Fin 16 → Fin 16 → Fin 16 → Instr) (a b c d : Fin 16) :
    decodeR4 (encodeR op (regBits a) (regBits b) (regBits c) (regBits d)) mk = .ok (mk a b c d) := by
  simp [decodeR4, whenZero]

theorem decodeR3_encodeR (mk : Fin 16 → Fin 16 → Fin 16 → Instr) (a b c : Fin 16) :
    decodeR3 (encodeR op (regBits a) (regBits b) (regBits c) 0) mk = .ok (mk a b c) := by
  simp [decodeR3, whenZero]

theorem decodeR2_encodeR (mk : Fin 16 → Fin 16 → Instr) (a b : Fin 16) :
    decodeR2 (encodeR op (regBits a) (regBits b) 0 0) mk = .ok (mk a b) := by
  simp [decodeR2, whenZero]

theorem decodeRab_encodeR (mk : Fin 16 → Fin 16 → Instr) (a b : Fin 16) :
    decodeRab (encodeR op 0 (regBits a) (regBits b) 0) mk = .ok (mk a b) := by
  simp [decodeRab, whenZero]

theorem decodeRa_encodeR (mk : Fin 16 → Instr) (a : Fin 16) :
    decodeRa (encodeR op 0 (regBits a) 0 0) mk = .ok (mk a) := by
  simp [decodeRa, whenZero]

theorem decodeRd_encodeR (mk : Fin 16 → Instr) (a : Fin 16) :
    decodeRd (encodeR op (regBits a) 0 0 0) mk = .ok (mk a) := by
  simp [decodeRd, whenZero]

theorem decodeM_encodeM (mk : Fin 16 → Nat → Instr) (r : Fin 16) {n : Nat} (h : Instr.fitsUnsigned16 n = true) :
    decodeM (encodeM op (regBits r) (BitVec.ofNat 16 n)) mk = .ok (mk r n) := by
  have fits : n < 65536 := of_decide_eq_true h
  simp [decodeM, whenZero, Nat.mod_eq_of_lt fits]

theorem decodeB_encodeB (mk : Int → Instr) {off : Int} (h : Instr.fitsSigned16 off = true) :
    decodeB (encodeB op (BitVec.ofInt 16 off)) mk = .ok (mk off) := by
  obtain ⟨lo, hi⟩ : -32768 ≤ off ∧ off ≤ 32767 := of_decide_eq_true h
  have fits : (BitVec.ofInt 16 off).toInt = off := BitVec.toInt_ofInt_eq_self (by decide) (by omega) (by omega)
  simp [decodeB, whenZero, fits]

theorem decodeH_encodeH (mk : Nat → Instr) {code : Nat} (h : Instr.fitsCode code = true) :
    decodeH (encodeH op (BitVec.ofNat 8 code)) mk = .ok (mk code) := by
  have fits : code < 256 := of_decide_eq_true h
  simp [decodeH, whenZero, Nat.mod_eq_of_lt fits]

end

/-- Settles O1: the opcode picks the instruction's own layout, which reads its operands back. -/
theorem decodeOfEncodeIsTheInstruction : Obligations.DecodeOfEncodeIsTheInstruction := by
  intro i wf
  cases i with
  | halt code =>
    rw [encode, decode, opField_encodeH]
    exact decodeH_encodeH _ _ wf
  | j off | bc off | bnc off =>
    rw [encode, decode, opField_encodeB]
    exact decodeB_encodeB _ _ wf
  | feLd r n | feSt r n | feLdi r n | scLd r n | scSt r n | scLdh r n | ptDec r n | ptEnc r n =>
    rw [encode, decode, opField_encodeM]
    exact decodeM_encodeM _ _ r wf
  | feMov a b | feSqr a b | feInv a b | feNeg a b | scRed a b | scClamp a b | ptDbl a b | ptSmulb a b | ptGetx a b
  | ptGety a b =>
    rw [encode, decode, opField_encodeR]
    exact decodeR2_encodeR _ _ a b
  | feAdd a b c | feSub a b c | feMul a b c | scAdd a b c | scMul a b c | ptAdd a b c | ptSmul a b c | ptFromxy a b c =>
    rw [encode, decode, opField_encodeR]
    exact decodeR3_encodeR _ _ a b c
  | scMulAdd a b c d =>
    rw [encode, decode, opField_encodeR]
    exact decodeR4_encodeR _ _ a b c d
  | feEq a b | ptEq a b =>
    rw [encode, decode, opField_encodeR]
    exact decodeRab_encodeR _ _ a b
  | scLtl a =>
    rw [encode, decode, opField_encodeR]
    exact decodeRa_encodeR _ _ a
  | ptId a =>
    rw [encode, decode, opField_encodeR]
    exact decodeRd_encodeR _ _ a

/-! ## A word under the mask of a row (R111) -/

/-- The six fields of format R are the whole word. -/
theorem eq_iff_fields {w v : Word} : w = v ↔ opField w = opField v ∧ rdField w = rdField v ∧ raField w = raField v ∧
    rbField w = rbField v ∧ rcField w = rcField v ∧ lowField w = lowField v := by
  refine ⟨fun h => h ▸ ⟨rfl, rfl, rfl, rfl, rfl, rfl⟩, fun ⟨h1, h2, h3, h4, h5, h6⟩ => BitVec.eq_of_toNat_eq ?_⟩
  simp only [← BitVec.toNat_inj, opField_toNat, rdField_toNat, raField_toNat, rbField_toNat, rcField_toNat,
    lowField_toNat] at *
  omega

section
variable (w v : Word)

theorem opField_and : opField (w &&& v) = opField w &&& opField v := BitVec.extractLsb'_and
theorem rdField_and : rdField (w &&& v) = rdField w &&& rdField v := BitVec.extractLsb'_and
theorem raField_and : raField (w &&& v) = raField w &&& raField v := BitVec.extractLsb'_and
theorem rbField_and : rbField (w &&& v) = rbField w &&& rbField v := BitVec.extractLsb'_and
theorem rcField_and : rcField (w &&& v) = rcField w &&& rcField v := BitVec.extractLsb'_and
theorem lowField_and : lowField (w &&& v) = lowField w &&& lowField v := BitVec.extractLsb'_and

end

theorem and_0xF (b : BitVec 4) : b &&& 0xF#4 = b := BitVec.and_allOnes

section
variable (w : Word)

/-- A word matches its own opcode under a mask where each field is zero in the bits that the mask covers. -/
theorem and_mask_iff (mask : Word) (d a b c : BitVec 4) (l : BitVec 8)
    (h : opField mask = 0xFF ∧ rdField mask = d ∧ raField mask = a ∧ rbField mask = b ∧ rcField mask = c ∧
      lowField mask = l) :
    w &&& mask = encodeR (opField w) 0 0 0 0 ↔
      rdField w &&& d = 0 ∧ raField w &&& a = 0 ∧ rbField w &&& b = 0 ∧ rcField w &&& c = 0 ∧ lowField w &&& l = 0 := by
  obtain ⟨hop, rfl, rfl, rfl, rfl, rfl⟩ := h
  rw [eq_iff_fields, opField_and, rdField_and, raField_and, rbField_and, rcField_and, lowField_and, hop]
  simp [and_0xFF]

theorem and_maskR4_iff : w &&& maskR4 = encodeR (opField w) 0 0 0 0 ↔ lowField w = 0 :=
  (and_mask_iff w maskR4 0 0 0 0 0xFF (by decide)).trans (by simp [and_0xFF])

theorem and_maskR3_iff : w &&& maskR3 = encodeR (opField w) 0 0 0 0 ↔ rcField w = 0 ∧ lowField w = 0 :=
  (and_mask_iff w maskR3 0 0 0 0xF 0xFF (by decide)).trans (by simp [and_0xF, and_0xFF])

theorem and_maskR2_iff : w &&& maskR2 = encodeR (opField w) 0 0 0 0 ↔ rbField w = 0 ∧ rcField w = 0 ∧ lowField w = 0 :=
  (and_mask_iff w maskR2 0 0 0xF 0xF 0xFF (by decide)).trans (by simp [and_0xF, and_0xFF])

theorem and_maskRab_iff : w &&& maskRab = encodeR (opField w) 0 0 0 0 ↔ rdField w = 0 ∧ rcField w = 0 ∧ lowField w = 0 :=
  (and_mask_iff w maskRab 0xF 0 0 0xF 0xFF (by decide)).trans (by simp [and_0xF, and_0xFF])

theorem and_maskRa_iff : w &&& maskRa = encodeR (opField w) 0 0 0 0 ↔
    rdField w = 0 ∧ rbField w = 0 ∧ rcField w = 0 ∧ lowField w = 0 :=
  (and_mask_iff w maskRa 0xF 0 0xF 0xF 0xFF (by decide)).trans (by simp [and_0xF, and_0xFF])

theorem and_maskRd_iff : w &&& maskRd = encodeR (opField w) 0 0 0 0 ↔
    raField w = 0 ∧ rbField w = 0 ∧ rcField w = 0 ∧ lowField w = 0 :=
  (and_mask_iff w maskRd 0 0xF 0xF 0xF 0xFF (by decide)).trans (by simp [and_0xF, and_0xFF])

theorem and_maskM_iff : w &&& maskM = encodeR (opField w) 0 0 0 0 ↔ raField w = 0 :=
  (and_mask_iff w maskM 0 0xF 0 0 0 (by decide)).trans (by simp [and_0xF])

theorem and_maskB_iff : w &&& maskB = encodeR (opField w) 0 0 0 0 ↔ rdField w = 0 ∧ raField w = 0 :=
  (and_mask_iff w maskB 0xF 0xF 0 0 0 (by decide)).trans (by simp [and_0xF])

theorem and_maskH_iff : w &&& maskH = encodeR (opField w) 0 0 0 0 ↔
    rdField w = 0 ∧ raField w = 0 ∧ rbField w = 0 ∧ rcField w = 0 :=
  (and_mask_iff w maskH 0xF 0xF 0xF 0xF 0 (by decide)).trans (by simp [and_0xF])

end

/-! ## The rows of the table (R110, R111) -/

theorem opcodeTable_row {row : OpcodeRow} (h : row ∈ opcodeTable) :
    row.pattern = encodeR (opField row.pattern) 0 0 0 0 ∧ opField row.mask = 0xFF#8 :=
  (by decide : ∀ row ∈ opcodeTable, row.pattern = encodeR (opField row.pattern) 0 0 0 0 ∧ opField row.mask = 0xFF#8) row h

/-- No two rows have one opcode. -/
theorem row_eq_of_opField {row row' : OpcodeRow} (h : row ∈ opcodeTable) (h' : row' ∈ opcodeTable)
    (hop : opField row.pattern = opField row'.pattern) : row = row' :=
  (by decide +kernel : ∀ row ∈ opcodeTable, ∀ row' ∈ opcodeTable, opField row.pattern = opField row'.pattern → row = row')
    row h row' h' hop

/-- A word that matches a row has the row's opcode. -/
theorem opField_of_match {row : OpcodeRow} {w : Word} (h : row ∈ opcodeTable) (hw : w &&& row.mask = row.pattern) :
    opField row.pattern = opField w := by
  obtain ⟨-, hmask⟩ := opcodeTable_row h
  rw [← hw, opField_and, hmask, and_0xFF]

/-! ## Every outcome of decoding -/

/-- What decoding a word answers, with the row of the opcode table that says so. -/
inductive DecodeOutcome (w : Word) : Except DecodeError Instr → Prop where
  | unassigned : (∀ row ∈ opcodeTable, opField row.pattern ≠ opField w) → DecodeOutcome w (.error .unassignedOpcode)
  | reserved (row : OpcodeRow) : row ∈ opcodeTable → opField row.pattern = opField w → w &&& row.mask ≠ row.pattern →
      DecodeOutcome w (.error .reservedBits)
  | instr (row : OpcodeRow) (i : Instr) : row ∈ opcodeTable → w &&& row.mask = row.pattern → row.mnemonic = i.mnemonic →
      encode i = w → i.WellFormed → DecodeOutcome w (.ok i)

namespace DecodeOutcome

/-! For each layout: what it answers on a word with the opcode of the row at place k, whose mask is the layout's and whose
instruction is mk's. -/

variable {w : Word} (k : Fin 35) (hop : (opField w).toNat = (opField opcodeTable[k].pattern).toNat)
include hop

/-- The zero test of a layout is the mask of its row. -/
theorem of_whenZero {zero : Bool} {allZero : Prop} {i : Instr} (hzero : zero = true ↔ allZero)
    (hmask : w &&& opcodeTable[k].mask = encodeR (opField w) 0 0 0 0 ↔ allZero)
    (hm : opcodeTable[k].mnemonic = i.mnemonic) (wf : i.WellFormed) (henc : allZero → encode i = w) :
    DecodeOutcome w (whenZero zero i) := by
  have hop : opField opcodeTable[k].pattern = opField w := (BitVec.eq_of_toNat_eq hop).symm
  have mem : opcodeTable[k] ∈ opcodeTable := List.getElem_mem _
  obtain ⟨hpat, -⟩ := opcodeTable_row mem
  rw [← hop, ← hpat] at hmask
  unfold whenZero
  split
  case isTrue h => exact .instr _ i mem (hmask.mpr (hzero.mp h)) hm (henc (hzero.mp h)) wf
  case isFalse h => exact .reserved _ mem hop fun h' => h (hzero.mpr (hmask.mp h'))

theorem of_decodeR4 {mk : Fin 16 → Fin 16 → Fin 16 → Fin 16 → Instr} (hmask : opcodeTable[k].mask = maskR4)
    (h : ∀ a b c d, opcodeTable[k].mnemonic = (mk a b c d).mnemonic ∧ (mk a b c d).WellFormed ∧
      encode (mk a b c d) = encodeR (opField opcodeTable[k].pattern) (regBits a) (regBits b) (regBits c) (regBits d)) :
    DecodeOutcome w (decodeR4 w mk) := by
  obtain ⟨hm, wf, henc⟩ := h (regOf (rdField w)) (regOf (raField w)) (regOf (rbField w)) (regOf (rcField w))
  refine of_whenZero k hop (by simp) (hmask ▸ and_maskR4_iff w) hm wf fun hl => ?_
  rw [henc, ← BitVec.eq_of_toNat_eq hop]
  simpa using encodeR_fields w hl

theorem of_decodeR3 {mk : Fin 16 → Fin 16 → Fin 16 → Instr} (hmask : opcodeTable[k].mask = maskR3)
    (h : ∀ a b c, opcodeTable[k].mnemonic = (mk a b c).mnemonic ∧ (mk a b c).WellFormed ∧
      encode (mk a b c) = encodeR (opField opcodeTable[k].pattern) (regBits a) (regBits b) (regBits c) 0) :
    DecodeOutcome w (decodeR3 w mk) := by
  obtain ⟨hm, wf, henc⟩ := h (regOf (rdField w)) (regOf (raField w)) (regOf (rbField w))
  refine of_whenZero k hop (by simp) (hmask ▸ and_maskR3_iff w) hm wf fun ⟨hc, hl⟩ => ?_
  rw [henc, ← BitVec.eq_of_toNat_eq hop]
  simpa [hc] using encodeR_fields w hl

theorem of_decodeR2 {mk : Fin 16 → Fin 16 → Instr} (hmask : opcodeTable[k].mask = maskR2)
    (h : ∀ a b, opcodeTable[k].mnemonic = (mk a b).mnemonic ∧ (mk a b).WellFormed ∧
      encode (mk a b) = encodeR (opField opcodeTable[k].pattern) (regBits a) (regBits b) 0 0) :
    DecodeOutcome w (decodeR2 w mk) := by
  obtain ⟨hm, wf, henc⟩ := h (regOf (rdField w)) (regOf (raField w))
  refine of_whenZero k hop (by simp [and_assoc]) (hmask ▸ and_maskR2_iff w) hm wf fun ⟨hb, hc, hl⟩ => ?_
  rw [henc, ← BitVec.eq_of_toNat_eq hop]
  simpa [hb, hc] using encodeR_fields w hl

theorem of_decodeRab {mk : Fin 16 → Fin 16 → Instr} (hmask : opcodeTable[k].mask = maskRab)
    (h : ∀ a b, opcodeTable[k].mnemonic = (mk a b).mnemonic ∧ (mk a b).WellFormed ∧
      encode (mk a b) = encodeR (opField opcodeTable[k].pattern) 0 (regBits a) (regBits b) 0) :
    DecodeOutcome w (decodeRab w mk) := by
  obtain ⟨hm, wf, henc⟩ := h (regOf (raField w)) (regOf (rbField w))
  refine of_whenZero k hop (by simp [and_assoc]) (hmask ▸ and_maskRab_iff w) hm wf fun ⟨hd, hc, hl⟩ => ?_
  rw [henc, ← BitVec.eq_of_toNat_eq hop]
  simpa [hd, hc] using encodeR_fields w hl

theorem of_decodeRa {mk : Fin 16 → Instr} (hmask : opcodeTable[k].mask = maskRa)
    (h : ∀ a, opcodeTable[k].mnemonic = (mk a).mnemonic ∧ (mk a).WellFormed ∧
      encode (mk a) = encodeR (opField opcodeTable[k].pattern) 0 (regBits a) 0 0) :
    DecodeOutcome w (decodeRa w mk) := by
  obtain ⟨hm, wf, henc⟩ := h (regOf (raField w))
  refine of_whenZero k hop (by simp [and_assoc]) (hmask ▸ and_maskRa_iff w) hm wf fun ⟨hd, hb, hc, hl⟩ => ?_
  rw [henc, ← BitVec.eq_of_toNat_eq hop]
  simpa [hd, hb, hc] using encodeR_fields w hl

theorem of_decodeRd {mk : Fin 16 → Instr} (hmask : opcodeTable[k].mask = maskRd)
    (h : ∀ a, opcodeTable[k].mnemonic = (mk a).mnemonic ∧ (mk a).WellFormed ∧
      encode (mk a) = encodeR (opField opcodeTable[k].pattern) (regBits a) 0 0 0) :
    DecodeOutcome w (decodeRd w mk) := by
  obtain ⟨hm, wf, henc⟩ := h (regOf (rdField w))
  refine of_whenZero k hop (by simp [and_assoc]) (hmask ▸ and_maskRd_iff w) hm wf fun ⟨ha, hb, hc, hl⟩ => ?_
  rw [henc, ← BitVec.eq_of_toNat_eq hop]
  simpa [ha, hb, hc] using encodeR_fields w hl

theorem of_decodeM {mk : Fin 16 → Nat → Instr} (hmask : opcodeTable[k].mask = maskM)
    (h : ∀ r n, opcodeTable[k].mnemonic = (mk r n).mnemonic ∧ (mk r n).wellFormed = Instr.fitsUnsigned16 n ∧
      encode (mk r n) = encodeM (opField opcodeTable[k].pattern) (regBits r) (BitVec.ofNat 16 n)) :
    DecodeOutcome w (decodeM w mk) := by
  obtain ⟨hm, wf, henc⟩ := h (regOf (rdField w)) (immField w).toNat
  have fits : Instr.fitsUnsigned16 (immField w).toNat = true := decide_eq_true (immField w).isLt
  refine of_whenZero k hop (by simp) (hmask ▸ and_maskM_iff w) hm (wf.trans fits) fun ha => ?_
  rw [henc, ← BitVec.eq_of_toNat_eq hop]
  simpa using encodeM_fields w ha

theorem of_decodeB {mk : Int → Instr} (hmask : opcodeTable[k].mask = maskB)
    (h : ∀ off, opcodeTable[k].mnemonic = (mk off).mnemonic ∧ (mk off).wellFormed = Instr.fitsSigned16 off ∧
      encode (mk off) = encodeB (opField opcodeTable[k].pattern) (BitVec.ofInt 16 off)) :
    DecodeOutcome w (decodeB w mk) := by
  obtain ⟨hm, wf, henc⟩ := h (immField w).toInt
  have fits : Instr.fitsSigned16 (immField w).toInt = true :=
    decide_eq_true ⟨(immField w).le_toInt, Int.le_of_lt_add_one (immField w).toInt_lt⟩
  refine of_whenZero k hop (by simp) (hmask ▸ and_maskB_iff w) hm (wf.trans fits) fun ⟨hd, ha⟩ => ?_
  rw [henc, ← BitVec.eq_of_toNat_eq hop]
  simpa using encodeB_fields w hd ha

theorem of_decodeH {mk : Nat → Instr} (hmask : opcodeTable[k].mask = maskH)
    (h : ∀ code, opcodeTable[k].mnemonic = (mk code).mnemonic ∧ (mk code).wellFormed = Instr.fitsCode code ∧
      encode (mk code) = encodeH (opField opcodeTable[k].pattern) (BitVec.ofNat 8 code)) :
    DecodeOutcome w (decodeH w mk) := by
  obtain ⟨hm, wf, henc⟩ := h (lowField w).toNat
  have fits : Instr.fitsCode (lowField w).toNat = true := decide_eq_true (lowField w).isLt
  refine of_whenZero k hop (by simp [and_assoc]) (hmask ▸ and_maskH_iff w) hm (wf.trans fits) fun ⟨hd, ha, hb, hc⟩ => ?_
  rw [henc, ← BitVec.eq_of_toNat_eq hop]
  simpa using encodeH_fields w hd ha hb hc

end DecodeOutcome

/-- R112: the opcodes of the rows are those outside the listed ranges. -/
theorem opcode_unassigned_iff (w : Word) : (∀ row ∈ opcodeTable, opField row.pattern ≠ opField w) ↔
    ((opField w).toNat = 0 ∨ (0x05 ≤ (opField w).toNat ∧ (opField w).toNat ≤ 0x0F) ∨
      (0x1B ≤ (opField w).toNat ∧ (opField w).toNat ≤ 0x1F) ∨ (0x29 ≤ (opField w).toNat ∧ (opField w).toNat ≤ 0x2F) ∨
      0x3B ≤ (opField w).toNat) := by
  have listed : ∀ op < 256, (∀ row ∈ opcodeTable, (opField row.pattern).toNat ≠ op) ↔
      (op = 0 ∨ (0x05 ≤ op ∧ op ≤ 0x0F) ∨ (0x1B ≤ op ∧ op ≤ 0x1F) ∨ (0x29 ≤ op ∧ op ≤ 0x2F) ∨ 0x3B ≤ op) := by
    decide +kernel
  simpa only [ne_eq, BitVec.toNat_inj] using listed (opField w).toNat (opField w).isLt

/-- Every word decodes to the instruction of its row, or is rejected by name. -/
theorem decode_outcome (w : Word) : DecodeOutcome w (decode w) := by
  unfold decode
  split
  case h_1 hop => exact .of_decodeH 0 hop rfl fun _ => ⟨rfl, rfl, rfl⟩
  case h_2 hop => exact .of_decodeB 1 hop rfl fun _ => ⟨rfl, rfl, rfl⟩
  case h_3 hop => exact .of_decodeB 2 hop rfl fun _ => ⟨rfl, rfl, rfl⟩
  case h_4 hop => exact .of_decodeB 3 hop rfl fun _ => ⟨rfl, rfl, rfl⟩
  case h_5 hop => exact .of_decodeM 4 hop rfl fun _ _ => ⟨rfl, rfl, rfl⟩
  case h_6 hop => exact .of_decodeM 5 hop rfl fun _ _ => ⟨rfl, rfl, rfl⟩
  case h_7 hop => exact .of_decodeM 6 hop rfl fun _ _ => ⟨rfl, rfl, rfl⟩
  case h_8 hop => exact .of_decodeR2 7 hop rfl fun _ _ => ⟨rfl, rfl, rfl⟩
  case h_9 hop => exact .of_decodeR3 8 hop rfl fun _ _ _ => ⟨rfl, rfl, rfl⟩
  case h_10 hop => exact .of_decodeR3 9 hop rfl fun _ _ _ => ⟨rfl, rfl, rfl⟩
  case h_11 hop => exact .of_decodeR3 10 hop rfl fun _ _ _ => ⟨rfl, rfl, rfl⟩
  case h_12 hop => exact .of_decodeR2 11 hop rfl fun _ _ => ⟨rfl, rfl, rfl⟩
  case h_13 hop => exact .of_decodeR2 12 hop rfl fun _ _ => ⟨rfl, rfl, rfl⟩
  case h_14 hop => exact .of_decodeR2 13 hop rfl fun _ _ => ⟨rfl, rfl, rfl⟩
  case h_15 hop => exact .of_decodeRab 14 hop rfl fun _ _ => ⟨rfl, rfl, rfl⟩
  case h_16 hop => exact .of_decodeM 15 hop rfl fun _ _ => ⟨rfl, rfl, rfl⟩
  case h_17 hop => exact .of_decodeM 16 hop rfl fun _ _ => ⟨rfl, rfl, rfl⟩
  case h_18 hop => exact .of_decodeM 17 hop rfl fun _ _ => ⟨rfl, rfl, rfl⟩
  case h_19 hop => exact .of_decodeR2 18 hop rfl fun _ _ => ⟨rfl, rfl, rfl⟩
  case h_20 hop => exact .of_decodeR3 19 hop rfl fun _ _ _ => ⟨rfl, rfl, rfl⟩
  case h_21 hop => exact .of_decodeR3 20 hop rfl fun _ _ _ => ⟨rfl, rfl, rfl⟩
  case h_22 hop => exact .of_decodeR4 21 hop rfl fun _ _ _ _ => ⟨rfl, rfl, rfl⟩
  case h_23 hop => exact .of_decodeR2 22 hop rfl fun _ _ => ⟨rfl, rfl, rfl⟩
  case h_24 hop => exact .of_decodeRa 23 hop rfl fun _ => ⟨rfl, rfl, rfl⟩
  case h_25 hop => exact .of_decodeM 24 hop rfl fun _ _ => ⟨rfl, rfl, rfl⟩
  case h_26 hop => exact .of_decodeM 25 hop rfl fun _ _ => ⟨rfl, rfl, rfl⟩
  case h_27 hop => exact .of_decodeRd 26 hop rfl fun _ => ⟨rfl, rfl, rfl⟩
  case h_28 hop => exact .of_decodeR3 27 hop rfl fun _ _ _ => ⟨rfl, rfl, rfl⟩
  case h_29 hop => exact .of_decodeR2 28 hop rfl fun _ _ => ⟨rfl, rfl, rfl⟩
  case h_30 hop => exact .of_decodeR2 29 hop rfl fun _ _ => ⟨rfl, rfl, rfl⟩
  case h_31 hop => exact .of_decodeR3 30 hop rfl fun _ _ _ => ⟨rfl, rfl, rfl⟩
  case h_32 hop => exact .of_decodeRab 31 hop rfl fun _ _ => ⟨rfl, rfl, rfl⟩
  case h_33 hop => exact .of_decodeR2 32 hop rfl fun _ _ => ⟨rfl, rfl, rfl⟩
  case h_34 hop => exact .of_decodeR2 33 hop rfl fun _ _ => ⟨rfl, rfl, rfl⟩
  case h_35 hop => exact .of_decodeR3 34 hop rfl fun _ _ _ => ⟨rfl, rfl, rfl⟩
  case h_36 =>
    refine .unassigned ((opcode_unassigned_iff w).mpr ?_)
    simp only [imp_false] at *
    omega

/-- What is known of a word that decodes. -/
theorem of_decode_ok {w : Word} {i : Instr} (h : decode w = .ok i) :
    ∃ row ∈ opcodeTable, w &&& row.mask = row.pattern ∧ row.mnemonic = i.mnemonic ∧ encode i = w ∧ i.WellFormed := by
  have o := decode_outcome w
  rw [h] at o
  cases o with
  | instr row i mem hw hm henc wf => exact ⟨row, mem, hw, hm, henc, wf⟩

/-- Settles O2: the outcome of decoding says so of every instruction it answers. -/
theorem encodeOfDecodeIsTheWord : Obligations.EncodeOfDecodeIsTheWord := by
  intro w i h
  obtain ⟨-, -, -, -, henc, wf⟩ := of_decode_ok h
  exact ⟨henc, wf⟩

/-! ## Which words decode (R111, R112) -/

theorem decode_unassigned_iff (w : Word) :
    decode w = .error .unassignedOpcode ↔ ∀ row ∈ opcodeTable, opField row.pattern ≠ opField w := by
  have o := decode_outcome w
  generalize decode w = answer at o
  cases o with
  | unassigned h => exact ⟨fun _ => h, fun _ => rfl⟩
  | reserved row mem hop _ => exact ⟨nofun, fun h => absurd hop (h row mem)⟩
  | instr row _ mem hw => exact ⟨nofun, fun h => absurd (opField_of_match mem hw) (h row mem)⟩

/-- A row that a word matches is the one that its outcome names. -/
theorem decode_ok_iff (w : Word) : (∃ i, decode w = .ok i) ↔ ∃ row ∈ opcodeTable, w &&& row.mask = row.pattern := by
  have o := decode_outcome w
  generalize decode w = answer at o
  cases o with
  | unassigned h => exact ⟨nofun, fun ⟨row, mem, hw⟩ => absurd (opField_of_match mem hw) (h row mem)⟩
  | reserved row mem hop hw =>
    refine ⟨nofun, fun ⟨row', mem', hw'⟩ => absurd hw' ?_⟩
    rwa [row_eq_of_opField mem' mem ((opField_of_match mem' hw').trans hop.symm)]
  | instr row i mem hw => exact ⟨fun _ => ⟨row, mem, hw⟩, fun _ => ⟨i, rfl⟩⟩

theorem decode_reserved_iff (w : Word) : decode w = .error .reservedBits ↔
    (∃ row ∈ opcodeTable, opField w = opField row.pattern) ∧ ¬∃ row ∈ opcodeTable, w &&& row.mask = row.pattern := by
  rw [← decode_ok_iff]
  have o := decode_outcome w
  generalize decode w = answer at o
  cases o with
  | unassigned h => exact ⟨nofun, fun ⟨⟨row, mem, hop⟩, _⟩ => absurd hop.symm (h row mem)⟩
  | reserved row mem hop _ => exact ⟨fun _ => ⟨⟨row, mem, hop.symm⟩, nofun⟩, fun _ => rfl⟩
  | instr row i => exact ⟨nofun, fun ⟨_, h⟩ => absurd ⟨i, rfl⟩ h⟩

/-- Settles O3: the outcome of decoding names the one row that has the word's opcode. -/
theorem wordDecodesExactlyWhenARowMatches : Obligations.WordDecodesExactlyWhenARowMatches := by
  refine ⟨rfl, decode_ok_iff, fun w i h => ?_, fun w row mem row' mem' hw hw' => ?_, decode_reserved_iff⟩
  · obtain ⟨row, mem, hw, hm, -, -⟩ := of_decode_ok h
    exact ⟨row, mem, hm, hw⟩
  · exact row_eq_of_opField mem mem' ((opField_of_match mem hw).trans (opField_of_match mem' hw').symm)

/-- A step whose fetched word does not decode raises E_ILLEGAL (R134, R256). -/
theorem Machine.step_of_undecodable {s : Machine.State} {e : DecodeError} (hr : s.runState = .running) (ha : s.abrq = false)
    (hp : s.pc.toNat < s.params.imemWords) (hd : decode s.fetchWord = .error e) :
    Machine.step s = .next (s.raise .illegal s.fetchWord 0) := by
  simp [Machine.step, hr, ha, Nat.not_le.mpr hp, hd]

/-- Settles O4: the rows have every opcode but those listed, and a step that decodes nothing raises E_ILLEGAL. -/
theorem wordsThatDoNotDecodeRaiseIllegal : Obligations.WordsThatDoNotDecodeRaiseIllegal := by
  refine ⟨fun w => ?_, fun s e hr ha hp hd => Machine.step_of_undecodable hr ha hp hd⟩
  rw [decode_unassigned_iff, opcode_unassigned_iff, opField_toNat]

end Sys2Proof
end

section
/-! PROOFS. The assembler on parsed operands (R121–R123): each mnemonic reads the operands of its instruction and no others, and
each operand that it takes fits its field. -/

namespace Sys2Proof.Machine

/-! ## What one operand reader takes (R122) -/

theorem lt_of_asF {x : AsmOperand} {r : FReg} (h : asF x = some r) : ∃ n < 16, x = .freg n := by
  cases x with
  | freg n => exact ⟨n, lt_of_regIndex h, rfl⟩
  | _ => cases h

theorem lt_of_asS {x : AsmOperand} {r : SReg} (h : asS x = some r) : ∃ n < 16, x = .sreg n := by
  cases x with
  | sreg n => exact ⟨n, lt_of_regIndex h, rfl⟩
  | _ => cases h

theorem lt_of_asP {x : AsmOperand} {r : PReg} (h : asP x = some r) : ∃ n < 16, x = .preg n := by
  cases x with
  | preg n => exact ⟨n, lt_of_regIndex h, rfl⟩
  | _ => cases h

theorem asNat_eq_some {x : AsmOperand} {n : Nat} (h : asNat x = some n) : ∃ hex, x = .num n hex := by
  cases x with
  | num v hex =>
    obtain ⟨nonneg, hv⟩ := Option.ite_none_right_eq_some.mp h
    exact ⟨hex, by rw [← Option.some.inj hv, Int.toNat_of_nonneg nonneg]⟩
  | _ => cases h

/-- A label stands for its distance from the branch (R121). -/
theorem asOff_label (labels : Labels) (index : Nat) (name : List Char) :
    asOff labels index (.label name) = (labels.lookup name).map fun target : Nat => (target : Int) - index := by
  cases h : labels.lookup name <;> simp [asOff, h]

/-! ## The mnemonic of an instruction reads its operands (R121) -/

/-- An operand reader takes only operands with the property P. -/
def Takes {α : Type} (a : AsmOperand → Option α) (P : AsmOperand → Prop) : Prop := ∀ x u, a x = some u → P x

theorem takes_asF_file : Takes asF (·.file = some .f) := fun _ _ h => by
  obtain ⟨n, -, rfl⟩ := lt_of_asF h
  rfl

theorem takes_asS_file : Takes asS (·.file = some .s) := fun _ _ h => by
  obtain ⟨n, -, rfl⟩ := lt_of_asS h
  rfl

theorem takes_asP_file : Takes asP (·.file = some .p) := fun _ _ h => by
  obtain ⟨n, -, rfl⟩ := lt_of_asP h
  rfl

theorem takes_asNat_file : Takes asNat (·.file = none) := fun _ _ h => by
  obtain ⟨hex, rfl⟩ := asNat_eq_some h
  rfl

theorem takes_asOff_file (labels : Labels) (index : Nat) : Takes (asOff labels index) (·.file = none) := fun x _ h => by
  cases x with
  | num | label => rfl
  | _ => cases h

section
variable {α β γ δ : Type} {a : AsmOperand → Option α} {b : AsmOperand → Option β} {c : AsmOperand → Option γ}
  {d : AsmOperand → Option δ} {P Q R T : AsmOperand → Prop}

/-- The operands that a reader takes, one property an operand. -/
def ReaderTakes (read : OperandReader) (properties : List (AsmOperand → Prop)) : Prop :=
  ∀ ops i, read ops = some i → List.Forall₂ (fun x P => P x) ops properties

theorem readerTakes_ops0 (i : Instr) : ReaderTakes (ops0 i) [] := fun ops _ h => by
  obtain ⟨rfl, -⟩ := ops0_eq_some.mp h
  exact .nil

theorem readerTakes_ops1 {mk : α → Instr} (ha : Takes a P) : ReaderTakes (ops1 a mk) [P] := fun ops _ h => by
  obtain ⟨x, rfl, u, hx, -⟩ := ops1_eq_some.mp h
  exact .cons (ha x u hx) .nil

theorem readerTakes_ops2 {mk : α → β → Instr} (ha : Takes a P) (hb : Takes b Q) : ReaderTakes (ops2 a b mk) [P, Q] :=
  fun ops _ h => by
    obtain ⟨x, y, rfl, u, v, hx, hy, -⟩ := ops2_eq_some.mp h
    exact .cons (ha x u hx) (.cons (hb y v hy) .nil)

theorem readerTakes_ops3 {mk : α → β → γ → Instr} (ha : Takes a P) (hb : Takes b Q) (hc : Takes c R) :
    ReaderTakes (ops3 a b c mk) [P, Q, R] := fun ops _ h => by
  obtain ⟨x, y, z, rfl, u, v, w, hx, hy, hz, -⟩ := ops3_eq_some.mp h
  exact .cons (ha x u hx) (.cons (hb y v hy) (.cons (hc z w hz) .nil))

theorem readerTakes_ops4 {mk : α → β → γ → δ → Instr} (ha : Takes a P) (hb : Takes b Q) (hc : Takes c R)
    (hd : Takes d T) : ReaderTakes (ops4 a b c d mk) [P, Q, R, T] := fun ops _ h => by
  obtain ⟨x, y, z, t, rfl, u, v, w, q, hx, hy, hz, ht, -⟩ := ops4_eq_some.mp h
  exact .cons (ha x u hx) (.cons (hb y v hy) (.cons (hc z w hz) (.cons (hd t q ht) .nil)))

end

/-- The mnemonic's reader takes the instruction's own operands, and only operands of their register files. -/
theorem reader_of_instr (labels : Labels) (index : Nat) (i : Instr) :
    ∃ read, (asmTable labels index).lookup i.mnemonic = some read ∧ read (asmOperands i) = some i ∧
      ReaderTakes read ((asmOperands i).map fun want got => got.file = want.file) := by
  cases i with
  | halt code =>
    exact ⟨ops1 asNat _, rfl, by simp [asmOperands, ops1], readerTakes_ops1 takes_asNat_file⟩
  | j off | bc off | bnc off =>
    exact ⟨ops1 (asOff labels index) _, rfl, by simp [asmOperands, ops1], readerTakes_ops1 (takes_asOff_file labels index)⟩
  | feLd r n | feSt r n | feLdi r n =>
    exact ⟨ops2 asF asNat _, rfl, by simp [asmOperands, ops2], readerTakes_ops2 takes_asF_file takes_asNat_file⟩
  | feMov x y | feSqr x y | feInv x y | feNeg x y | feEq x y =>
    exact ⟨ops2 asF asF _, rfl, by simp [asmOperands, ops2], readerTakes_ops2 takes_asF_file takes_asF_file⟩
  | feAdd x y z | feSub x y z | feMul x y z =>
    exact ⟨ops3 asF asF asF _, rfl, by simp [asmOperands, ops3],
      readerTakes_ops3 takes_asF_file takes_asF_file takes_asF_file⟩
  | scLd r n | scSt r n | scLdh r n =>
    exact ⟨ops2 asS asNat _, rfl, by simp [asmOperands, ops2], readerTakes_ops2 takes_asS_file takes_asNat_file⟩
  | scRed x y | scClamp x y =>
    exact ⟨ops2 asS asS _, rfl, by simp [asmOperands, ops2], readerTakes_ops2 takes_asS_file takes_asS_file⟩
  | scAdd x y z | scMul x y z =>
    exact ⟨ops3 asS asS asS _, rfl, by simp [asmOperands, ops3],
      readerTakes_ops3 takes_asS_file takes_asS_file takes_asS_file⟩
  | scMulAdd x y z t =>
    exact ⟨ops4 asS asS asS asS _, rfl, by simp [asmOperands, ops4],
      readerTakes_ops4 takes_asS_file takes_asS_file takes_asS_file takes_asS_file⟩
  | scLtl x =>
    exact ⟨ops1 asS _, rfl, by simp [asmOperands, ops1], readerTakes_ops1 takes_asS_file⟩
  | ptDec r n | ptEnc r n =>
    exact ⟨ops2 asP asNat _, rfl, by simp [asmOperands, ops2], readerTakes_ops2 takes_asP_file takes_asNat_file⟩
  | ptId x =>
    exact ⟨ops1 asP _, rfl, by simp [asmOperands, ops1], readerTakes_ops1 takes_asP_file⟩
  | ptAdd x y z =>
    exact ⟨ops3 asP asP asP _, rfl, by simp [asmOperands, ops3],
      readerTakes_ops3 takes_asP_file takes_asP_file takes_asP_file⟩
  | ptDbl x y | ptEq x y =>
    exact ⟨ops2 asP asP _, rfl, by simp [asmOperands, ops2], readerTakes_ops2 takes_asP_file takes_asP_file⟩
  | ptSmulb x y =>
    exact ⟨ops2 asP asS _, rfl, by simp [asmOperands, ops2], readerTakes_ops2 takes_asP_file takes_asS_file⟩
  | ptSmul x y z =>
    exact ⟨ops3 asP asS asP _, rfl, by simp [asmOperands, ops3],
      readerTakes_ops3 takes_asP_file takes_asS_file takes_asP_file⟩
  | ptGetx x y | ptGety x y =>
    exact ⟨ops2 asF asP _, rfl, by simp [asmOperands, ops2], readerTakes_ops2 takes_asF_file takes_asP_file⟩
  | ptFromxy x y z =>
    exact ⟨ops3 asP asF asF _, rfl, by simp [asmOperands, ops3],
      readerTakes_ops3 takes_asP_file takes_asF_file takes_asF_file⟩

theorem instrOf_asmOperands (labels : Labels) (index : Nat) (i : Instr) :
    instrOf labels index i.mnemonic (asmOperands i) = some i := by
  obtain ⟨read, hl, own, -⟩ := reader_of_instr labels index i
  rw [instrOf, hl]
  exact own

/-- A line with an instruction's mnemonic has operands of the instruction's register files, one for each (R121, R122). -/
theorem files_of_instrOf {labels : Labels} {index : Nat} {i j : Instr} {ops : List AsmOperand}
    (h : instrOf labels index i.mnemonic ops = some j) :
    List.Forall₂ (fun got want => got.file = want.file) ops (asmOperands i) := by
  obtain ⟨read, hl, -, files⟩ := reader_of_instr labels index i
  rw [instrOf, hl] at h
  exact (List.forall₂_map_right_iff (R := fun (got : AsmOperand) (P : AsmOperand → Prop) => P got)).mp (files ops j h)

/-! ## Each operand of an assembled line fits its field (R122) -/

/-- What R122 asks of a number, by the mnemonic: a code, a branch offset (log entry 12), an address or an immediate. -/
def NumberFits (mnemonic : String) (v : Int) (hex : Bool) : Prop :=
  if mnemonic = "halt" then 0 ≤ v ∧ v ≤ 255
  else if mnemonic = "j" ∨ mnemonic = "bc" ∨ mnemonic = "bnc" then -32768 ≤ v ∧ (hex = true ∨ v ≤ 32767) ∧ v ≤ 65535
  else 0 ≤ v ∧ v ≤ 65535

/-- What R122 asks of an operand. -/
def OperandFits (labels : Labels) (index : Nat) (mnemonic : String) : AsmOperand → Prop
  | .freg n | .sreg n | .preg n => n < 16
  | .num v hex => NumberFits mnemonic v hex
  | .label name => ∃ target : Nat, labels.lookup name = some target ∧ Instr.fitsSigned16 (target - index) = true

/-- The operands that a row of the mnemonic table reads into a well-formed instruction all fit. -/
def RowFits (labels : Labels) (index : Nat) (row : String × OperandReader) : Prop :=
  ∀ ops i, row.2 ops = some i → i.wellFormed = true → ∀ x ∈ ops, OperandFits labels index row.1 x

section
variable {labels : Labels} {index : Nat} {mnemonic : String}

theorem takes_asF_fits : Takes asF (OperandFits labels index mnemonic) := fun _ _ h => by
  obtain ⟨n, hn, rfl⟩ := lt_of_asF h
  exact hn

theorem takes_asS_fits : Takes asS (OperandFits labels index mnemonic) := fun _ _ h => by
  obtain ⟨n, hn, rfl⟩ := lt_of_asS h
  exact hn

theorem takes_asP_fits : Takes asP (OperandFits labels index mnemonic) := fun _ _ h => by
  obtain ⟨n, hn, rfl⟩ := lt_of_asP h
  exact hn

/-- A row whose operands are registers. -/
theorem rowFits_registers {read : OperandReader} (n : Nat)
    (h : ReaderTakes read (List.replicate n (OperandFits labels index mnemonic))) :
    RowFits labels index (mnemonic, read) := by
  intro ops i hr _ x hx
  obtain ⟨k, hk, rfl⟩ := List.mem_iff_getElem.mp hx
  obtain ⟨len, fits⟩ := List.forall₂_iff_get.mp (h ops i hr)
  simpa using fits k hk (len ▸ hk)

section
variable {α β γ δ : Type} {a : AsmOperand → Option α} {b : AsmOperand → Option β} {c : AsmOperand → Option γ}
  {d : AsmOperand → Option δ}
  (ha : Takes a (OperandFits labels index mnemonic)) (hb : Takes b (OperandFits labels index mnemonic))
  (hc : Takes c (OperandFits labels index mnemonic)) (hd : Takes d (OperandFits labels index mnemonic))
include ha

theorem rowFits_ops1 {mk : α → Instr} : RowFits labels index (mnemonic, ops1 a mk) :=
  rowFits_registers 1 (readerTakes_ops1 ha)

include hb

theorem rowFits_ops2 {mk : α → β → Instr} : RowFits labels index (mnemonic, ops2 a b mk) :=
  rowFits_registers 2 (readerTakes_ops2 ha hb)

include hc

theorem rowFits_ops3 {mk : α → β → γ → Instr} : RowFits labels index (mnemonic, ops3 a b c mk) :=
  rowFits_registers 3 (readerTakes_ops3 ha hb hc)

include hd

theorem rowFits_ops4 {mk : α → β → γ → δ → Instr} : RowFits labels index (mnemonic, ops4 a b c d mk) :=
  rowFits_registers 4 (readerTakes_ops4 ha hb hc hd)

end

/-- A row whose operands are a register and an address or an immediate. -/
theorem rowFits_address {a : AsmOperand → Option (Fin 16)} {mk : Fin 16 → Nat → Instr}
    (ha : Takes a (OperandFits labels index mnemonic)) (hwf : ∀ r n, (mk r n).wellFormed = Instr.fitsUnsigned16 n)
    (hm : mnemonic ≠ "halt" ∧ ¬(mnemonic = "j" ∨ mnemonic = "bc" ∨ mnemonic = "bnc")) :
    RowFits labels index (mnemonic, ops2 a asNat mk) := by
  intro ops i h wf
  obtain ⟨x, y, rfl, r, n, hx, hy, rfl⟩ := ops2_eq_some.mp h
  obtain ⟨hex, rfl⟩ := asNat_eq_some hy
  have bound : n < 65536 := of_decide_eq_true ((hwf r n).symm.trans wf)
  have fits : OperandFits labels index mnemonic (.num n hex) := by
    obtain ⟨halt, branch⟩ := hm
    rw [OperandFits, NumberFits, if_neg halt, if_neg branch]
    omega
  exact List.forall_mem_cons.mpr ⟨ha x r hx, List.forall_mem_singleton.mpr fits⟩

theorem rowFits_halt : RowFits labels index ("halt", ops1 asNat .halt) := by
  intro ops i h wf
  obtain ⟨x, rfl, n, hx, rfl⟩ := ops1_eq_some.mp h
  obtain ⟨hex, rfl⟩ := asNat_eq_some hx
  have bound : n < 256 := of_decide_eq_true wf
  refine List.forall_mem_singleton.mpr ?_
  rw [OperandFits, NumberFits, if_pos rfl]
  omega

/-- An offset that a branch's reader answers and that its field holds comes from an operand that fits. -/
theorem fits_of_asOff {x : AsmOperand} {off : Int} (h : asOff labels index x = some off) (wf : Instr.fitsSigned16 off = true)
    (hm : mnemonic = "j" ∨ mnemonic = "bc" ∨ mnemonic = "bnc") : OperandFits labels index mnemonic x := by
  cases x with
  | num v hex =>
    have halt : mnemonic ≠ "halt" := by rintro rfl; simp at hm
    obtain ⟨lo, hi⟩ : -32768 ≤ off ∧ off ≤ 32767 := of_decide_eq_true wf
    have hoff := Option.some.inj h
    rw [OperandFits, NumberFits, if_neg halt, if_pos hm]
    split at hoff
    · next field =>
      obtain ⟨isHex, -, hi⟩ := field
      exact ⟨by omega, .inl isHex, hi⟩
    · exact ⟨by omega, .inr (by omega), by omega⟩
  | label name =>
    rw [asOff_label] at h
    obtain ⟨target, hl, rfl⟩ := Option.map_eq_some_iff.mp h
    exact ⟨target, hl, wf⟩
  | _ => cases h

theorem rowFits_branch {mk : Int → Instr} (hwf : ∀ off, (mk off).wellFormed = Instr.fitsSigned16 off)
    (hm : mnemonic = "j" ∨ mnemonic = "bc" ∨ mnemonic = "bnc") :
    RowFits labels index (mnemonic, ops1 (asOff labels index) mk) := by
  intro ops i h wf
  obtain ⟨x, rfl, off, hx, rfl⟩ := ops1_eq_some.mp h
  exact List.forall_mem_singleton.mpr (fits_of_asOff hx ((hwf off).symm.trans wf) hm)

end

section
variable (labels : Labels) (index : Nat)

theorem asmControl_fits : ∀ row ∈ asmControl labels index, RowFits labels index row := by
  simp only [asmControl, List.forall_mem_cons]
  exact ⟨rowFits_halt, rowFits_branch (fun _ => rfl) (by simp), rowFits_branch (fun _ => rfl) (by simp),
    rowFits_branch (fun _ => rfl) (by simp), nofun⟩

theorem asmField_fits : ∀ row ∈ asmField, RowFits labels index row := by
  have two {m} {mk : FReg → FReg → Instr} : RowFits labels index (m, ops2 asF asF mk) :=
    rowFits_ops2 takes_asF_fits takes_asF_fits
  have three {m} {mk : FReg → FReg → FReg → Instr} : RowFits labels index (m, ops3 asF asF asF mk) :=
    rowFits_ops3 takes_asF_fits takes_asF_fits takes_asF_fits
  simp only [asmField, List.forall_mem_cons]
  exact ⟨rowFits_address takes_asF_fits (fun _ _ => rfl) (by simp), rowFits_address takes_asF_fits (fun _ _ => rfl) (by simp),
    rowFits_address takes_asF_fits (fun _ _ => rfl) (by simp), two, three, three, three, two, two, two, two, nofun⟩

theorem asmScalar_fits : ∀ row ∈ asmScalar, RowFits labels index row := by
  have two {m} {mk : SReg → SReg → Instr} : RowFits labels index (m, ops2 asS asS mk) :=
    rowFits_ops2 takes_asS_fits takes_asS_fits
  have three {m} {mk : SReg → SReg → SReg → Instr} : RowFits labels index (m, ops3 asS asS asS mk) :=
    rowFits_ops3 takes_asS_fits takes_asS_fits takes_asS_fits
  simp only [asmScalar, List.forall_mem_cons]
  exact ⟨rowFits_address takes_asS_fits (fun _ _ => rfl) (by simp), rowFits_address takes_asS_fits (fun _ _ => rfl) (by simp),
    rowFits_address takes_asS_fits (fun _ _ => rfl) (by simp), two, three, three,
    rowFits_ops4 takes_asS_fits takes_asS_fits takes_asS_fits takes_asS_fits, two, rowFits_ops1 takes_asS_fits, nofun⟩

theorem asmPoint_fits : ∀ row ∈ asmPoint, RowFits labels index row := by
  simp only [asmPoint, List.forall_mem_cons]
  exact ⟨rowFits_address takes_asP_fits (fun _ _ => rfl) (by simp), rowFits_address takes_asP_fits (fun _ _ => rfl) (by simp),
    rowFits_ops1 takes_asP_fits, rowFits_ops3 takes_asP_fits takes_asP_fits takes_asP_fits,
    rowFits_ops2 takes_asP_fits takes_asP_fits, rowFits_ops2 takes_asP_fits takes_asS_fits,
    rowFits_ops3 takes_asP_fits takes_asS_fits takes_asP_fits, rowFits_ops2 takes_asP_fits takes_asP_fits,
    rowFits_ops2 takes_asF_fits takes_asP_fits, rowFits_ops2 takes_asF_fits takes_asP_fits,
    rowFits_ops3 takes_asP_fits takes_asF_fits takes_asF_fits, nofun⟩

theorem asmPseudo_fits : ∀ row ∈ asmPseudo, RowFits labels index row := by
  simp only [asmPseudo, List.forall_mem_cons]
  exact ⟨rowFits_registers 0 (readerTakes_ops0 _), rowFits_ops2 takes_asF_fits takes_asF_fits, rowFits_ops1 takes_asF_fits,
    nofun⟩

theorem asmTable_fits : ∀ row ∈ asmTable labels index, RowFits labels index row := by
  simp only [asmTable, List.forall_mem_append]
  exact ⟨⟨⟨⟨asmControl_fits labels index, asmField_fits labels index⟩, asmScalar_fits labels index⟩,
    asmPoint_fits labels index⟩, asmPseudo_fits labels index⟩

end

section
variable {labels : Labels} {index : Nat} {mnemonic : List Char} {ops : List AsmOperand}

/-- R122: a line with an operand that does not fit is refused. -/
theorem assembleInstr_eq_none_of_not_fits {x : AsmOperand} (mem : x ∈ ops)
    (h : ¬OperandFits labels index (String.ofList mnemonic) x) : assembleInstr labels index mnemonic ops = none := by
  refine Option.eq_none_iff_forall_ne_some.mpr fun w hw => h ?_
  obtain ⟨i, hi, wf, -⟩ := assembleInstr_eq_some.mp hw
  obtain ⟨read, row, hr⟩ := instrOf_eq_some hi
  exact asmTable_fits labels index _ row ops i hr wf x mem

/-- R121, R122: a line with an instruction's mnemonic is refused where an operand is missing, is one too many, or is of
another register file. -/
theorem assembleInstr_eq_none_of_files {i : Instr}
    (h : ¬List.Forall₂ (fun got want => got.file = want.file) ops (asmOperands i)) :
    assembleInstr labels index i.mnemonic.toList ops = none := by
  refine Option.eq_none_iff_forall_ne_some.mpr fun w hw => h ?_
  obtain ⟨j, hj, -⟩ := assembleInstr_eq_some.mp hw
  rw [String.ofList_toList] at hj
  exact files_of_instrOf hj

/-- The word of a line that names a well-formed instruction. -/
theorem assembleInstr_of_instrOf {mnemonic : String} {i : Instr} (h : instrOf labels index mnemonic ops = some i)
    (wf : i.WellFormed) : assembleInstr labels index mnemonic.toList ops = some (encode i) :=
  assembleInstr_eq_some.mpr ⟨i, by rwa [String.ofList_toList], wf, rfl⟩

end

/-- A number outside the range that R122 gives it for the mnemonic. -/
theorem not_numberFits {mnemonic : String} {v : Int} {hex : Bool}
    (h : if mnemonic = "halt" then v < 0 ∨ 255 < v
      else if mnemonic = "j" ∨ mnemonic = "bc" ∨ mnemonic = "bnc" then v < -32768 ∨ (hex = false ∧ 32767 < v) ∨ 65535 < v
      else v < 0 ∨ 65535 < v) : ¬NumberFits mnemonic v hex := by
  unfold NumberFits
  split_ifs at h ⊢
  · omega
  · rintro ⟨lo, hhex, hi⟩
    rcases h with h | ⟨rfl, h⟩ | h
    · omega
    · simp only [Bool.false_eq_true, false_or] at hhex
      omega
    · omega
  · omega

/-- A branch to a label at a distance that its field holds (R121, R122). -/
theorem assembleInstr_branch {labels : Labels} {index target : Nat} {name : List Char} (h : labels.lookup name = some target)
    {mnemonic : String} {mk : Int → Instr}
    (reads : (asmTable labels index).lookup mnemonic = some (ops1 (asOff labels index) mk))
    (wf : (mk (target - index)).WellFormed) :
    assembleInstr labels index mnemonic.toList [.label name] = some (encode (mk (target - index))) := by
  refine assembleInstr_of_instrOf ?_ wf
  simp [instrOf, reads, ops1, asOff_label, h]

/-- A label that is undefined, or too far for a branch, is refused with every mnemonic (R122). -/
theorem assembleInstr_label_eq_none {labels : Labels} {index : Nat} {name : List Char}
    (h : ∀ target : Nat, labels.lookup name = some target →
      (target : Int) - index < -32768 ∨ 32767 < (target : Int) - index) (mnemonic : List Char) :
    assembleInstr labels index mnemonic [.label name] = none := by
  refine assembleInstr_eq_none_of_not_fits List.mem_cons_self fun ⟨target, found, fits⟩ => ?_
  have near : -32768 ≤ (target : Int) - index ∧ (target : Int) - index ≤ 32767 := of_decide_eq_true fits
  have far := h target found
  omega

/-! ## The pseudo-instructions (R123) -/

section
variable (labels : Labels) (index : Nat) (fd fa : FReg)

theorem instrOf_nop : instrOf labels index "nop" [] = some (.j 1) := rfl

theorem instrOf_feDbl : instrOf labels index "fe.dbl" [.freg fd, .freg fa] = some (.feAdd fd fa fa) := by
  have reads : (asmTable labels index).lookup "fe.dbl" = some (ops2 asF asF fun fd fa => .feAdd fd fa fa) := rfl
  simp [instrOf, reads, ops2]

theorem instrOf_feClr : instrOf labels index "fe.clr" [.freg fd] = some (.feLdi fd 0) := by
  have reads : (asmTable labels index).lookup "fe.clr" = some (ops1 asF fun fd => .feLdi fd 0) := rfl
  simp [instrOf, reads, ops1]

end

/-- Settles O60: the rows of the mnemonic table say what a line reads, and decoding gives its instruction back. -/
theorem assembledWordsDecodeBack : Obligations.AssembledWordsDecodeBack := by
  refine ⟨?word, ?own, ?count, ?file, ?registers, ?numbers, ?labels, ?pseudo⟩
  case word =>
    intro labels index mnemonic ops w h
    obtain ⟨i, hi, wf, rfl⟩ := assembleInstr_eq_some.mp h
    exact ⟨i, hi, decodeOfEncodeIsTheInstruction i wf⟩
  case own => exact fun labels index i wf => assembleInstr_of_instrOf (instrOf_asmOperands labels index i) wf
  case count => exact fun labels index i ops h => assembleInstr_eq_none_of_files fun same => h same.length_eq
  case file =>
    intro labels index i ops k want got hwant hgot h
    obtain ⟨hk, rfl⟩ := List.getElem?_eq_some_iff.mp hgot
    obtain ⟨hk', rfl⟩ := List.getElem?_eq_some_iff.mp hwant
    exact assembleInstr_eq_none_of_files fun same => h (same.get hk hk')
  case registers =>
    intro labels index mnemonic ops n hn h
    rcases h with mem | mem | mem <;> exact assembleInstr_eq_none_of_not_fits mem (Nat.not_lt.mpr hn)
  case numbers =>
    intro labels index mnemonic ops v hex mem h
    refine assembleInstr_eq_none_of_not_fits mem ?_
    rw [String.ofList_toList]
    exact not_numberFits h
  case labels =>
    refine fun labels index name => ⟨fun target found => ⟨fun near => ?_, fun far => ?_⟩, fun undefined => ?_⟩
    · have wf := decide_eq_true near
      exact ⟨assembleInstr_branch found rfl wf, assembleInstr_branch found rfl wf, assembleInstr_branch found rfl wf⟩
    · refine assembleInstr_label_eq_none fun target' found' => ?_
      cases found.symm.trans found'
      exact far
    · exact assembleInstr_label_eq_none fun target found => nomatch undefined.symm.trans found
  case pseudo =>
    exact fun labels index fd fa => ⟨assembleInstr_of_instrOf (instrOf_nop labels index) rfl,
      assembleInstr_of_instrOf (instrOf_feDbl labels index fd fa) rfl,
      assembleInstr_of_instrOf (instrOf_feClr labels index fd) rfl⟩

end Sys2Proof.Machine
end

section
/-! PROOFS. The control instructions (R130–R135): their words, the states they leave, and the step that runs an instruction. -/

namespace Sys2Proof.Machine

/-! ## Words -/

/-- A branch's word holds its offset mod 2^16, of any sign (R102, R106). -/
theorem encodeB_ofInt_toNat (op : BitVec 8) (off : Int) :
    (encodeB op (BitVec.ofInt 16 off)).toNat = op.toNat * 2 ^ 24 + (off % 65536).toNat := by
  rw [encodeB_toNat, BitVec.toNat_ofInt]
  rfl

/-- The word of a HALT whose code its field holds (R102, R107). -/
theorem encode_halt_toNat {code : Nat} (h : code < 256) : (encode (.halt code)).toNat = 0x01 * 2 ^ 24 + code := by
  rw [encode, encodeH_toNat, BitVec.toNat_ofNat, Nat.mod_eq_of_lt h]
  rfl

/-- Settles O5: the words are closed, so decoding them is computing. -/
theorem specWordsDecodeAsWritten : Obligations.SpecWordsDecodeAsWritten := by
  unfold Obligations.SpecWordsDecodeAsWritten
  decide

/-! ## Effects -/

/-- Settles O6: the state that HALT leaves is the one written out. -/
theorem haltStopsWithItsCode : Obligations.HaltStopsWithItsCode :=
  fun _ _ => ⟨encode_halt_toNat, rfl⟩

section
variable (off : Int) (s : State)

theorem exec_j : exec (.j off) s = .next { s with pc := branchTarget s.pc off } := rfl

theorem exec_bc : exec (.bc off) s = .next { s with pc := if s.c = true then branchTarget s.pc off else s.pc + 1 } :=
  congrArg _ (branch_eq s.c off s)

theorem exec_bnc : exec (.bnc off) s = .next { s with pc := if s.c = false then branchTarget s.pc off else s.pc + 1 } := by
  refine (congrArg _ (branch_eq (!s.c) off s)).trans ?_
  simp only [Bool.not_eq_true']

end

/-- Settles O7: the target of all three is `branchTarget`, whose residue R135 gives. -/
theorem branchesSetOnlyThePc : Obligations.BranchesSetOnlyThePc := by
  refine fun off s => ⟨fun _ _ => ⟨?j, ?bc, ?bnc⟩,
    branchTarget s.pc off, branchTarget_toNat s.pc off, exec_j off s, exec_bc off s, exec_bnc off s⟩
  case j | bc | bnc => exact encodeB_ofInt_toNat _ off

/-! ## The step -/

/-- Settles O36: under R134's premises the decoded instruction decides the step. -/
theorem stepRunsTheDecodedInstruction : Obligations.StepRunsTheDecodedInstruction :=
  fun _ _ hr ha hp hd => step_of_decoded hr ha hp hd

end Sys2Proof.Machine
end

section
/-! PROOFS. What the proofs of the data instructions share: the words of formats R and M (R102–R105), and how a data access traps or
stores (R74, R76, R77). -/

namespace Sys2Proof.Machine

/-! ## Words -/

/-- A word of format R has the number that its opcode and its four register indexes give. -/
theorem encodeR_regBits_toNat (op : BitVec 8) (rd ra rb rc : Fin 16) :
    (encodeR op (regBits rd) (regBits ra) (regBits rb) (regBits rc)).toNat = wordR op.toNat rd ra rb rc := by
  simp only [encodeR_toNat, regBits_toNat, wordR]

/-- A word of format M or I has the number that its opcode, its register and its immediate give, where the field holds it. -/
theorem encodeM_regBits_toNat (op : BitVec 8) (r : Fin 16) {n : Nat} (h : n < 65536) :
    (encodeM op (regBits r) (BitVec.ofNat 16 n)).toNat = wordM op.toNat r n := by
  rw [encodeM_toNat, regBits_toNat, BitVec.toNat_ofNat, Nat.mod_eq_of_lt h, wordM]

/-! ## Data accesses -/

/-- An instruction that runs behind the checks of a data access traps as R76 and R77 say. -/
theorem accessTraps_of_withAddr {i : Instr} {addr n : Nat} {s k : State} (h : exec i s = .next (withAddr i n addr s k)) :
    AccessTraps i addr n s :=
  ⟨fun misaligned => h.trans (congrArg _ (withAddr_of_misaligned k misaligned)),
    fun aligned outside => h.trans (congrArg _ (withAddr_of_outside k aligned outside))⟩

theorem storeTo_of_ok {i : Instr} {addr : Nat} {s : State} (b : List Byte) (h : s.accessOk addr 32) :
    storeTo i addr b s = { s with dmem := s.dmem.writeBytes addr b, pc := s.pc + 1 } := withAddr_of_ok _ h

end Sys2Proof.Machine
end

section
/-! PROOFS. The field unit's instructions (R150–R162): the laws of the field, and the word and the effect of each instruction. -/

namespace Sys2Proof.Machine

/-! ## The remaining primitives as integers (R15) -/

theorem val_fadd (a b : Fe) : ((fadd a b).val : Int) = ((a.val : Int) + b.val) % p := by
  rw [fadd, Fe.val_ofNat, Int.natCast_emod, Nat.cast_add]

theorem val_fmul (a b : Fe) : ((fmul a b).val : Int) = (a.val : Int) * b.val % p := by
  rw [fmul, Fe.val_ofNat, Int.natCast_emod, Nat.cast_mul]

theorem val_finv (a : Fe) : ((finv a).val : Int) = (a.val : Int) ^ (p - 2) % p := by
  rw [finv, val_fpow a _ (by decide), Int.natCast_emod, Nat.cast_pow]

/-! ## The laws of the field (R162) -/

theorem fmul_finv_eq_one_iff (a : Fe) : (fmul a (finv a)).val = 1 ↔ a.val ≠ 0 := by
  refine ⟨fun one zero => ?_, fun h => congrArg Fin.val (fmul_finv_eq_one h)⟩
  rw [fmul, zero, Nat.zero_mul] at one
  exact absurd one (by decide)

/-- Settles O28: each law is the law of ZMod p. -/
theorem fieldLaws : Obligations.FieldLaws := by
  refine ⟨fun a b => ⟨?_, ?_, ?_⟩, fun a b c => ⟨?_, ?_⟩, fmul_finv_eq_one_iff⟩ <;> apply zmod_injective
  · rw [zmod_fadd, zmod_fadd, add_comm]
  · rw [zmod_fmul, zmod_fmul, mul_comm]
  · rw [zmod_fsub, zmod_fadd, zmod_fneg, sub_eq_add_neg]
  · simp only [zmod_fadd, add_assoc]
  · simp only [zmod_fmul, mul_assoc]

/-! ## Loads and stores -/

theorem exec_feLd {fd : FReg} {addr : Nat} {s : State} (h : s.accessOk addr 32) :
    exec (.feLd fd addr) s =
      .next { s with f := s.f.set fd ⟨Fe.ofNat (leInt (s.dmem.readBytes addr 32)), true⟩, pc := s.pc + 1 } :=
  congrArg _ (withAddr_of_ok _ h)

/-- Settles O8: the value read is the sum of R8, and `Fe.ofNat` reduces it. -/
theorem feLdReducesTheLoadedValue : Obligations.FeLdReducesTheLoadedValue := by
  refine fun fd addr s => ⟨encodeM_regBits_toNat 0x10 fd, fun ok => ⟨_, ?_, exec_feLd ok⟩, accessTraps_of_withAddr rfl⟩
  rw [Fe.val_ofNat, leInt_readBytes]

section
variable {fa : FReg} (addr : Nat) {s : State}

theorem exec_feSt_of_valid (h : s.f[fa].valid = true) :
    exec (.feSt fa addr) s = .next (storeTo (.feSt fa addr) addr (leBytes 32 s.f[fa].val.val) s) :=
  congrArg _ (withF_of_valid _ h)

theorem exec_feSt_of_invalid (h : s.f[fa].valid = false) :
    exec (.feSt fa addr) s = .next (s.afterTrap .uninit (.feSt fa addr) 0) :=
  congrArg _ (withF_of_invalid _ h)

end

/-- A canonical value is below 2^255, so the top bit of its last byte is 0 (R152). -/
theorem getLsbD_seven_of_last_byte {b : Byte} {v : Fe} (h : b.toNat = v.val / 2 ^ (8 * 31) % 256) : b.getLsbD 7 = false := by
  have small : b.toNat < 2 ^ 7 := by
    have := Fe.val_lt_two_pow v
    omega
  exact Nat.testBit_lt_two_pow small

/-- Settles O9: the source is checked before the address, and the bytes stored are those of the canonical value. -/
theorem feStStoresTheCanonicalBytes : Obligations.FeStStoresTheCanonicalBytes := by
  refine fun fa addr s => ⟨encodeM_regBits_toNat 0x11 fa, exec_feSt_of_invalid addr,
    fun valid => accessTraps_of_withAddr (exec_feSt_of_valid addr valid), fun valid ok => ?_⟩
  have bytes := fun k (hk : k < 32) => Mem.read_writeBytes_leBytes s.dmem addr s.f[fa].val.val hk
  refine ⟨s.dmem.writeBytes addr (leBytes 32 s.f[fa].val.val), ?_, bytes, ?_, fun x hx => ?_⟩
  · rw [exec_feSt_of_valid addr valid, storeTo_of_ok _ ok]
  · exact getLsbD_seven_of_last_byte (bytes 31 (by decide))
  · exact Mem.read_writeBytes_outside s.dmem (by rwa [leBytes_length])

/-! ## One or two sources, one destination -/

section
variable {i : Instr} {fd fa fb : FReg} {s : State}

theorem feUnary_of_valid (g : Fe → Fe) (h : s.f[fa].valid = true) :
    feUnary i g fd fa s = { s with f := s.f.set fd ⟨g s.f[fa].val, true⟩, pc := s.pc + 1 } := withF_of_valid _ h

theorem feUnary_of_invalid (g : Fe → Fe) (h : s.f[fa].valid = false) :
    feUnary i g fd fa s = s.afterTrap .uninit i 0 := withF_of_invalid _ h

/-- Two sources run their continuation where both are valid. -/
theorem withF_withF_of_valid (k : Fe → Fe → State) (ha : s.f[fa].valid = true) (hb : s.f[fb].valid = true) :
    (withF i fa s fun a => withF i fb s (k a)) = k s.f[fa].val s.f[fb].val := by
  rw [withF_of_valid _ ha, withF_of_valid _ hb]

/-- Two sources raise the same E_UNINIT whichever is not valid. -/
theorem withF_withF_of_invalid (k : Fe → Fe → State) (h : s.f[fa].valid = false ∨ s.f[fb].valid = false) :
    (withF i fa s fun a => withF i fb s (k a)) = s.afterTrap .uninit i 0 := by
  rcases withF_cases i fa s fun a => withF i fb s (k a) with ⟨ha, e⟩ | ⟨-, e⟩
  · have hb := h.resolve_left fun ha' => nomatch ha.symm.trans ha'
    rw [e, withF_of_invalid _ hb, State.trap_eq_afterTrap]
  · exact e

end

/-- What an instruction made of `feUnary` means, from the value of its function as an integer. -/
theorem feUnaryMeans_of_val {mk : FReg → FReg → Instr} {op : Nat} {g : Fe → Fe} {g' : Int → Int}
    (word : ∀ fd fa, (encode (mk fd fa)).toNat = wordR op fd fa 0 0)
    (run : ∀ fd fa s, exec (mk fd fa) s = .next (feUnary (mk fd fa) g fd fa s))
    (val : ∀ a : Fe, ((g a).val : Int) = g' a.val) : FeUnaryMeans mk op g' :=
  fun fd fa s => ⟨word fd fa,
    fun valid => ⟨g s.f[fa].val, val _, (run fd fa s).trans (congrArg _ (feUnary_of_valid g valid))⟩,
    fun invalid => (run fd fa s).trans (congrArg _ (feUnary_of_invalid g invalid))⟩

/-- What an instruction made of `feBinary` means, from the value of its function as an integer. -/
theorem feBinaryMeans_of_val {mk : FReg → FReg → FReg → Instr} {op : Nat} {g : Fe → Fe → Fe} {g' : Int → Int → Int}
    (word : ∀ fd fa fb, (encode (mk fd fa fb)).toNat = wordR op fd fa fb 0)
    (run : ∀ fd fa fb s, exec (mk fd fa fb) s = .next (feBinary (mk fd fa fb) g fd fa fb s))
    (val : ∀ a b : Fe, ((g a b).val : Int) = g' a.val b.val) : FeBinaryMeans mk op g' :=
  fun fd fa fb s => ⟨word fd fa fb,
    fun ha hb => ⟨g s.f[fa].val s.f[fb].val, val _ _, (run fd fa fb s).trans (congrArg _ (withF_withF_of_valid _ ha hb))⟩,
    fun invalid => (run fd fa fb s).trans (congrArg _ (withF_withF_of_invalid _ invalid))⟩

/-- Settles O10: an immediate is below p, so it is not reduced, and FE.MOV applies the identity to its source. -/
theorem feLdiAndMovWriteTheirSource : Obligations.FeLdiAndMovWriteTheirSource := by
  refine ⟨fun fd imm s h => ⟨encodeM_regBits_toNat 0x12 fd h, Fe.ofNat imm, ?_, rfl⟩,
    fun fd fa s => ⟨encodeR_regBits_toNat 0x13 fd fa 0 0, fun valid => ?_, fun invalid => ?_⟩⟩
  · exact Nat.mod_eq_of_lt (h.trans (by decide))
  · exact congrArg _ (feUnary_of_valid _ valid)
  · exact congrArg _ (feUnary_of_invalid _ invalid)

/-- Settles O11: the three are `feBinary` of the field primitives, whose values are the integer operations mod p. -/
theorem feAddSubMulAreExactModP : Obligations.FeAddSubMulAreExactModP :=
  ⟨feBinaryMeans_of_val (fun fd fa fb => encodeR_regBits_toNat 0x14 fd fa fb 0) (fun _ _ _ _ => rfl) val_fadd,
    feBinaryMeans_of_val (fun fd fa fb => encodeR_regBits_toNat 0x15 fd fa fb 0) (fun _ _ _ _ => rfl) val_fsub,
    feBinaryMeans_of_val (fun fd fa fb => encodeR_regBits_toNat 0x16 fd fa fb 0) (fun _ _ _ _ => rfl) val_fmul⟩

/-- Settles O12: the three are `feUnary` of the field primitives, whose values are the integer operations mod p, at 0 too. -/
theorem feSqrInvNegAreExactModP : Obligations.FeSqrInvNegAreExactModP :=
  ⟨feUnaryMeans_of_val (fun fd fa => encodeR_regBits_toNat 0x17 fd fa 0 0) (fun _ _ _ => rfl) fun a => val_fmul a a,
    feUnaryMeans_of_val (fun fd fa => encodeR_regBits_toNat 0x18 fd fa 0 0) (fun _ _ _ => rfl) val_finv,
    feUnaryMeans_of_val (fun fd fa => encodeR_regBits_toNat 0x19 fd fa 0 0) (fun _ _ _ => rfl) fun a => by
      rw [val_fneg, zero_sub]⟩

/-! ## The compare -/

/-- Settles O13: registers are canonical, so two field elements are equal exactly when their values are. -/
theorem feEqSetsCToEquality : Obligations.FeEqSetsCToEquality := by
  refine fun fa fb s => ⟨encodeR_regBits_toNat 0x1A 0 fa fb 0, fun ha hb => ?_, fun invalid => ?_⟩
  · refine ⟨flagFeEq s.f[fa].val s.f[fb].val, ?_, congrArg _ (withF_withF_of_valid _ ha hb)⟩
    rw [flagFeEq, decide_eq_true_iff, Fin.ext_iff]
  · exact congrArg _ (withF_withF_of_invalid _ invalid)

end Sys2Proof.Machine
end

section
/-! PROOFS. The scalar unit's instructions (R180–R190): the bits of a clamped scalar, and the word and the effect of each
instruction. -/

namespace Sys2Proof.Machine

/-! ## The clamp (R24) -/

/-- The clamp bit by bit. -/
theorem getLsbD_clamp (n : Scalar) {k : Nat} (hk : k < 256) :
    (clamp n).getLsbD k = if k < 3 ∨ k = 255 then false else if k = 254 then true else n.getLsbD k := by
  have seven : (7#256).getLsbD k = decide (k < 3) := by
    rw [BitVec.getLsbD_ofNat, show 7 = 2 ^ 3 - 1 from rfl, Nat.testBit_two_pow_sub_one, decide_eq_true hk, Bool.true_and]
  have one : ∀ j < 256, (1#256 <<< j).getLsbD k = decide (k = j) := by
    intro j hj
    rw [← BitVec.twoPow_eq, BitVec.getLsbD_twoPow, decide_eq_true hj, Bool.true_and]
    exact decide_eq_decide.mpr eq_comm
  simp only [clamp, BitVec.getLsbD_or, BitVec.getLsbD_and, BitVec.getLsbD_not, seven, one 255 (by decide),
    one 254 (by decide), decide_eq_true hk, Bool.true_and]
  split_ifs with cleared set
  · have other : k ≠ 254 := by omega
    rcases cleared with low | rfl
    · simp [low, other]
    · simp
  · simp [set]
  · obtain ⟨low, top⟩ := not_or.mp cleared
    simp [low, top, set]

theorem clamp_clamp (n : Scalar) : clamp (clamp n) = clamp n := by
  refine BitVec.eq_of_getLsbD_eq fun k hk => ?_
  rw [getLsbD_clamp _ hk, getLsbD_clamp _ hk]
  split_ifs <;> rfl

theorem two_pow_le_toNat_clamp (n : Scalar) : 2 ^ 254 ≤ (clamp n).toNat :=
  Nat.ge_two_pow_of_testBit (getLsbD_clamp n (k := 254) (by decide))

theorem toNat_clamp_lt (n : Scalar) : (clamp n).toNat < 2 ^ 255 :=
  BitVec.toNat_lt_of_msb_false (getLsbD_clamp n (k := 255) (by decide))

theorem toNat_clamp_mod_eight (n : Scalar) : (clamp n).toNat % 8 = 0 := by
  refine Nat.eq_of_testBit_eq fun k => ?_
  rw [show 8 = 2 ^ 3 from rfl, Nat.testBit_mod_two_pow, Nat.zero_testBit]
  by_cases hk : k < 3
  · rw [← BitVec.getLsbD, getLsbD_clamp n (by omega), if_pos (.inl hk), Bool.and_false]
  · rw [decide_eq_false hk, Bool.false_and]

/-! ## Loads and stores -/

section
variable {sd : SReg} {addr : Nat} {s : State}

theorem exec_scLd (h : s.accessOk addr 32) :
    exec (.scLd sd addr) s =
      .next { s with s := s.s.set sd ⟨BitVec.ofNat 256 (leInt (s.dmem.readBytes addr 32)), true⟩, pc := s.pc + 1 } :=
  congrArg _ (withAddr_of_ok _ h)

theorem exec_scLdh (h : s.accessOk addr 64) :
    exec (.scLdh sd addr) s =
      .next { s with s := s.s.set sd ⟨sred (leInt (s.dmem.readBytes addr 64)), true⟩, pc := s.pc + 1 } :=
  congrArg _ (withAddr_of_ok _ h)

end

/-- A scalar holds any 32 bytes raw (R182). -/
theorem toNat_ofNat_leInt_readBytes (s : State) (addr : Nat) :
    (BitVec.ofNat 256 (leInt (s.dmem.readBytes addr 32))).toNat = s.dmemValue addr 32 := by
  have fits := leInt_lt (s.dmem.readBytes addr 32)
  rw [Mem.readBytes_length, show 256 ^ 32 = 2 ^ 256 from rfl] at fits
  rw [BitVec.toNat_ofNat, Nat.mod_eq_of_lt fits, leInt_readBytes]

/-- Settles O14: 32 bytes fit a scalar, and `sred` reduces the value of 64. -/
theorem scLoadsReadRawOrReducedValues : Obligations.ScLoadsReadRawOrReducedValues := by
  refine fun sd addr s => ⟨fun h => ⟨encodeM_regBits_toNat 0x20 sd h, encodeM_regBits_toNat 0x22 sd h⟩,
    fun ok => ⟨_, toNat_ofNat_leInt_readBytes s addr, exec_scLd ok⟩, fun ok => ⟨_, ?_, exec_scLdh ok⟩,
    accessTraps_of_withAddr rfl, accessTraps_of_withAddr rfl⟩
  rw [toNat_sred, leInt_readBytes]

section
variable {sa : SReg} (addr : Nat) {s : State}

theorem exec_scSt_of_valid (h : s.s[sa].valid = true) :
    exec (.scSt sa addr) s = .next (storeTo (.scSt sa addr) addr (leBytes 32 s.s[sa].val.toNat) s) :=
  congrArg _ (withS_of_valid _ h)

theorem exec_scSt_of_invalid (h : s.s[sa].valid = false) :
    exec (.scSt sa addr) s = .next (s.afterTrap .uninit (.scSt sa addr) 0) :=
  congrArg _ (withS_of_invalid _ h)

end

/-- Settles O15: the source is checked before the address, and the bytes stored are those of the raw value. -/
theorem scStStoresTheRawBytes : Obligations.ScStStoresTheRawBytes := by
  refine fun sa addr s => ⟨encodeM_regBits_toNat 0x21 sa, exec_scSt_of_invalid addr,
    fun valid => accessTraps_of_withAddr (exec_scSt_of_valid addr valid), fun valid ok => ?_⟩
  refine ⟨s.dmem.writeBytes addr (leBytes 32 s.s[sa].val.toNat), ?_,
    fun k hk => Mem.read_writeBytes_leBytes s.dmem addr _ hk, fun x hx => ?_⟩
  · rw [exec_scSt_of_valid addr valid, storeTo_of_ok _ ok]
  · exact Mem.read_writeBytes_outside s.dmem (by rwa [leBytes_length])

/-! ## One, two or three sources, one destination -/

section
variable {i : Instr} {sd sa sb : SReg} {s : State}

theorem scUnary_of_valid (g : Scalar → Scalar) (h : s.s[sa].valid = true) :
    scUnary i g sd sa s = { s with s := s.s.set sd ⟨g s.s[sa].val, true⟩, pc := s.pc + 1 } := withS_of_valid _ h

theorem scUnary_of_invalid (g : Scalar → Scalar) (h : s.s[sa].valid = false) :
    scUnary i g sd sa s = s.afterTrap .uninit i 0 := withS_of_invalid _ h

/-- A source raises E_UNINIT where it is not valid, or where what follows it does. -/
theorem withS_eq_afterTrap {k : Scalar → State} (h : s.s[sa].valid = true → k s.s[sa].val = s.afterTrap .uninit i 0) :
    withS i sa s k = s.afterTrap .uninit i 0 := by
  rcases withS_cases i sa s k with ⟨valid, e⟩ | ⟨-, e⟩
  · rw [e, h valid]
  · exact e

theorem withS_withS_of_valid (k : Scalar → Scalar → State) (ha : s.s[sa].valid = true) (hb : s.s[sb].valid = true) :
    (withS i sa s fun a => withS i sb s (k a)) = k s.s[sa].val s.s[sb].val := by
  rw [withS_of_valid _ ha, withS_of_valid _ hb]

/-- Two sources raise the same E_UNINIT whichever is not valid. -/
theorem withS_withS_of_invalid (k : Scalar → Scalar → State) (h : s.s[sa].valid = false ∨ s.s[sb].valid = false) :
    (withS i sa s fun a => withS i sb s (k a)) = s.afterTrap .uninit i 0 :=
  withS_eq_afterTrap fun ha => withS_of_invalid _ (h.resolve_left (ne_false_of_eq_true ha))

end

/-- What an instruction made of `scBinary` means, from the value of its function. -/
theorem scBinaryMeans_of_toNat {mk : SReg → SReg → SReg → Instr} {op : Nat} {g : Scalar → Scalar → Scalar}
    {g' : Nat → Nat → Nat}
    (word : ∀ sd sa sb, (encode (mk sd sa sb)).toNat = wordR op sd sa sb 0)
    (run : ∀ sd sa sb s, exec (mk sd sa sb) s = .next (scBinary (mk sd sa sb) g sd sa sb s))
    (val : ∀ a b : Scalar, (g a b).toNat = g' a.toNat b.toNat % groupOrder) : ScBinaryMeans mk op g' :=
  fun sd sa sb s => ⟨word sd sa sb,
    fun ha hb => ⟨g s.s[sa].val s.s[sb].val, val _ _, (run sd sa sb s).trans (congrArg _ (withS_withS_of_valid _ ha hb))⟩,
    fun invalid => (run sd sa sb s).trans (congrArg _ (withS_withS_of_invalid _ invalid))⟩

section
variable {sd sa sb sc : SReg} {s : State}

theorem exec_scMulAdd_of_valid (ha : s.s[sa].valid = true) (hb : s.s[sb].valid = true) (hc : s.s[sc].valid = true) :
    exec (.scMulAdd sd sa sb sc) s =
      .next { s with s := s.s.set sd ⟨smuladd s.s[sa].val s.s[sb].val s.s[sc].val, true⟩, pc := s.pc + 1 } :=
  congrArg _ ((withS_withS_of_valid _ ha hb).trans (withS_of_valid _ hc))

theorem exec_scMulAdd_of_invalid (h : s.s[sa].valid = false ∨ s.s[sb].valid = false ∨ s.s[sc].valid = false) :
    exec (.scMulAdd sd sa sb sc) s = .next (s.afterTrap .uninit (.scMulAdd sd sa sb sc) 0) :=
  congrArg _ (withS_eq_afterTrap fun ha => withS_withS_of_invalid _ (h.resolve_left (ne_false_of_eq_true ha)))

end

/-- Settles O16: every one of them ends in `sred`, whose value is the least residue of the exact result. -/
theorem scArithmeticIsExactModL : Obligations.ScArithmeticIsExactModL := by
  refine ⟨?add, ?mul, ?red, ?mulAdd⟩
  case add =>
    exact scBinaryMeans_of_toNat (fun sd sa sb => encodeR_regBits_toNat 0x24 sd sa sb 0) (fun _ _ _ _ => rfl)
      fun _ _ => toNat_sred _
  case mul =>
    exact scBinaryMeans_of_toNat (fun sd sa sb => encodeR_regBits_toNat 0x25 sd sa sb 0) (fun _ _ _ _ => rfl)
      fun _ _ => toNat_sred _
  case red =>
    exact fun sd sa s => ⟨encodeR_regBits_toNat 0x23 sd sa 0 0,
      fun valid => ⟨_, toNat_sred _, congrArg _ (scUnary_of_valid (fun a => sred a.toNat) valid)⟩,
      fun invalid => congrArg _ (scUnary_of_invalid _ invalid)⟩
  case mulAdd =>
    exact fun sd sa sb sc s => ⟨encodeR_regBits_toNat 0x26 sd sa sb sc,
      fun ha hb hc => ⟨_, toNat_sred _, exec_scMulAdd_of_valid ha hb hc⟩, exec_scMulAdd_of_invalid⟩

/-- Settles O17: the bits of the result give its range, its residue mod 8 and its clamp. -/
theorem scClampSetsTheFiveBits : Obligations.ScClampSetsTheFiveBits :=
  fun sd sa _ => ⟨encodeR_regBits_toNat 0x27 sd sa 0 0,
    fun valid => ⟨_, fun _ => getLsbD_clamp _, two_pow_le_toNat_clamp _, toNat_clamp_lt _,
      toNat_clamp_mod_eight _, clamp_clamp _, congrArg _ (scUnary_of_valid clamp valid)⟩,
    fun invalid => congrArg _ (scUnary_of_invalid clamp invalid)⟩

/-! ## The compare -/

/-- Settles O18: the flag is the comparison of the raw value with L. -/
theorem scLtlTestsCanonicity : Obligations.ScLtlTestsCanonicity :=
  fun sa _ => ⟨encodeR_regBits_toNat 0x28 0 sa 0 0,
    fun valid => ⟨_, decide_eq_true_iff, execScLtl_of_valid valid⟩,
    fun invalid => congrArg _ (withS_of_invalid _ invalid)⟩

end Sys2Proof.Machine
end

section
/-! PROOFS. The point unit's instructions (R210–R221): the word and the effect of each instruction. -/

namespace Sys2Proof.Machine

/-! ## Loads and stores -/

theorem leInt_inj_of_length_eq {b c : List Byte} (length : b.length = c.length) (h : leInt b = leInt c) : b = c := by
  rw [← leBytes_leInt b, ← leBytes_leInt c, length, h]

/-- The bytes of DMEM are the one byte string with their number and their value. -/
theorem eq_readBytes_of_leInt {b : List Byte} {s : State} {a n : Nat} (length : b.length = n) (h : leInt b = s.dmemValue a n) :
    b = s.dmem.readBytes a n :=
  leInt_inj_of_length_eq (by rw [length, Mem.readBytes_length]) (by rw [h, leInt_readBytes])

section
variable {pd : PReg} {addr : Nat} {s : State}

theorem exec_ptDec_of_some {q : Point} (h : s.accessOk addr 32) (hq : dec (s.dmem.readBytes addr 32) = some q) :
    exec (.ptDec pd addr) s = .next { s with p := s.p.set pd ⟨q, true⟩, pc := s.pc + 1 } := by
  refine congrArg _ ((withAddr_of_ok _ h).trans ?_)
  simp only [hq, putP_eq]

theorem exec_ptDec_of_none (h : s.accessOk addr 32) (hq : dec (s.dmem.readBytes addr 32) = none) :
    exec (.ptDec pd addr) s = .next (s.afterTrap .decode (.ptDec pd addr) addr) := by
  refine congrArg _ ((withAddr_of_ok _ h).trans ?_)
  simp only [hq, State.trap_eq_afterTrap]

end

/-- Settles O19: a byte string of the operand's value is the operand itself, and each outcome of `dec` on it has its own state. -/
theorem ptDecWritesTheDecodedPointOrTraps : Obligations.PtDecWritesTheDecodedPointOrTraps := by
  refine fun pd addr s => ⟨encodeM_regBits_toNat 0x30 pd, fun ok b length value => ?_, accessTraps_of_withAddr rfl⟩
  rw [eq_readBytes_of_leInt length value]
  exact ⟨fun _ => exec_ptDec_of_some ok, exec_ptDec_of_none ok⟩

section
variable {pa : PReg} (addr : Nat) {s : State}

theorem exec_ptEnc_of_valid (h : s.p[pa].valid = true) :
    exec (.ptEnc pa addr) s = .next (storeTo (.ptEnc pa addr) addr (enc s.p[pa].val) s) :=
  congrArg _ (withP_of_valid _ h)

theorem exec_ptEnc_of_invalid (h : s.p[pa].valid = false) :
    exec (.ptEnc pa addr) s = .next (s.afterTrap .uninit (.ptEnc pa addr) 0) :=
  congrArg _ (withP_of_invalid _ h)

end

/-- Settles O20: the source is checked before the address, and the bytes stored are those of the encoding's number. -/
theorem ptEncStoresTheEncoding : Obligations.PtEncStoresTheEncoding := by
  refine fun pa addr s => ⟨encodeM_regBits_toNat 0x31 pa, exec_ptEnc_of_invalid addr,
    fun valid => accessTraps_of_withAddr (exec_ptEnc_of_valid addr valid), fun valid ok => ?_⟩
  refine ⟨s.dmem.writeBytes addr (enc s.p[pa].val), ?_,
    fun k hk => Mem.read_writeBytes_leBytes s.dmem addr _ hk, fun x hx => ?_⟩
  · rw [exec_ptEnc_of_valid addr valid, storeTo_of_ok _ ok]
  · exact Mem.read_writeBytes_outside s.dmem (by rwa [enc, leBytes_length])

/-! ## Two sources -/

section
variable {i : Instr} {pa pb : PReg} {s : State}

theorem withP_withP_of_valid (k : Point → Point → State) (ha : s.p[pa].valid = true) (hb : s.p[pb].valid = true) :
    (withP i pa s fun a => withP i pb s (k a)) = k s.p[pa].val s.p[pb].val := by
  rw [withP_of_valid _ ha, withP_of_valid _ hb]

/-- Two sources raise the same E_UNINIT whichever is not valid. -/
theorem withP_withP_of_invalid (k : Point → Point → State) (h : s.p[pa].valid = false ∨ s.p[pb].valid = false) :
    (withP i pa s fun a => withP i pb s (k a)) = s.afterTrap .uninit i 0 := by
  rcases withP_cases i pa s fun a => withP i pb s (k a) with ⟨ha, e⟩ | ⟨-, e⟩
  · exact e.trans (withP_of_invalid _ (h.resolve_left (ne_false_of_eq_true ha)))
  · exact e

end

/-! ## The group -/

/-- Settles O21: PT.ADD and PT.DBL end in `padd`, and PT.ID writes the pair (0, 1). -/
theorem ptIdAddDblWriteTheSum : Obligations.PtIdAddDblWriteTheSum := by
  refine ⟨?id, ?add, ?dbl⟩
  case id =>
    exact fun pd s => ⟨encodeR_regBits_toNat 0x32 pd 0 0 0, Point.identity, rfl, rfl, rfl⟩
  case add =>
    exact fun pd pa pb s => ⟨encodeR_regBits_toNat 0x33 pd pa pb 0,
      fun ha hb => congrArg _ (withP_withP_of_valid (fun a b => putP pd (padd a b) s) ha hb),
      fun invalid => congrArg _ (withP_withP_of_invalid _ invalid)⟩
  case dbl =>
    exact fun pd pa s => ⟨encodeR_regBits_toNat 0x34 pd pa 0 0,
      fun valid => congrArg _ (withP_of_valid (fun a => putP pd (pdbl a) s) valid),
      fun invalid => congrArg _ (withP_of_invalid _ invalid)⟩

section
variable {pd pb : PReg} {sa : SReg} {s : State}

theorem exec_ptSmul_of_valid (ha : s.s[sa].valid = true) (hb : s.p[pb].valid = true) :
    exec (.ptSmul pd sa pb) s =
      .next { s with p := s.p.set pd ⟨smul s.s[sa].val.toNat s.p[pb].val, true⟩, pc := s.pc + 1 } :=
  congrArg _ ((withS_of_valid _ ha).trans (withP_of_valid _ hb))

theorem exec_ptSmul_of_invalid (h : s.s[sa].valid = false ∨ s.p[pb].valid = false) :
    exec (.ptSmul pd sa pb) s = .next (s.afterTrap .uninit (.ptSmul pd sa pb) 0) :=
  congrArg _ (withS_eq_afterTrap fun ha => withP_of_invalid _ (h.resolve_left (ne_false_of_eq_true ha)))

end

/-- Settles O22: the factor is the scalar register's raw value in both. -/
theorem ptSmulUsesTheWholeScalar : Obligations.PtSmulUsesTheWholeScalar := by
  refine ⟨?smulb, ?smul⟩
  case smulb =>
    exact fun pd sa s => ⟨encodeR_regBits_toNat 0x35 pd sa 0 0,
      fun valid => congrArg _ (withS_of_valid (fun a => putP pd (smul a.toNat basePoint) s) valid),
      fun invalid => congrArg _ (withS_of_invalid _ invalid)⟩
  case smul =>
    exact fun pd sa pb s => ⟨encodeR_regBits_toNat 0x36 pd sa pb 0, exec_ptSmul_of_valid, exec_ptSmul_of_invalid⟩

/-! ## The compare -/

theorem Point.eq_iff_val {q r : Point} : q = r ↔ q.x.val = r.x.val ∧ q.y.val = r.y.val := by
  rw [Point.mk.injEq, Fin.ext_iff, Fin.ext_iff]

/-- Settles O23: coordinates are canonical, so two points are equal exactly when the values of both coordinates are. -/
theorem ptEqSetsCToEquality : Obligations.PtEqSetsCToEquality :=
  fun pa pb _ => ⟨encodeR_regBits_toNat 0x37 0 pa pb 0,
    fun ha hb => ⟨_, decide_eq_true_iff.trans Point.eq_iff_val, execPtEq_of_valid ha hb⟩,
    fun invalid => congrArg _ (withP_withP_of_invalid _ invalid)⟩

/-! ## Coordinates -/

/-- Settles O24: a coordinate of the one source is written. -/
theorem ptGetWritesACoordinate : Obligations.PtGetWritesACoordinate :=
  fun fd pa s => ⟨encodeR_regBits_toNat 0x38 fd pa 0 0, encodeR_regBits_toNat 0x39 fd pa 0 0,
    fun valid => ⟨congrArg _ (withP_of_valid (fun a => putF fd a.x s) valid),
      congrArg _ (withP_of_valid (fun a => putF fd a.y s) valid)⟩,
    fun invalid => ⟨congrArg _ (withP_of_invalid _ invalid), congrArg _ (withP_of_invalid _ invalid)⟩⟩

/-- Two valid coordinates are written where they satisfy the curve equation, else E_NOTONCURVE is raised (R221). -/
theorem exec_ptFromxy_of_valid {pd : PReg} {fa fb : FReg} {s : State} (ha : s.f[fa].valid = true)
    (hb : s.f[fb].valid = true) :
    exec (.ptFromxy pd fa fb) s =
      .next (if OnCurve ⟨s.f[fa].val, s.f[fb].val⟩ then putP pd ⟨s.f[fa].val, s.f[fb].val⟩ s
        else s.trap .notOnCurve (.ptFromxy pd fa fb) 0) :=
  congrArg _ ((withF_of_valid _ ha).trans (withF_of_valid _ hb))

/-- Settles O25: the sources are checked first, then the curve equation decides. -/
theorem ptFromxyChecksTheCurveEquation : Obligations.PtFromxyChecksTheCurveEquation := by
  refine fun pd fa fb s => ⟨encodeR_regBits_toNat 0x3A pd fa fb 0, fun ha hb => ?_,
    fun invalid => congrArg _ (withF_withF_of_invalid _ invalid)⟩
  rw [exec_ptFromxy_of_valid ha hb]
  exact ⟨fun on => congrArg _ (if_pos on), fun off => congrArg _ (if_neg off)⟩

end Sys2Proof.Machine
end

section
/-! PROOFS. Exceptions (R250–R259): what a faulting step records and leaves unchanged, and how the host resumes a FAULTED unit. -/

namespace Sys2Proof.Machine

/-! ## What an exception records (R251, R255) -/

/-- The address that FADDR holds after an exception with cause c of a fetched word w (R251, R255). -/
def RecordsAddress (w : Word) (c : Cause) (a : BitVec 16) : Prop :=
  ((c = .illegal ∨ c = .uninit ∨ c = .notOnCurve) ∧ a = 0) ∨ ((c = .align ∨ c = .bus ∨ c = .decode) ∧ a = immField w)

/-- The word of an instruction with a DMEM operand holds the operand's address in its immediate field (R104). -/
theorem immField_encode_of_operand {i : Instr} {n : Nat}
    (h : reads i = some (dataAddress i, n) ∨ stores i = some (dataAddress i, n)) :
    immField (encode i) = BitVec.ofNat 16 (dataAddress i) := by
  cases i with
  | feLd r addr | feSt r addr | scLd r addr | scSt r addr | scLdh r addr | ptDec r addr | ptEnc r addr =>
    exact immField_encodeM _ _ _
  | _ => exact absurd h (by simp [reads, stores])

/-- An instruction that stops a RUNNING unit FAULTED has raised an exception and done nothing else (R254). -/
theorem Outcome.eq_trap_of_faulted {i : Instr} {s t : State} (o : Outcome i s t) (hr : s.runState = .running)
    (ht : t.runState = .faulted) : ∃ c a, t = s.trap c i a ∧ RecordsAddress (encode i) c (BitVec.ofNat 16 a) := by
  cases o with
  | uninit => exact ⟨_, _, rfl, .inl ⟨.inr (.inl rfl), rfl⟩⟩
  | notOnCurve => exact ⟨_, _, rfl, .inl ⟨.inr (.inr rfl), rfl⟩⟩
  | align n operand => exact ⟨_, _, rfl, .inr ⟨.inl rfl, (immField_encode_of_operand operand).symm⟩⟩
  | bus n operand => exact ⟨_, _, rfl, .inr ⟨.inr (.inl rfl), (immField_encode_of_operand operand).symm⟩⟩
  | decode n operand => exact ⟨_, _, rfl, .inr ⟨.inr (.inr rfl), (immField_encode_of_operand (.inl operand)).symm⟩⟩
  | halt => exact absurd ht nofun
  | jump | notTaken | compare | writeF | writeS | writeP | store => exact absurd (hr.symm.trans ht) nofun

/-- Where no abort is requested, an exception leaves ABRQ as a taken abort does. -/
theorem State.raise_eq_of_no_abort {s : State} (ha : s.abrq = false) (c : Cause) (w : Word) (a : BitVec 16) :
    s.raise c w a =
      { s with abrq := false, cause := c, finst := w, faddr := a, runState := .faulted, irqPend := true } := by
  rw [← ha]
  rfl

/-- Settles O39: an abort, E_FETCH and E_ILLEGAL are the step's own, and every other exception is its instruction's. -/
theorem exceptionsArePrecise : Obligations.ExceptionsArePrecise := by
  intro s t hr h ht
  cases StepOutcome.of_step h with
  | stopped hn => exact absurd hr hn
  | abort _ ha => exact ⟨rfl, .inl ⟨ha, rfl, rfl, rfl⟩⟩
  | fetch _ ha hp => exact ⟨State.raise_eq_of_no_abort ha _ _ _, .inr (.inl ⟨ha, hp, rfl, rfl, rfl⟩)⟩
  | illegal _ _ ha hp =>
    exact ⟨State.raise_eq_of_no_abort ha _ _ _, .inr (.inr ⟨ha, hp, rfl, .inl ⟨.inl rfl, rfl⟩⟩)⟩
  | executed i t _ ha hp hd he =>
    obtain ⟨_, -, -, -, word, -⟩ := of_decode_ok hd
    obtain ⟨c, a, rfl, records⟩ := (Outcome.of_exec he).eq_trap_of_faulted hr ht
    rw [word] at records
    exact ⟨State.raise_eq_of_no_abort ha _ _ _, .inr (.inr ⟨ha, hp, word, records⟩)⟩

/-! ## The host's return (R259) -/

/-- Settles O59: FAULTED is not RUNNING, so START is accepted, and it copies the ENTRY just written to the pc. -/
theorem aFaultedRunResumesWhereTheHostSays : Obligations.AFaultedRunResumesWhereTheHostSays := by
  intro s e hf
  have stopped : ({ s with entry := e } : State).runState ≠ .running := ne_of_eq_of_ne hf nofun
  rw [runEvents_write, hostWrite_entry, runEvents_write, hostWrite_start stopped]
  rfl

end Sys2Proof.Machine
end

section
/-! PROOFS. The hardware reset (R290, R291, R293): the table it leaves, and what the host then reads. -/

namespace Sys2Proof.Machine

/-- Every field of STATUS and the pc is 0 in the table of R290, and no interrupt is enabled or pending. -/
theorem ResetTable.reads_zero {s t : State} (h : ResetTable s t) :
    (hostRead 0x08 4 t).1 = 0 ∧ (hostRead 0x10 4 t).1 = 0 ∧ t.irq = false := by
  obtain ⟨-, -, hpc, hc, hrun, -, -, hresult, hcause, -, -, hhacc, hirqEn, -⟩ := h
  refine ⟨?status, ?pc, ?irq⟩
  case status =>
    rw [hostRead_status, State.statusWord, hcause, hresult, hhacc, hc, hrun]
    rfl
  case pc =>
    rw [hostRead_pc, hpc]
    rfl
  case irq =>
    rw [State.irq, hirqEn, Bool.false_and]

/-- Settles O52: a hardware reset is an instance of State.afterReset with the parameters kept, whatever its draws are. -/
theorem hardwareResetLeavesTheTable : Obligations.HardwareResetLeavesTheTable := by
  intro s
  have table : ResetTable s s.hardwareReset := resetTable_afterReset ..
  exact ⟨s.hardwareReset, rfl, table, table.reads_zero⟩

end Sys2Proof.Machine
end

section
/-! PROOFS. Totality: no instruction, event or list of events ends in a fault or a refusal (93_implementation_defined.md, 1.4). -/

namespace Sys2Proof.Machine

/-- A first event that answers t leaves the rest of the list to run from t. -/
theorem runEvents_cons_of_next {e : Event} {s t : State} (h : event e s = .next t) (es : List Event) :
    runEvents (e :: es) s = runEvents es t := by
  rw [runEvents, h]

/-- Every list of events answers a next state. -/
theorem runEvents_next (es : List Event) (s : State) : ∃ t, runEvents es s = .next t := by
  induction es generalizing s with
  | nil => exact ⟨s, rfl⟩
  | cons e es ih =>
    obtain ⟨t, answers⟩ := event_next e s
    rw [runEvents_cons_of_next answers]
    exact ih t

/-- Settles O38: exec_outcome for the instructions, event_next for the events, and an induction over the list for runs. -/
theorem everyEventAnswersANextState : Obligations.EveryEventAnswersANextState := by
  refine ⟨?instructions, event_next, runEvents_next⟩
  case instructions =>
    intro i s
    obtain ⟨t, answers, -⟩ := exec_outcome i s
    exact ⟨t, answers⟩

end Sys2Proof.Machine
end
